-- ==== Sys2Proof/Word.lean ====
section
/-! DEFINITION. The word types of the SFCE core (00_scope.md R5, `XLEN` and `ALEN`). -/

namespace Sys2Proof

/-- One byte: the width of every data transfer and of A, X, Y, SP and P (00_scope.md R5, `XLEN`). -/
abbrev Byte := BitVec 8

/-- A CPU bus address, and the program counter (00_scope.md R5, `ALEN`). -/
abbrev Word := BitVec 16

/-- A graphics address (20_memory.md R87). -/
abbrev GfxAddr := BitVec 14

/-- A resolved 32-bit RGBA colour (10_state.md R49). -/
abbrev Color := BitVec 32

end Sys2Proof
end

