-- ==== Sys2Proof/Config.lean ====
section
/-! DEFINITION. What is fixed for the machine, and the free values the spec leaves open.
The parameters that 00_scope.md R5 calls OPEN are launch-state components (`Machine.Params`). -/

namespace Sys2Proof.Config

/-- The page that holds the stack, as the address of its first byte (00_scope.md R5, `STACK_PAGE`). -/
def stackPage : Word := 0x0100

/-- The non-maskable interrupt vector (00_scope.md R5, 20_memory.md R86). -/
def vecNmi : Word := 0xFFFA

/-- The reset vector (00_scope.md R5, 20_memory.md R86). -/
def vecReset : Word := 0xFFFC

/-- The BRK vector (00_scope.md R5, 20_memory.md R86). -/
def vecBrk : Word := 0xFFFE

/-- The first address of the expansion region (20_memory.md R71: slot 2 is split at 0x4020). -/
def expansionBase : Word := 0x4020

/-- The first graphics address of the palette (20_memory.md R87). -/
def paletteBase : GfxAddr := 0x3F00

/-- The picture's width and height in pixels (00_scope.md R5, `SCREEN_W` and `SCREEN_H`). -/
def screenW : Nat := 256
def screenH : Nat := 240

/-- What a byte that nothing has written reads as, in every memory of the machine.
DESIGN CHOICE, unsafe: the spec leaves power-on contents unspecified (70_reset_and_hazards.md R421; log entry 1). -/
def unlistedByte : Byte := 0x00

/-- The `n`-th free byte: a register's content after a fatal bus access is unspecified
(60_exceptions.md R387: "no proof may depend on them"; log entry 6). It has no value in Lean. -/
opaque freeByte : Nat → Byte

/-- The `n`-th free word: the program counter after a fatal bus access (60_exceptions.md R387; log entry 6). -/
opaque freeWord : Nat → Word

end Sys2Proof.Config
end

