-- ==== Sys2Proof/Syntax.lean ====
section
/-! DEFINITION. The instructions (30_encoding.md R110 to R117).
The opcode table maps a byte to a pair of a mnemonic and an addressing-mode tag, and the executor has one
operation per mnemonic (40_dispatch_addressing.md R142, R144): so `Instr` has one constructor per mnemonic, and
the tag with its operand bytes is the constructor's operand. -/

namespace Sys2Proof

/-- The addressing modes whose operand lies in memory, each with its operand bytes (30_encoding.md R113). -/
inductive MemMode where
  /-- `ZP`, `$nn` (40_dispatch_addressing.md R148). -/
  | zp (n : Byte)
  /-- `ZPX`, `$nn,X` (R149). -/
  | zpx (n : Byte)
  /-- `ZPY`, `$nn,Y` (R150). -/
  | zpy (n : Byte)
  /-- `ABS`, `$nnnn` (R151). -/
  | abs (a : Word)
  /-- `ABX`, `$nnnn,X` (R152). -/
  | abx (a : Word)
  /-- `ABY`, `$nnnn,Y` (R153). -/
  | aby (a : Word)
  /-- `IZX`, `($nn,X)` (R155). -/
  | izx (n : Byte)
  /-- `IZY`, `($nn),Y` (R156). -/
  | izy (n : Byte)
  deriving DecidableEq, Repr

/-- The operand of an instruction that reads one byte: `IMM` (R147) or a memory mode. -/
inductive Source where
  | imm (v : Byte)
  | mem (m : MemMode)
  deriving DecidableEq, Repr

/-- The operand of a shift or rotate: `ACC` (R146) or a memory mode. -/
inductive ShiftTarget where
  | acc
  | mem (m : MemMode)
  deriving DecidableEq, Repr

/-- The operand of JMP: `ABS` (R151) or `IND` (R154). -/
inductive JumpTarget where
  | abs (a : Word)
  | ind (p : Word)
  deriving DecidableEq, Repr

/-- The operand of an undocumented NOP: `IMP` (R145), `IMM` (R147) or a memory mode (46_undocumented.md R288). -/
inductive NopOperand where
  | imp
  | imm (v : Byte)
  | mem (m : MemMode)
  deriving DecidableEq, Repr

/-- One constructor per mnemonic of the opcode table (30_encoding.md R115); the undocumented NOP encodings (R288)
and the SBC duplicate 0xEB (R289) have a rule and a constructor of their own. -/
inductive Instr where
  -- arithmetic, logic, compare (41_arithmetic_logic_compare.md)
  | adc (o : Source)
  | sbc (o : Source)
  | and (o : Source)
  | ora (o : Source)
  | eor (o : Source)
  | bit (m : MemMode)
  | cmp (o : Source)
  | cpx (o : Source)
  | cpy (o : Source)
  -- shift, rotate, increment, decrement (42_shift_rotate_incdec.md)
  | asl (t : ShiftTarget)
  | lsr (t : ShiftTarget)
  | rol (t : ShiftTarget)
  | ror (t : ShiftTarget)
  | inc (m : MemMode)
  | dec (m : MemMode)
  | inx
  | iny
  | dex
  | dey
  -- branch, jump, subroutine, interrupt (43_branch_jump_subroutine.md)
  | bpl (o : Byte)
  | bmi (o : Byte)
  | bvc (o : Byte)
  | bvs (o : Byte)
  | bcc (o : Byte)
  | bcs (o : Byte)
  | bne (o : Byte)
  | beq (o : Byte)
  | jmp (t : JumpTarget)
  | jsr (a : Word)
  | rts
  | rti
  | brk
  | nop
  -- stack and flags (44_stack_flags.md)
  | pha
  | pla
  | php
  | plp
  | clc
  | sec
  | cli
  | sei
  | clv
  | cld
  | sed
  -- load, store, transfer (45_load_store_transfer.md)
  | lda (o : Source)
  | ldx (o : Source)
  | ldy (o : Source)
  | sta (m : MemMode)
  | stx (m : MemMode)
  | sty (m : MemMode)
  | tax
  | tay
  | txa
  | tya
  | tsx
  | txs
  -- undocumented (46_undocumented.md)
  | slo (m : MemMode)
  | rla (m : MemMode)
  | sre (m : MemMode)
  | rra (m : MemMode)
  | sax (m : MemMode)
  | lax (m : MemMode)
  | dcp (m : MemMode)
  | isb (m : MemMode)
  /-- An undocumented NOP, with its opcode byte: several bytes share one tag (R288). -/
  | nopU (op : Byte) (o : NopOperand)
  /-- The undocumented SBC duplicate 0xEB, immediate (R289). -/
  | sbcU (v : Byte)
  /-- One of the 25 halting opcode bytes (R290); the diagnostic names the byte. -/
  | hlt (op : Byte)
  deriving DecidableEq, Repr

/-- Operand bytes of a memory mode (30_encoding.md R111). -/
def MemMode.size : MemMode → Nat
  | .zp _ | .zpx _ | .zpy _ | .izx _ | .izy _ => 1
  | .abs _ | .abx _ | .aby _ => 2

/-- Operand bytes of a read operand (30_encoding.md R111). -/
def Source.size : Source → Nat
  | .imm _ => 1
  | .mem m => m.size

/-- Operand bytes of a shift's operand (30_encoding.md R111). -/
def ShiftTarget.size : ShiftTarget → Nat
  | .acc => 0
  | .mem m => m.size

/-- Operand bytes of an undocumented NOP (30_encoding.md R111). -/
def NopOperand.size : NopOperand → Nat
  | .imp => 0
  | .imm _ => 1
  | .mem m => m.size

/-- How many operand bytes follow the opcode byte (30_encoding.md R111, R112). -/
def Instr.operandSize : Instr → Nat
  | .adc o | .sbc o | .and o | .ora o | .eor o | .cmp o | .cpx o | .cpy o | .lda o | .ldx o | .ldy o => o.size
  | .asl t | .lsr t | .rol t | .ror t => t.size
  | .bit m | .inc m | .dec m | .sta m | .stx m | .sty m
  | .slo m | .rla m | .sre m | .rra m | .sax m | .lax m | .dcp m | .isb m => m.size
  | .bpl _ | .bmi _ | .bvc _ | .bvs _ | .bcc _ | .bcs _ | .bne _ | .beq _ | .sbcU _ => 1
  | .jmp _ | .jsr _ => 2
  | .nopU _ o => o.size
  | .inx | .iny | .dex | .dey | .rts | .rti | .brk | .nop | .pha | .pla | .php | .plp
  | .clc | .sec | .cli | .sei | .clv | .cld | .sed | .tax | .tay | .txa | .tya | .tsx | .txs | .hlt _ => 0

/-- The instruction's length in bytes (30_encoding.md R112). -/
def Instr.length (i : Instr) : Nat := 1 + i.operandSize

end Sys2Proof
end

