-- ==== Sys2Proof/WellFormed.lean ====
section
/-! DEFINITION. Which instructions have an encoding: the mnemonic admits the addressing mode (30_encoding.md R115),
and the opcode byte of an undocumented NOP or a halting opcode is one of the listed bytes (R115, R116). -/

namespace Sys2Proof

/-- The seven memory modes ADC, AND, CMP, EOR, LDA, ORA, SBC, STA and the combined read-modify-write
operations share: all but `ZPY` (30_encoding.md R115). -/
def MemMode.isGeneral : MemMode → Bool
  | .zp _ | .zpx _ | .abs _ | .abx _ | .aby _ | .izx _ | .izy _ => true
  | .zpy _ => false

/-- `ZP`, `ABS`: BIT, CPX, CPY (30_encoding.md R115). -/
def MemMode.isPlain : MemMode → Bool
  | .zp _ | .abs _ => true
  | .zpx _ | .zpy _ | .abx _ | .aby _ | .izx _ | .izy _ => false

/-- `ZP`, `ZPX`, `ABS`, `ABX`: the shifts, INC, DEC, LDY (30_encoding.md R115). -/
def MemMode.isXIndexed : MemMode → Bool
  | .zp _ | .zpx _ | .abs _ | .abx _ => true
  | .zpy _ | .aby _ | .izx _ | .izy _ => false

/-- `ZP`, `ZPY`, `ABS`, `ABY`: LDX (30_encoding.md R115). -/
def MemMode.isYIndexed : MemMode → Bool
  | .zp _ | .zpy _ | .abs _ | .aby _ => true
  | .zpx _ | .abx _ | .izx _ | .izy _ => false

/-- `ZP`, `ZPY`, `ABS`: STX (30_encoding.md R115). -/
def MemMode.isStx : MemMode → Bool
  | .zp _ | .zpy _ | .abs _ => true
  | .zpx _ | .abx _ | .aby _ | .izx _ | .izy _ => false

/-- `ZP`, `ZPX`, `ABS`: STY (30_encoding.md R115). -/
def MemMode.isSty : MemMode → Bool
  | .zp _ | .zpx _ | .abs _ => true
  | .zpy _ | .abx _ | .aby _ | .izx _ | .izy _ => false

/-- `ZP`, `ZPY`, `ABS`, `IZX`: SAX (30_encoding.md R115). -/
def MemMode.isSax : MemMode → Bool
  | .zp _ | .zpy _ | .abs _ | .izx _ => true
  | .zpx _ | .abx _ | .aby _ | .izy _ => false

/-- `ZP`, `ZPY`, `ABS`, `ABY`, `IZX`, `IZY`: LAX (30_encoding.md R115). -/
def MemMode.isLax : MemMode → Bool
  | .zp _ | .zpy _ | .abs _ | .aby _ | .izx _ | .izy _ => true
  | .zpx _ | .abx _ => false

/-- An immediate operand, or a memory mode that `ok` admits. -/
def Source.admits (ok : MemMode → Bool) : Source → Bool
  | .imm _ => true
  | .mem m => ok m

/-- The accumulator, or a memory mode that `ok` admits. -/
def ShiftTarget.admits (ok : MemMode → Bool) : ShiftTarget → Bool
  | .acc => true
  | .mem m => ok m

/-- The 25 halting opcode bytes (30_encoding.md R116). -/
def haltingBytes : List Byte :=
  [0x02, 0x12, 0x22, 0x32, 0x42, 0x52, 0x62, 0x72, 0x92, 0xB2, 0xD2, 0xF2,
   0x0B, 0x2B, 0x4B, 0x6B, 0x8B, 0xAB, 0xCB, 0x93, 0x9F, 0x9C, 0x9E, 0x9B, 0xBB]

/-- The opcode bytes of the undocumented NOP with a given operand form (46_undocumented.md R288). -/
def nopBytes : NopOperand → List Byte
  | .imp => [0x1A, 0x3A, 0x5A, 0x7A, 0xDA, 0xFA]
  | .imm _ => [0x80, 0x82, 0x89, 0xC2, 0xE2]
  | .mem (.zp _) => [0x04, 0x44, 0x64]
  | .mem (.zpx _) => [0x14, 0x34, 0x54, 0x74, 0xD4, 0xF4]
  | .mem (.abs _) => [0x0C]
  | .mem (.abx _) => [0x1C, 0x3C, 0x5C, 0x7C, 0xDC, 0xFC]
  | .mem (.zpy _) | .mem (.aby _) | .mem (.izx _) | .mem (.izy _) => []

/-- The instruction has an encoding (30_encoding.md R115, R116). -/
def Instr.wellFormed : Instr → Bool
  | .adc o | .sbc o | .and o | .ora o | .eor o | .cmp o | .lda o => o.admits MemMode.isGeneral
  | .cpx o | .cpy o => o.admits MemMode.isPlain
  | .ldx o => o.admits MemMode.isYIndexed
  | .ldy o => o.admits MemMode.isXIndexed
  | .bit m => m.isPlain
  | .asl t | .lsr t | .rol t | .ror t => t.admits MemMode.isXIndexed
  | .inc m | .dec m => m.isXIndexed
  | .sta m | .slo m | .rla m | .sre m | .rra m | .dcp m | .isb m => m.isGeneral
  | .stx m => m.isStx
  | .sty m => m.isSty
  | .sax m => m.isSax
  | .lax m => m.isLax
  | .nopU op o => (nopBytes o).contains op
  | .hlt op => haltingBytes.contains op
  | .bpl _ | .bmi _ | .bvc _ | .bvs _ | .bcc _ | .bcs _ | .bne _ | .beq _ | .sbcU _ | .jmp _ | .jsr _
  | .inx | .iny | .dex | .dey | .rts | .rti | .brk | .nop | .pha | .pla | .php | .plp
  | .clc | .sec | .cli | .sei | .clv | .cld | .sed | .tax | .tay | .txa | .tya | .tsx | .txs => true

end Sys2Proof
end

