-- ==== Sys2Proof/Decode.lean ====
section
/-! DEFINITION. The decoder, total on any bytes, and the encoder (30_encoding.md R110 to R117). -/

namespace Sys2Proof

/-- The low byte `v[7:0]` of a 16-bit value (00_scope.md R6). -/
def loByte (v : Word) : Byte := v.extractLsb' 0 8

/-- The high byte `v[15:8]` of a 16-bit value (00_scope.md R6). -/
def hiByte (v : Word) : Byte := v.extractLsb' 8 8

/-- `hi:lo`, the 16-bit value of two bytes (00_scope.md R6; little-endian in memory, 20_memory.md R80). -/
def hiLo (hi lo : Byte) : Word := hi ++ lo

/-- `zext_16(b)` (00_scope.md R6). -/
def zext16 (b : Byte) : Word := b.zeroExtend 16

/-- `sext_16(b)` (00_scope.md R6). -/
def sext16 (b : Byte) : Word := b.signExtend 16

/-- The opcode table: the instruction of an opcode byte and the operand bytes that follow it (30_encoding.md R114).
An opcode byte absent from the table halts the machine (R116). -/
def tableEntry (op lo hi : Byte) : Instr :=
  match op.toNat with
  | 0x00 => .brk
  | 0x01 => .ora (.mem (.izx lo))
  | 0x03 => .slo (.izx lo)
  | 0x04 => .nopU op (.mem (.zp lo))
  | 0x05 => .ora (.mem (.zp lo))
  | 0x06 => .asl (.mem (.zp lo))
  | 0x07 => .slo (.zp lo)
  | 0x08 => .php
  | 0x09 => .ora (.imm lo)
  | 0x0A => .asl .acc
  | 0x0C => .nopU op (.mem (.abs (hiLo hi lo)))
  | 0x0D => .ora (.mem (.abs (hiLo hi lo)))
  | 0x0E => .asl (.mem (.abs (hiLo hi lo)))
  | 0x0F => .slo (.abs (hiLo hi lo))
  | 0x10 => .bpl lo
  | 0x11 => .ora (.mem (.izy lo))
  | 0x13 => .slo (.izy lo)
  | 0x14 => .nopU op (.mem (.zpx lo))
  | 0x15 => .ora (.mem (.zpx lo))
  | 0x16 => .asl (.mem (.zpx lo))
  | 0x17 => .slo (.zpx lo)
  | 0x18 => .clc
  | 0x19 => .ora (.mem (.aby (hiLo hi lo)))
  | 0x1A => .nopU op .imp
  | 0x1B => .slo (.aby (hiLo hi lo))
  | 0x1C => .nopU op (.mem (.abx (hiLo hi lo)))
  | 0x1D => .ora (.mem (.abx (hiLo hi lo)))
  | 0x1E => .asl (.mem (.abx (hiLo hi lo)))
  | 0x1F => .slo (.abx (hiLo hi lo))
  | 0x20 => .jsr (hiLo hi lo)
  | 0x21 => .and (.mem (.izx lo))
  | 0x23 => .rla (.izx lo)
  | 0x24 => .bit (.zp lo)
  | 0x25 => .and (.mem (.zp lo))
  | 0x26 => .rol (.mem (.zp lo))
  | 0x27 => .rla (.zp lo)
  | 0x28 => .plp
  | 0x29 => .and (.imm lo)
  | 0x2A => .rol .acc
  | 0x2C => .bit (.abs (hiLo hi lo))
  | 0x2D => .and (.mem (.abs (hiLo hi lo)))
  | 0x2E => .rol (.mem (.abs (hiLo hi lo)))
  | 0x2F => .rla (.abs (hiLo hi lo))
  | 0x30 => .bmi lo
  | 0x31 => .and (.mem (.izy lo))
  | 0x33 => .rla (.izy lo)
  | 0x34 => .nopU op (.mem (.zpx lo))
  | 0x35 => .and (.mem (.zpx lo))
  | 0x36 => .rol (.mem (.zpx lo))
  | 0x37 => .rla (.zpx lo)
  | 0x38 => .sec
  | 0x39 => .and (.mem (.aby (hiLo hi lo)))
  | 0x3A => .nopU op .imp
  | 0x3B => .rla (.aby (hiLo hi lo))
  | 0x3C => .nopU op (.mem (.abx (hiLo hi lo)))
  | 0x3D => .and (.mem (.abx (hiLo hi lo)))
  | 0x3E => .rol (.mem (.abx (hiLo hi lo)))
  | 0x3F => .rla (.abx (hiLo hi lo))
  | 0x40 => .rti
  | 0x41 => .eor (.mem (.izx lo))
  | 0x43 => .sre (.izx lo)
  | 0x44 => .nopU op (.mem (.zp lo))
  | 0x45 => .eor (.mem (.zp lo))
  | 0x46 => .lsr (.mem (.zp lo))
  | 0x47 => .sre (.zp lo)
  | 0x48 => .pha
  | 0x49 => .eor (.imm lo)
  | 0x4A => .lsr .acc
  | 0x4C => .jmp (.abs (hiLo hi lo))
  | 0x4D => .eor (.mem (.abs (hiLo hi lo)))
  | 0x4E => .lsr (.mem (.abs (hiLo hi lo)))
  | 0x4F => .sre (.abs (hiLo hi lo))
  | 0x50 => .bvc lo
  | 0x51 => .eor (.mem (.izy lo))
  | 0x53 => .sre (.izy lo)
  | 0x54 => .nopU op (.mem (.zpx lo))
  | 0x55 => .eor (.mem (.zpx lo))
  | 0x56 => .lsr (.mem (.zpx lo))
  | 0x57 => .sre (.zpx lo)
  | 0x58 => .cli
  | 0x59 => .eor (.mem (.aby (hiLo hi lo)))
  | 0x5A => .nopU op .imp
  | 0x5B => .sre (.aby (hiLo hi lo))
  | 0x5C => .nopU op (.mem (.abx (hiLo hi lo)))
  | 0x5D => .eor (.mem (.abx (hiLo hi lo)))
  | 0x5E => .lsr (.mem (.abx (hiLo hi lo)))
  | 0x5F => .sre (.abx (hiLo hi lo))
  | 0x60 => .rts
  | 0x61 => .adc (.mem (.izx lo))
  | 0x63 => .rra (.izx lo)
  | 0x64 => .nopU op (.mem (.zp lo))
  | 0x65 => .adc (.mem (.zp lo))
  | 0x66 => .ror (.mem (.zp lo))
  | 0x67 => .rra (.zp lo)
  | 0x68 => .pla
  | 0x69 => .adc (.imm lo)
  | 0x6A => .ror .acc
  | 0x6C => .jmp (.ind (hiLo hi lo))
  | 0x6D => .adc (.mem (.abs (hiLo hi lo)))
  | 0x6E => .ror (.mem (.abs (hiLo hi lo)))
  | 0x6F => .rra (.abs (hiLo hi lo))
  | 0x70 => .bvs lo
  | 0x71 => .adc (.mem (.izy lo))
  | 0x73 => .rra (.izy lo)
  | 0x74 => .nopU op (.mem (.zpx lo))
  | 0x75 => .adc (.mem (.zpx lo))
  | 0x76 => .ror (.mem (.zpx lo))
  | 0x77 => .rra (.zpx lo)
  | 0x78 => .sei
  | 0x79 => .adc (.mem (.aby (hiLo hi lo)))
  | 0x7A => .nopU op .imp
  | 0x7B => .rra (.aby (hiLo hi lo))
  | 0x7C => .nopU op (.mem (.abx (hiLo hi lo)))
  | 0x7D => .adc (.mem (.abx (hiLo hi lo)))
  | 0x7E => .ror (.mem (.abx (hiLo hi lo)))
  | 0x7F => .rra (.abx (hiLo hi lo))
  | 0x80 => .nopU op (.imm lo)
  | 0x81 => .sta (.izx lo)
  | 0x82 => .nopU op (.imm lo)
  | 0x83 => .sax (.izx lo)
  | 0x84 => .sty (.zp lo)
  | 0x85 => .sta (.zp lo)
  | 0x86 => .stx (.zp lo)
  | 0x87 => .sax (.zp lo)
  | 0x88 => .dey
  | 0x89 => .nopU op (.imm lo)
  | 0x8A => .txa
  | 0x8C => .sty (.abs (hiLo hi lo))
  | 0x8D => .sta (.abs (hiLo hi lo))
  | 0x8E => .stx (.abs (hiLo hi lo))
  | 0x8F => .sax (.abs (hiLo hi lo))
  | 0x90 => .bcc lo
  | 0x91 => .sta (.izy lo)
  | 0x94 => .sty (.zpx lo)
  | 0x95 => .sta (.zpx lo)
  | 0x96 => .stx (.zpy lo)
  | 0x97 => .sax (.zpy lo)
  | 0x98 => .tya
  | 0x99 => .sta (.aby (hiLo hi lo))
  | 0x9A => .txs
  | 0x9D => .sta (.abx (hiLo hi lo))
  | 0xA0 => .ldy (.imm lo)
  | 0xA1 => .lda (.mem (.izx lo))
  | 0xA2 => .ldx (.imm lo)
  | 0xA3 => .lax (.izx lo)
  | 0xA4 => .ldy (.mem (.zp lo))
  | 0xA5 => .lda (.mem (.zp lo))
  | 0xA6 => .ldx (.mem (.zp lo))
  | 0xA7 => .lax (.zp lo)
  | 0xA8 => .tay
  | 0xA9 => .lda (.imm lo)
  | 0xAA => .tax
  | 0xAC => .ldy (.mem (.abs (hiLo hi lo)))
  | 0xAD => .lda (.mem (.abs (hiLo hi lo)))
  | 0xAE => .ldx (.mem (.abs (hiLo hi lo)))
  | 0xAF => .lax (.abs (hiLo hi lo))
  | 0xB0 => .bcs lo
  | 0xB1 => .lda (.mem (.izy lo))
  | 0xB3 => .lax (.izy lo)
  | 0xB4 => .ldy (.mem (.zpx lo))
  | 0xB5 => .lda (.mem (.zpx lo))
  | 0xB6 => .ldx (.mem (.zpy lo))
  | 0xB7 => .lax (.zpy lo)
  | 0xB8 => .clv
  | 0xB9 => .lda (.mem (.aby (hiLo hi lo)))
  | 0xBA => .tsx
  | 0xBC => .ldy (.mem (.abx (hiLo hi lo)))
  | 0xBD => .lda (.mem (.abx (hiLo hi lo)))
  | 0xBE => .ldx (.mem (.aby (hiLo hi lo)))
  | 0xBF => .lax (.aby (hiLo hi lo))
  | 0xC0 => .cpy (.imm lo)
  | 0xC1 => .cmp (.mem (.izx lo))
  | 0xC2 => .nopU op (.imm lo)
  | 0xC3 => .dcp (.izx lo)
  | 0xC4 => .cpy (.mem (.zp lo))
  | 0xC5 => .cmp (.mem (.zp lo))
  | 0xC6 => .dec (.zp lo)
  | 0xC7 => .dcp (.zp lo)
  | 0xC8 => .iny
  | 0xC9 => .cmp (.imm lo)
  | 0xCA => .dex
  | 0xCC => .cpy (.mem (.abs (hiLo hi lo)))
  | 0xCD => .cmp (.mem (.abs (hiLo hi lo)))
  | 0xCE => .dec (.abs (hiLo hi lo))
  | 0xCF => .dcp (.abs (hiLo hi lo))
  | 0xD0 => .bne lo
  | 0xD1 => .cmp (.mem (.izy lo))
  | 0xD3 => .dcp (.izy lo)
  | 0xD4 => .nopU op (.mem (.zpx lo))
  | 0xD5 => .cmp (.mem (.zpx lo))
  | 0xD6 => .dec (.zpx lo)
  | 0xD7 => .dcp (.zpx lo)
  | 0xD8 => .cld
  | 0xD9 => .cmp (.mem (.aby (hiLo hi lo)))
  | 0xDA => .nopU op .imp
  | 0xDB => .dcp (.aby (hiLo hi lo))
  | 0xDC => .nopU op (.mem (.abx (hiLo hi lo)))
  | 0xDD => .cmp (.mem (.abx (hiLo hi lo)))
  | 0xDE => .dec (.abx (hiLo hi lo))
  | 0xDF => .dcp (.abx (hiLo hi lo))
  | 0xE0 => .cpx (.imm lo)
  | 0xE1 => .sbc (.mem (.izx lo))
  | 0xE2 => .nopU op (.imm lo)
  | 0xE3 => .isb (.izx lo)
  | 0xE4 => .cpx (.mem (.zp lo))
  | 0xE5 => .sbc (.mem (.zp lo))
  | 0xE6 => .inc (.zp lo)
  | 0xE7 => .isb (.zp lo)
  | 0xE8 => .inx
  | 0xE9 => .sbc (.imm lo)
  | 0xEA => .nop
  | 0xEB => .sbcU lo
  | 0xEC => .cpx (.mem (.abs (hiLo hi lo)))
  | 0xED => .sbc (.mem (.abs (hiLo hi lo)))
  | 0xEE => .inc (.abs (hiLo hi lo))
  | 0xEF => .isb (.abs (hiLo hi lo))
  | 0xF0 => .beq lo
  | 0xF1 => .sbc (.mem (.izy lo))
  | 0xF3 => .isb (.izy lo)
  | 0xF4 => .nopU op (.mem (.zpx lo))
  | 0xF5 => .sbc (.mem (.zpx lo))
  | 0xF6 => .inc (.zpx lo)
  | 0xF7 => .isb (.zpx lo)
  | 0xF8 => .sed
  | 0xF9 => .sbc (.mem (.aby (hiLo hi lo)))
  | 0xFA => .nopU op .imp
  | 0xFB => .isb (.aby (hiLo hi lo))
  | 0xFC => .nopU op (.mem (.abx (hiLo hi lo)))
  | 0xFD => .sbc (.mem (.abx (hiLo hi lo)))
  | 0xFE => .inc (.abx (hiLo hi lo))
  | 0xFF => .isb (.abx (hiLo hi lo))
  | _ => .hlt op

/-- How many operand bytes the opcode byte's tag gives it (30_encoding.md R111, R112). -/
def operandCount (op : Byte) : Nat := (tableEntry op 0 0).operandSize

/-- Why bytes are no instruction: every opcode byte has an entry (30_encoding.md R117), so only missing bytes. -/
inductive DecodeReject where
  /-- There is no opcode byte. -/
  | noOpcode
  /-- The operand bytes of this opcode end too early. -/
  | missingOperand (op : Byte)
  deriving DecidableEq, Repr

/-- Decode the first instruction of a byte list, and give the bytes after it (30_encoding.md R110 to R112). -/
def decode : List Byte → Except DecodeReject (Instr × List Byte)
  | [] => .error .noOpcode
  | op :: rest =>
    match operandCount op, rest with
    | 0, rest => .ok (tableEntry op 0 0, rest)
    | 1, lo :: rest => .ok (tableEntry op lo 0, rest)
    | 2, lo :: hi :: rest => .ok (tableEntry op lo hi, rest)
    | _, _ => .error (.missingOperand op)

/-- The opcode bytes of a mnemonic's memory modes, one row of 30_encoding.md R115. -/
structure MemCodes where
  zp : Option Byte := none
  zpx : Option Byte := none
  zpy : Option Byte := none
  abs : Option Byte := none
  abx : Option Byte := none
  aby : Option Byte := none
  izx : Option Byte := none
  izy : Option Byte := none

/-- The opcode byte of a memory mode in such a row. -/
def MemCodes.code (c : MemCodes) : MemMode → Option Byte
  | .zp _ => c.zp
  | .zpx _ => c.zpx
  | .zpy _ => c.zpy
  | .abs _ => c.abs
  | .abx _ => c.abx
  | .aby _ => c.aby
  | .izx _ => c.izx
  | .izy _ => c.izy

/-- The operand bytes of a memory mode, low byte first (30_encoding.md R111). -/
def MemMode.bytes : MemMode → List Byte
  | .zp n | .zpx n | .zpy n | .izx n | .izy n => [n]
  | .abs a | .abx a | .aby a => [loByte a, hiByte a]

/-- The bytes of an instruction with a memory mode. -/
def memBytes (c : MemCodes) (m : MemMode) : Option (List Byte) :=
  (c.code m).map (· :: m.bytes)

/-- The bytes of an instruction with a read operand; `imm` is the opcode byte of its immediate form. -/
def sourceBytes (imm : Byte) (c : MemCodes) : Source → Option (List Byte)
  | .imm v => some [imm, v]
  | .mem m => memBytes c m

/-- The bytes of a shift or rotate; `acc` is the opcode byte of its accumulator form. -/
def shiftBytes (acc : Byte) (c : MemCodes) : ShiftTarget → Option (List Byte)
  | .acc => some [acc]
  | .mem m => memBytes c m

/-- The operand bytes of an undocumented NOP. -/
def nopOperandBytes : NopOperand → List Byte
  | .imp => []
  | .imm v => [v]
  | .mem m => m.bytes

/-- The bytes of an instruction, `none` where the mnemonic has no encoding of that form (30_encoding.md R115, R116). -/
def encode : Instr → Option (List Byte)
  | .adc o => sourceBytes 0x69 { zp := some 0x65, zpx := some 0x75, abs := some 0x6D, abx := some 0x7D, aby := some 0x79, izx := some 0x61, izy := some 0x71 } o
  | .sbc o => sourceBytes 0xE9 { zp := some 0xE5, zpx := some 0xF5, abs := some 0xED, abx := some 0xFD, aby := some 0xF9, izx := some 0xE1, izy := some 0xF1 } o
  | .and o => sourceBytes 0x29 { zp := some 0x25, zpx := some 0x35, abs := some 0x2D, abx := some 0x3D, aby := some 0x39, izx := some 0x21, izy := some 0x31 } o
  | .ora o => sourceBytes 0x09 { zp := some 0x05, zpx := some 0x15, abs := some 0x0D, abx := some 0x1D, aby := some 0x19, izx := some 0x01, izy := some 0x11 } o
  | .eor o => sourceBytes 0x49 { zp := some 0x45, zpx := some 0x55, abs := some 0x4D, abx := some 0x5D, aby := some 0x59, izx := some 0x41, izy := some 0x51 } o
  | .bit m => memBytes { zp := some 0x24, abs := some 0x2C } m
  | .cmp o => sourceBytes 0xC9 { zp := some 0xC5, zpx := some 0xD5, abs := some 0xCD, abx := some 0xDD, aby := some 0xD9, izx := some 0xC1, izy := some 0xD1 } o
  | .cpx o => sourceBytes 0xE0 { zp := some 0xE4, abs := some 0xEC } o
  | .cpy o => sourceBytes 0xC0 { zp := some 0xC4, abs := some 0xCC } o
  | .asl t => shiftBytes 0x0A { zp := some 0x06, zpx := some 0x16, abs := some 0x0E, abx := some 0x1E } t
  | .lsr t => shiftBytes 0x4A { zp := some 0x46, zpx := some 0x56, abs := some 0x4E, abx := some 0x5E } t
  | .rol t => shiftBytes 0x2A { zp := some 0x26, zpx := some 0x36, abs := some 0x2E, abx := some 0x3E } t
  | .ror t => shiftBytes 0x6A { zp := some 0x66, zpx := some 0x76, abs := some 0x6E, abx := some 0x7E } t
  | .inc m => memBytes { zp := some 0xE6, zpx := some 0xF6, abs := some 0xEE, abx := some 0xFE } m
  | .dec m => memBytes { zp := some 0xC6, zpx := some 0xD6, abs := some 0xCE, abx := some 0xDE } m
  | .inx => some [0xE8]
  | .iny => some [0xC8]
  | .dex => some [0xCA]
  | .dey => some [0x88]
  | .bpl o => some [0x10, o]
  | .bmi o => some [0x30, o]
  | .bvc o => some [0x50, o]
  | .bvs o => some [0x70, o]
  | .bcc o => some [0x90, o]
  | .bcs o => some [0xB0, o]
  | .bne o => some [0xD0, o]
  | .beq o => some [0xF0, o]
  | .jmp (.abs a) => some [0x4C, loByte a, hiByte a]
  | .jmp (.ind p) => some [0x6C, loByte p, hiByte p]
  | .jsr a => some [0x20, loByte a, hiByte a]
  | .rts => some [0x60]
  | .rti => some [0x40]
  | .brk => some [0x00]
  | .nop => some [0xEA]
  | .pha => some [0x48]
  | .pla => some [0x68]
  | .php => some [0x08]
  | .plp => some [0x28]
  | .clc => some [0x18]
  | .sec => some [0x38]
  | .cli => some [0x58]
  | .sei => some [0x78]
  | .clv => some [0xB8]
  | .cld => some [0xD8]
  | .sed => some [0xF8]
  | .lda o => sourceBytes 0xA9 { zp := some 0xA5, zpx := some 0xB5, abs := some 0xAD, abx := some 0xBD, aby := some 0xB9, izx := some 0xA1, izy := some 0xB1 } o
  | .ldx o => sourceBytes 0xA2 { zp := some 0xA6, zpy := some 0xB6, abs := some 0xAE, aby := some 0xBE } o
  | .ldy o => sourceBytes 0xA0 { zp := some 0xA4, zpx := some 0xB4, abs := some 0xAC, abx := some 0xBC } o
  | .sta m => memBytes { zp := some 0x85, zpx := some 0x95, abs := some 0x8D, abx := some 0x9D, aby := some 0x99, izx := some 0x81, izy := some 0x91 } m
  | .stx m => memBytes { zp := some 0x86, zpy := some 0x96, abs := some 0x8E } m
  | .sty m => memBytes { zp := some 0x84, zpx := some 0x94, abs := some 0x8C } m
  | .tax => some [0xAA]
  | .tay => some [0xA8]
  | .txa => some [0x8A]
  | .tya => some [0x98]
  | .tsx => some [0xBA]
  | .txs => some [0x9A]
  | .slo m => memBytes { zp := some 0x07, zpx := some 0x17, abs := some 0x0F, abx := some 0x1F, aby := some 0x1B, izx := some 0x03, izy := some 0x13 } m
  | .rla m => memBytes { zp := some 0x27, zpx := some 0x37, abs := some 0x2F, abx := some 0x3F, aby := some 0x3B, izx := some 0x23, izy := some 0x33 } m
  | .sre m => memBytes { zp := some 0x47, zpx := some 0x57, abs := some 0x4F, abx := some 0x5F, aby := some 0x5B, izx := some 0x43, izy := some 0x53 } m
  | .rra m => memBytes { zp := some 0x67, zpx := some 0x77, abs := some 0x6F, abx := some 0x7F, aby := some 0x7B, izx := some 0x63, izy := some 0x73 } m
  | .sax m => memBytes { zp := some 0x87, zpy := some 0x97, abs := some 0x8F, izx := some 0x83 } m
  | .lax m => memBytes { zp := some 0xA7, zpy := some 0xB7, abs := some 0xAF, aby := some 0xBF, izx := some 0xA3, izy := some 0xB3 } m
  | .dcp m => memBytes { zp := some 0xC7, zpx := some 0xD7, abs := some 0xCF, abx := some 0xDF, aby := some 0xDB, izx := some 0xC3, izy := some 0xD3 } m
  | .isb m => memBytes { zp := some 0xE7, zpx := some 0xF7, abs := some 0xEF, abx := some 0xFF, aby := some 0xFB, izx := some 0xE3, izy := some 0xF3 } m
  | .nopU op o => if (nopBytes o).contains op then some (op :: nopOperandBytes o) else none
  | .sbcU v => some [0xEB, v]
  | .hlt op => if haltingBytes.contains op then some [op] else none

/-- The first three bytes of an instruction whose bits are numbered as the opcode table numbers them: bit 0 is the
least significant bit of the first byte. Three bytes is the longest instruction (30_encoding.md R112). -/
def tableBytes (nbits w : Nat) : List Byte :=
  let v := w % 2 ^ nbits
  [BitVec.ofNat 8 v, BitVec.ofNat 8 (v / 256), BitVec.ofNat 8 (v / 65536)]

/-- The instruction the decoder reads from an instruction's bits; every bit at or above `nbits` is 0. -/
def decodeTableWord (nbits w : Nat) : Option Instr :=
  match decode (tableBytes nbits w) with
  | .ok (i, _) => some i
  | .error _ => none

end Sys2Proof
end

