-- ==== Sys2Proof/Machine/State.lean ====
section
/-! DEFINITION. The state of the machine as plain data (10_state.md R20 to R56), why a step can stop, and the state
right after reset. -/

namespace Sys2Proof.Machine

/-- A memory: address and byte pairs, in the canonical form `Memory.wf` (`Machine/Memory.lean`). -/
abbrev Memory := List Host.Cell

/-- The direction of a bus access (60_exceptions.md R386). -/
inductive Direction where
  | read
  | write
  deriving DecidableEq, Repr

/-- A fatal cause with the info it records (60_exceptions.md R381 to R386). -/
inductive Cause where
  /-- The opcode byte and its address (R381). -/
  | unknownOpcode (op : Byte) (pc0 : Word)
  /-- The address and direction (R382). -/
  | expansionAccess (a : Word) (d : Direction)
  /-- The address and the value (R383). -/
  | programBankWrite (a : Word) (v : Byte)
  /-- The direction and the address (R384). -/
  | ppuPortDirection (d : Direction) (a : Word)
  deriving DecidableEq, Repr

/-- `halted` (10_state.md R34). -/
inductive RunState where
  | running
  | halted (c : Cause)
  deriving DecidableEq, Repr

/-- The picture unit's port state, sprite memory, graphics stores, palette and snapshot (10_state.md R38 to R49). -/
structure Ppu where
  /-- R38: bit 7 enables the NMI, bit 2 selects the data-port increment. -/
  ctrl : Byte
  /-- R39. -/
  mask : Byte
  /-- R40: bit 7 is the vertical-blank flag. -/
  status : Byte
  /-- R41. -/
  oamaddr : Byte
  /-- R42: keys 0 to 255. -/
  oam : Memory
  /-- R43: the first write of a pair. -/
  scroll0 : Byte
  /-- R43: the second write of a pair. -/
  scroll1 : Byte
  /-- R44. -/
  vaddr : Word
  /-- R45: `false` is 0, the first write of a pair. -/
  toggle : Bool
  /-- R46. -/
  readbuf : Byte
  /-- R47: byte `i` of store `n` has key `1024 * n + i`. -/
  gfx : Memory
  /-- R48: PAL[0..31]. -/
  pal : Vector (BitVec 6) 32
  /-- R49: SNAP[0..15]. -/
  snap : Vector Color 16
  deriving DecidableEq, Repr

/-- One controller: its read index and its eight button lines (10_state.md R51, R52). -/
structure Pad where
  index : Fin 8
  line : Vector Bool 8
  deriving DecidableEq, Repr

/-- The controller port (10_state.md R50 to R52). -/
structure Ctl where
  strobe : Bool
  pad0 : Pad
  pad1 : Pad
  deriving DecidableEq, Repr

/-- The OPEN parameters of 00_scope.md R5, as a launch-state component: no step changes them
(PRG_BANK lies in `State.mem` at the bus addresses 0x8000 to 0xFFFF). -/
structure Params where
  /-- GFX_BANK[0..15]: which store each window shows (10_state.md R47). -/
  gfxBank : Vector Nat 16
  /-- MASTER_PALETTE[0..63] (10_state.md R54). -/
  masterPalette : Vector Color 64
  resetA : Byte
  resetX : Byte
  resetY : Byte
  resetSp : Byte
  resetP : Byte
  /-- MISC_IO_READ (48_bus_devices.md R345, 93_implementation_defined.md U6). -/
  miscIoRead : Byte
  deriving DecidableEq, Repr

/-- What the frame sequencer can do between two CPU steps (00_scope.md R8, 60_exceptions.md R400 to R405). -/
inductive HostOp where
  /-- The frame event (60_exceptions.md R401). -/
  | frameEvent
  /-- The palette snapshot refresh (R402). -/
  | refreshSnapshot
  /-- `setControllerLine` (R403). -/
  | setLine (c l : Nat) (pressed : Bool)
  /-- `reset()` (R404). -/
  | reset
  deriving DecidableEq, Repr

/-- Who moves next (00_scope.md R8). -/
inductive Turn where
  | cpu
  | host (op : HostOp)
  deriving DecidableEq, Repr

/-- The machine's state. -/
structure State where
  /-- R20. -/
  a : Byte
  /-- R21. -/
  x : Byte
  /-- R22. -/
  y : Byte
  /-- R23. -/
  sp : Byte
  /-- R25 to R32. -/
  p : Byte
  /-- R24. -/
  pc : Word
  /-- R34. -/
  halted : RunState
  /-- R35 to R37: work RAM at keys 0 to 0x7FF, save memory and program banks at their bus addresses. -/
  mem : Memory
  ppu : Ppu
  ctl : Ctl
  params : Params
  /-- The model's own field: the turns to come; when it is empty the CPU moves (log entry 8). -/
  agenda : List Turn
  /-- The model's own field: how many free values have been used (log entry 6). -/
  free : Nat
  deriving DecidableEq, Repr

/-- Why the machine stops. -/
inductive Fault where
  /-- The CPU has no step while halted (60_exceptions.md R380); the cause is the diagnostic. Raised by `cpuStep`
  alone, never by an instruction. Safe: the machine has no such step. -/
  | halted (c : Cause)
  deriving DecidableEq, Repr

/-- The header field an unsupported cartridge is refused for (60_exceptions.md R385). -/
inductive CartridgeField where
  | mapper
  | programBanks
  | graphicsBanks
  deriving DecidableEq, Repr

/-- Why something is refused. -/
inductive Refusal where
  /-- An instruction that has no meaning yet, raised by `exec`'s arm. Safe. -/
  | notModelled (mnemonic : String)
  /-- A frame event, a snapshot refresh or a frame asked for while halted (60_exceptions.md R380,
  93_implementation_defined.md V10). Raised by the frame sequencer's operations. Safe. -/
  | whileHalted (c : Cause)
  /-- `setControllerLine` outside 0..1 and 0..7 (60_exceptions.md R403). Raised by `setControllerLine`. Safe. -/
  | noSuchLine (c l : Nat)
  /-- `UnsupportedCartridge`, with the field and its value (60_exceptions.md R385). Raised by `construct`. Safe. -/
  | unsupportedCartridge (f : CartridgeField) (value : Nat)
  /-- A program window left unbound: the image is shorter than its bank count says
  (70_reset_and_hazards.md R422). Raised by `construct`. Safe. -/
  | unboundWindow
  /-- A frame asked for with table bases the picture decoder refuses (49_picture_decoder.md R361). Raised by
  `renderFrame`. Safe. -/
  | tablesOutOfRange
  deriving DecidableEq, Repr

/-- The recommended values of the open parameters (92_eei_decisions.md, open parameters): the conventional window
layout of D24 with name tables at stores 8 and 9 (header bit 0 clear), registers 0, SP 0xFD, P 0x34.
DESIGN CHOICE, unsafe (log entries 2 and 4); MASTER_PALETTE has no recommended value and is all 0 here. -/
def Params.default : Params where
  gfxBank := #v[0, 1, 2, 3, 4, 5, 6, 7, 8, 8, 9, 9, 8, 8, 9, 9]
  masterPalette := Vector.replicate 64 0
  resetA := 0x00
  resetX := 0x00
  resetY := 0x00
  resetSp := 0xFD
  resetP := 0x34
  miscIoRead := 0x00

/-- The machine right after reset (10_state.md R55, 70_reset_and_hazards.md R420), from memories in which nothing is
listed. PC is the word at 0xFFFC, whose two bytes are unlisted and read 0 (log entries 1 and 3). The palette, the
snapshot and the controller lines are not written by reset: 0 here is a DESIGN CHOICE (log entry 5). -/
def State.reset : State where
  a := 0x00
  x := 0x00
  y := 0x00
  sp := 0xFD
  p := 0x34
  pc := 0x0000
  halted := .running
  mem := []
  ppu :=
    { ctrl := 0, mask := 0, status := 0, oamaddr := 0, oam := [], scroll0 := 0, scroll1 := 0, vaddr := 0
      toggle := false, readbuf := 0, gfx := [], pal := Vector.replicate 32 0, snap := Vector.replicate 16 0 }
  ctl :=
    { strobe := false
      pad0 := { index := 0, line := Vector.replicate 8 false }
      pad1 := { index := 0, line := Vector.replicate 8 false } }
  params := Params.default
  agenda := []
  free := 0

end Sys2Proof.Machine
end

