-- ==== Sys2Proof/Machine/Registers.lean ====
section
/-! DEFINITION. The updates of one field of State, and the two ways an operation ends: with a value, or cut by a
fatal condition. -/

namespace Sys2Proof.Machine

/-- Write A. -/
def State.setA (s : State) (v : Byte) : State := { s with a := v }

/-- Write X. -/
def State.setX (s : State) (v : Byte) : State := { s with x := v }

/-- Write Y. -/
def State.setY (s : State) (v : Byte) : State := { s with y := v }

/-- Write SP. -/
def State.setSp (s : State) (v : Byte) : State := { s with sp := v }

/-- Write P. -/
def State.setP (s : State) (v : Byte) : State := { s with p := v }

/-- Write PC. -/
def State.setPc (s : State) (v : Word) : State := { s with pc := v }

/-- Write `halted`. -/
def State.setHalted (s : State) (v : RunState) : State := { s with halted := v }

/-- Replace the memory on the CPU bus. -/
def State.setMem (s : State) (v : Memory) : State := { s with mem := v }

/-- Replace the picture unit's state. -/
def State.setPpu (s : State) (v : Ppu) : State := { s with ppu := v }

/-- Replace the controller port's state. -/
def State.setCtl (s : State) (v : Ctl) : State := { s with ctl := v }

/-- Replace the turns to come. -/
def State.setAgenda (s : State) (v : List Turn) : State := { s with agenda := v }

/-- How an operation over the state ends: with a value and the state after it, or cut at a fatal access, with the
cause and the state the earlier accesses left (60_exceptions.md R380, R387). -/
inductive Res (α : Type) where
  | ok (v : α) (s : State)
  | fatal (c : Cause) (s : State)
  deriving DecidableEq, Repr

/-- Go on with the value and the state; a fatal condition ends the step at that point (60_exceptions.md R380). -/
def Res.bind {α β : Type} (r : Res α) (f : α → State → Res β) : Res β :=
  match r with
  | .ok v s => f v s
  | .fatal c s => .fatal c s

/-- Go on with an update that makes no bus access. -/
def Res.update {α : Type} (r : Res α) (f : α → State → State) : Res Unit :=
  r.bind fun v s => .ok () (f v s)

/-- The three outcomes of a step over this machine's state. -/
abbrev Out := Host.Outcome State Fault Refusal

/-- The halted state after a fatal bus access (60_exceptions.md R380, R387): memory and devices stay as the earlier
accesses left them; A, X, Y, SP, P and PC are unspecified, so each is a free value, and bit 5 of P, which is 1
in every value the instruction could have left (10_state.md R26), stays 1 (log entry 6). -/
def State.busHalt (s : State) (c : Cause) : State :=
  { s with
    a := Config.freeByte s.free
    x := Config.freeByte (s.free + 1)
    y := Config.freeByte (s.free + 2)
    sp := Config.freeByte (s.free + 3)
    p := Config.freeByte (s.free + 4) ||| 0x20
    pc := Config.freeWord s.free
    halted := .halted c
    free := s.free + 5 }

/-- The outcome of an instruction or a host operation: the next state, halted if a bus access was fatal. -/
def Res.finish (r : Res Unit) : Out :=
  match r with
  | .ok _ s => .next s
  | .fatal c s => .next (s.busHalt c)

end Sys2Proof.Machine
end

