-- ==== Sys2Proof/Machine/Flags.lean ====
section
/-! DEFINITION. The status register's bits and every flag computation (10_state.md R25 to R32,
40_dispatch_addressing.md R159, 41_arithmetic_logic_compare.md R179). -/

namespace Sys2Proof.Machine

/-- Bit numbers of the flags in P (10_state.md R25). -/
def bitC : Nat := 0
def bitZ : Nat := 1
def bitI : Nat := 2
def bitD : Nat := 3
def bitB : Nat := 4
def bitR : Nat := 5
def bitV : Nat := 6
def bitN : Nat := 7

/-- Write one bit of the status register; the other bits stay (10_state.md R26). -/
def setFlag (i : Nat) (b : Bool) (p : Byte) : Byte :=
  if b then p ||| (1#8 <<< i) else p &&& ~~~(1#8 <<< i)

/-- `P.C` (10_state.md R27). -/
def State.carry (s : State) : Bool := s.p.getLsbD bitC

/-- `SetNZ(v)` on a status byte (40_dispatch_addressing.md R159). -/
def setNZ (v : Byte) (p : Byte) : Byte :=
  setFlag bitN (v.getLsbD 7) (setFlag bitZ (v == 0) p)

/-- The status byte PHP and BRK push: Break and Reserved forced (44_stack_flags.md R242). -/
def pushedByInstruction (p : Byte) : Byte := p ||| 0x30

/-- The status byte the NMI hook pushes: Reserved forced, Break as it stands (60_exceptions.md R390). -/
def pushedByHook (p : Byte) : Byte := p ||| 0x20

/-- The live P after PLP or RTI pulled a byte: Reserved set, Break cleared (44_stack_flags.md R243). -/
def pulledStatus (v : Byte) : Byte := (v ||| 0x20) &&& 0xEF

/-- The 9-bit adder's outputs (41_arithmetic_logic_compare.md R179). -/
structure AdderOut where
  sum : Byte
  carry : Bool
  overflow : Bool
  deriving DecidableEq, Repr

/-- The adder: two bytes and a carry in; bit 8 is the carry out; overflow when the operands' signs match and the
sum's differs (41_arithmetic_logic_compare.md R170). -/
def adder (u v : Byte) (c : Bool) : AdderOut :=
  let s := u.toNat + v.toNat + c.toNat
  let r := BitVec.ofNat 8 s
  { sum := r
    carry := decide (256 ≤ s)
    overflow := u.getLsbD 7 == v.getLsbD 7 && r.getLsbD 7 != u.getLsbD 7 }

/-- A shifter's outputs: the byte and the bit shifted out. -/
structure ShiftOut where
  value : Byte
  carry : Bool
  deriving DecidableEq, Repr

/-- ASL (42_shift_rotate_incdec.md R190). -/
def shiftLeft (v : Byte) : ShiftOut := { value := v <<< 1, carry := v.getLsbD 7 }

/-- LSR (42_shift_rotate_incdec.md R191). -/
def shiftRight (v : Byte) : ShiftOut := { value := v >>> 1, carry := v.getLsbD 0 }

/-- ROL: the carry before the instruction goes into bit 0 (42_shift_rotate_incdec.md R192). -/
def rotateLeft (v : Byte) (c : Bool) : ShiftOut :=
  { value := (v <<< 1) ||| (if c then 0x01 else 0x00), carry := v.getLsbD 7 }

/-- ROR: the carry before the instruction goes into bit 7 (42_shift_rotate_incdec.md R193). -/
def rotateRight (v : Byte) (c : Bool) : ShiftOut :=
  { value := (v >>> 1) ||| (if c then 0x80 else 0x00), carry := v.getLsbD 0 }

/-- The status after ADC or SBC: C, V, Z, N from the adder (41_arithmetic_logic_compare.md R170). -/
def adderFlags (r : AdderOut) (p : Byte) : Byte :=
  setNZ r.sum (setFlag bitV r.overflow (setFlag bitC r.carry p))

/-- The status after a shift or rotate: C, Z, N (42_shift_rotate_incdec.md R190). -/
def shiftFlags (r : ShiftOut) (p : Byte) : Byte :=
  setNZ r.value (setFlag bitC r.carry p)

/-- The status after a compare of a register with a byte: C when there is no borrow, Z and N from the difference
(41_arithmetic_logic_compare.md R176). -/
def compareFlags (reg m : Byte) (p : Byte) : Byte :=
  setNZ (reg - m) (setFlag bitC (decide (m.toNat ≤ reg.toNat)) p)

/-- The status after BIT: Z from the AND, N and V from the operand (41_arithmetic_logic_compare.md R175). -/
def bitTestFlags (a m : Byte) (p : Byte) : Byte :=
  setFlag bitV (m.getLsbD 6) (setFlag bitN (m.getLsbD 7) (setFlag bitZ (a &&& m == 0) p))

/-- `A <- v; SetNZ(v)`. -/
def State.loadA (s : State) (v : Byte) : State := (s.setA v).setP (setNZ v s.p)

/-- `X <- v; SetNZ(v)`. -/
def State.loadX (s : State) (v : Byte) : State := (s.setX v).setP (setNZ v s.p)

/-- `Y <- v; SetNZ(v)`. -/
def State.loadY (s : State) (v : Byte) : State := (s.setY v).setP (setNZ v s.p)

/-- Write one flag of P. -/
def State.withFlag (s : State) (i : Nat) (b : Bool) : State := s.setP (setFlag i b s.p)

/-- ADC of a byte into A (41_arithmetic_logic_compare.md R170). -/
def State.addWithCarry (s : State) (m : Byte) : State :=
  let r := adder s.a m s.carry
  (s.setA r.sum).setP (adderFlags r s.p)

/-- SBC of a byte from A: the same adder with the operand complemented (41_arithmetic_logic_compare.md R171). -/
def State.subWithCarry (s : State) (m : Byte) : State := s.addWithCarry (m ^^^ 0xFF)

/-- Compare a register's value with a byte (41_arithmetic_logic_compare.md R176). -/
def State.compareWith (s : State) (reg m : Byte) : State := s.setP (compareFlags reg m s.p)

end Sys2Proof.Machine
end

