-- ==== Sys2Proof/Machine/Memory.lean ====
section
/-! DEFINITION. The operations over a memory: a list of address and byte pairs in one canonical form. -/

namespace Sys2Proof.Machine

/-- The canonical form: addresses strictly rising, and no entry equal to what an unlisted address reads as. -/
abbrev Memory.wf (m : Memory) : Prop :=
  m.Pairwise (fun c d => c.1 < d.1) ∧ ∀ c ∈ m, c.2 ≠ Config.unlistedByte

/-- The byte at an address. -/
def Memory.read : Memory → Nat → Byte
  | [], _ => Config.unlistedByte
  | (i, v) :: rest, k => if i = k then v else Memory.read rest k

/-- Put an entry at its place in the order. -/
def Memory.insert : Memory → Nat → Byte → Memory
  | [], k, v => [(k, v)]
  | (i, w) :: rest, k, v => if k < i then (k, v) :: (i, w) :: rest else (i, w) :: Memory.insert rest k v

/-- The memory without an entry at `k`. -/
def Memory.erase (m : Memory) (k : Nat) : Memory := m.filter fun c => c.1 ≠ k

/-- Store a byte; storing what an unlisted address reads as leaves the address unlisted. -/
def Memory.write (m : Memory) (k : Nat) (v : Byte) : Memory :=
  if v = Config.unlistedByte then m.erase k else (m.erase k).insert k v

/-- The entries of consecutive bytes from an address on. -/
def Memory.ofBytes : Nat → List Byte → Memory
  | _, [] => []
  | k, v :: rest => if v = Config.unlistedByte then Memory.ofBytes (k + 1) rest else (k, v) :: Memory.ofBytes (k + 1) rest

end Sys2Proof.Machine
end

