-- ==== Sys2Proof/Machine/Graphics.lean ====
section
/-! DEFINITION. Graphics memory and the palette (10_state.md R47 to R49, 20_memory.md R87). -/

namespace Sys2Proof.Machine

/-- `PalSlot(i)`: slots 4, 8 and 0xC are slot 0 (10_state.md R48). -/
def palSlot (i : Fin 32) : Fin 32 := if i = 4 ∨ i = 8 ∨ i = 12 then 0 else i

/-- The palette slot a graphics address of the palette range names, `PalSlot(g & 0x1F)` (20_memory.md R87). -/
def paletteIndex (g : GfxAddr) : Fin 32 := palSlot (Fin.ofNat 32 g.toNat)

/-- Where the byte of a graphics address below the palette lies: store `GFX_BANK[g >> 10]`, offset `g & 0x3FF`
(10_state.md R47). -/
def gfxKey (bank : Vector Nat 16) (g : GfxAddr) : Nat :=
  1024 * bank.get (Fin.ofNat 16 (g.toNat / 1024)) + g.toNat % 1024

/-- `GfxRead(g)` (20_memory.md R87). -/
def gfxRead (s : State) (g : GfxAddr) : Byte :=
  if Config.paletteBase.toNat ≤ g.toNat then (s.ppu.pal.get (paletteIndex g)).zeroExtend 8
  else s.ppu.gfx.read (gfxKey s.params.gfxBank g)

/-- `GfxWrite(g, v)`: the picture unit's state after it; a palette entry keeps the low six bits (20_memory.md R87). -/
def gfxWrite (s : State) (g : GfxAddr) (v : Byte) : Ppu :=
  if Config.paletteBase.toNat ≤ g.toNat then
    { s.ppu with pal := s.ppu.pal.set (paletteIndex g) (v.truncate 6) }
  else { s.ppu with gfx := s.ppu.gfx.write (gfxKey s.params.gfxBank g) v }

/-- The snapshot of the palette's background half (10_state.md R49). -/
def snapshotOf (s : State) : Vector Color 16 :=
  Vector.ofFn fun i : Fin 16 =>
    s.params.masterPalette.get
      (Fin.ofNat 64 (s.ppu.pal.get (palSlot (Fin.castLE (by decide) i))).toNat)

end Sys2Proof.Machine
end

