-- ==== Sys2Proof/Machine/Devices.lean ====
section
/-! DEFINITION. The devices on the CPU bus: the picture-unit register port and the controller port
(48_bus_devices.md R310 to R346). -/

namespace Sys2Proof.Machine

/-- The data-port increment `Inc` (48_bus_devices.md R320). -/
def Ppu.increment (u : Ppu) : Word := if u.ctrl.getLsbD 2 then 32 else 1

/-- The graphics address the data port names, `PPU.vaddr & 0x3FFF` (10_state.md R44). -/
def Ppu.dataAddr (u : Ppu) : GfxAddr := u.vaddr.truncate 14

/-- A read of picture-unit register 2 (48_bus_devices.md R314): the state after it. -/
def Ppu.afterStatusRead (u : Ppu) : Ppu := { u with status := u.status &&& 0x7F, toggle := false }

/-- A read of picture-unit register 4 (48_bus_devices.md R317): the state after it. -/
def Ppu.afterOamRead (u : Ppu) : Ppu := { u with oamaddr := u.oamaddr + 1 }

/-- A read of picture-unit register 7 (48_bus_devices.md R322): the state after it. -/
def afterDataRead (s : State) : Ppu :=
  { s.ppu with readbuf := gfxRead s s.ppu.dataAddr, vaddr := s.ppu.vaddr + s.ppu.increment }

/-- A read of the picture-unit port; a write-only register is a direction fault (48_bus_devices.md R311, R325). -/
def ppuRead (a : Word) (s : State) : Res Byte :=
  match (a &&& 7).toNat with
  | 2 => .ok s.ppu.status (s.setPpu s.ppu.afterStatusRead)
  | 4 => .ok (s.ppu.oam.read s.ppu.oamaddr.toNat) (s.setPpu s.ppu.afterOamRead)
  | 7 => .ok s.ppu.readbuf (s.setPpu (afterDataRead s))
  | _ => .fatal (.ppuPortDirection .read a) s

/-- A write of picture-unit register 4 (48_bus_devices.md R316). -/
def Ppu.writeOam (u : Ppu) (v : Byte) : Ppu :=
  { u with oam := u.oam.write u.oamaddr.toNat v, oamaddr := u.oamaddr + 1 }

/-- A write of picture-unit register 5 (48_bus_devices.md R318). -/
def Ppu.writeScroll (u : Ppu) (v : Byte) : Ppu :=
  if u.toggle then { u with scroll1 := v, toggle := false } else { u with scroll0 := v, toggle := true }

/-- A write of picture-unit register 6 (48_bus_devices.md R319). -/
def Ppu.writeAddr (u : Ppu) (v : Byte) : Ppu :=
  if u.toggle then { u with vaddr := hiLo (hiByte u.vaddr) v, toggle := false }
  else { u with vaddr := hiLo v (loByte u.vaddr), toggle := true }

/-- A write of picture-unit register 7 (48_bus_devices.md R321). -/
def writeData (s : State) (v : Byte) : Ppu :=
  { gfxWrite s s.ppu.dataAddr v with vaddr := s.ppu.vaddr + s.ppu.increment }

/-- A write of the picture-unit port; the status register is read-only (48_bus_devices.md R311, R325). -/
def ppuWrite (a : Word) (v : Byte) (s : State) : Res Unit :=
  match (a &&& 7).toNat with
  | 0 => .ok () (s.setPpu { s.ppu with ctrl := v })
  | 1 => .ok () (s.setPpu { s.ppu with mask := v })
  | 3 => .ok () (s.setPpu { s.ppu with oamaddr := v })
  | 4 => .ok () (s.setPpu (s.ppu.writeOam v))
  | 5 => .ok () (s.setPpu (s.ppu.writeScroll v))
  | 6 => .ok () (s.setPpu (s.ppu.writeAddr v))
  | 7 => .ok () (s.setPpu (writeData s v))
  | _ => .fatal (.ppuPortDirection .write a) s

/-- The line a read of a controller returns: line 0 while the strobe is 1, else the indexed line
(48_bus_devices.md R342). -/
def Pad.current (d : Pad) (strobe : Bool) : Bool := if strobe then d.line.get 0 else d.line.get d.index

/-- The controller after a read: the index advances modulo 8 while the strobe is 0 (48_bus_devices.md R342). -/
def Pad.advance (d : Pad) (strobe : Bool) : Pad := if strobe then d else { d with index := d.index + 1 }

/-- A button state as the byte read: bit 0, the other bits 0 (48_bus_devices.md R342). -/
def lineByte (b : Bool) : Byte := if b then 0x01 else 0x00

/-- A read of the I/O region (48_bus_devices.md R342, R345, R346). -/
def ioRead (a : Word) (s : State) : Res Byte :=
  match (a &&& 0x1F).toNat with
  | 0x16 =>
    .ok (lineByte (s.ctl.pad0.current s.ctl.strobe))
      (s.setCtl { s.ctl with pad0 := s.ctl.pad0.advance s.ctl.strobe })
  | 0x17 =>
    .ok (lineByte (s.ctl.pad1.current s.ctl.strobe))
      (s.setCtl { s.ctl with pad1 := s.ctl.pad1.advance s.ctl.strobe })
  | _ => .ok s.params.miscIoRead s

/-- The controller port after a strobe write (48_bus_devices.md R341). -/
def Ctl.writeStrobe (k : Ctl) (v : Byte) : Ctl :=
  if v.getLsbD 0 then { strobe := true, pad0 := { k.pad0 with index := 0 }, pad1 := { k.pad1 with index := 0 } }
  else { k with strobe := false }

/-- A write of the I/O region: the strobe register, every other write ignored (48_bus_devices.md R341, R345). -/
def ioWrite (a : Word) (v : Byte) (s : State) : Res Unit :=
  match (a &&& 0x1F).toNat with
  | 0x16 => .ok () (s.setCtl (s.ctl.writeStrobe v))
  | _ => .ok () s

end Sys2Proof.Machine
end

