-- ==== Sys2Proof/Machine/Ops.lean ====
section
/-! DEFINITION. The CPU bus, the stack, fetching a byte, taking an interrupt and returning from one
(20_memory.md R70 to R95, 40_dispatch_addressing.md R158 and R159, 60_exceptions.md R390). -/

namespace Sys2Proof.Machine

/-- The regions of the CPU bus (20_memory.md R71). -/
inductive Region where
  | ram
  | ppu
  | io
  | expansion
  | sram
  | program
  deriving DecidableEq, Repr

/-- Address decoding by the top three bits, slot 2 split at 0x4020 (20_memory.md R71). -/
def region (a : Word) : Region :=
  match (a >>> 13).toNat with
  | 0 => .ram
  | 1 => .ppu
  | 2 => if a.toNat < Config.expansionBase.toNat then .io else .expansion
  | 3 => .sram
  | _ => .program

/-- Where the byte of a memory address is kept: work RAM by its mirror `a & 0x07FF`, save memory and program banks
at the bus address; a device address holds no byte (20_memory.md R72, R76, R77). -/
def memKey (a : Word) : Option Nat :=
  match region a with
  | .ram => some (a &&& 0x07FF).toNat
  | .sram | .program => some a.toNat
  | .ppu | .io | .expansion => none

/-- `MemRead(a, 1)` (20_memory.md R79). -/
def memRead (a : Word) (s : State) : Res Byte :=
  match region a with
  | .ram => .ok (s.mem.read (a &&& 0x07FF).toNat) s
  | .ppu => ppuRead a s
  | .io => ioRead a s
  | .expansion => .fatal (.expansionAccess a .read) s
  | .sram => .ok (s.mem.read a.toNat) s
  | .program => .ok (s.mem.read a.toNat) s

/-- `MemWrite(a, 1, v)` (20_memory.md R79). -/
def memWrite (a : Word) (v : Byte) (s : State) : Res Unit :=
  match region a with
  | .ram => .ok () (s.setMem (s.mem.write (a &&& 0x07FF).toNat v))
  | .ppu => ppuWrite a v s
  | .io => ioWrite a v s
  | .expansion => .fatal (.expansionAccess a .write) s
  | .sram => .ok () (s.setMem (s.mem.write a.toNat v))
  | .program => .fatal (.programBankWrite a v) s

/-- `MemRead16(a)`, low byte first (20_memory.md R81). -/
def memRead16 (a : Word) (s : State) : Res Word :=
  (memRead a s).bind fun lo s => (memRead (a + 1) s).bind fun hi s => .ok (hiLo hi lo) s

/-- The byte the bus holds at a memory address, looked at without a bus access; `none` at a device address. -/
def State.peek (s : State) (a : Word) : Option Byte := (memKey a).map s.mem.read

/-- `FetchByte()` (40_dispatch_addressing.md R158). -/
def fetchByte (s : State) : Res Byte :=
  (memRead s.pc s).bind fun b s => .ok b (s.setPc (s.pc + 1))

/-- The bus address of the stack slot SP names (10_state.md R23). -/
def State.stackSlot (s : State) : Word := Config.stackPage + zext16 s.sp

/-- `Push(v)` (40_dispatch_addressing.md R159). -/
def push (v : Byte) (s : State) : Res Unit :=
  (memWrite s.stackSlot v s).update fun _ s => s.setSp (s.sp - 1)

/-- `Pop()` (40_dispatch_addressing.md R159). -/
def pop (s : State) : Res Byte :=
  let s := s.setSp (s.sp + 1)
  memRead s.stackSlot s

/-- Push a 16-bit value, high byte first (20_memory.md R80). -/
def push16 (v : Word) (s : State) : Res Unit :=
  (push (hiByte v) s).bind fun _ s => push (loByte v) s

/-- Pop a 16-bit value, low byte first (20_memory.md R80). -/
def pop16 (s : State) : Res Word :=
  (pop s).bind fun lo s => (pop s).bind fun hi s => .ok (hiLo hi lo) s

/-- Taking an interrupt, for BRK (43_branch_jump_subroutine.md R222) and the NMI hook (60_exceptions.md R390): push
the return address high then low, push the status byte, set `P.I`, load PC from the vector. -/
def enterInterrupt (ret : Word) (status : Byte) (vector : Word) (s : State) : Res Unit :=
  (push16 ret s).bind fun _ s =>
  (push status s).bind fun _ s =>
  (memRead16 vector (s.withFlag bitI true)).update fun target s => s.setPc target

/-- Returning from one (43_branch_jump_subroutine.md R221): pop the status, then PC low then high, no increment. -/
def returnFromInterrupt (s : State) : Res Unit :=
  (pop s).bind fun v s => (pop16 (s.setP (pulledStatus v))).update fun target s => s.setPc target

end Sys2Proof.Machine
end

