-- ==== Sys2Proof/Machine/Operands.lean ====
section
/-! DEFINITION. Every operand form: effective addresses, operand reads, and the one-read-one-write sequence
(40_dispatch_addressing.md R143 to R157, 42_shift_rotate_incdec.md R200). The operand bytes are in the
instruction: the fetch has read them and PC is at the next sequential instruction (10_state.md R24). -/

namespace Sys2Proof.Machine

/-- The two bytes of a zero-page pointer; the second address wraps within page 0 (40_dispatch_addressing.md R155). -/
def zeroPagePointer (z : Byte) (s : State) : Res Word :=
  (memRead (zext16 z) s).bind fun lo s =>
  (memRead (zext16 (z + 1)) s).bind fun hi s => .ok (hiLo hi lo) s

/-- The second address of an indirect jump's pointer: only its low byte is incremented
(40_dispatch_addressing.md R154). -/
def indirectHigh (p : Word) : Word := (p &&& 0xFF00) ||| ((p + 1) &&& 0x00FF)

/-- The effective address of a memory mode (40_dispatch_addressing.md R148 to R156). -/
def effectiveAddress (m : MemMode) (s : State) : Res Word :=
  match m with
  | .zp n => .ok (zext16 n) s
  | .zpx n => .ok (zext16 (n + s.x)) s
  | .zpy n => .ok (zext16 (n + s.y)) s
  | .abs a => .ok a s
  | .abx a => .ok (a + zext16 s.x) s
  | .aby a => .ok (a + zext16 s.y) s
  | .izx n => zeroPagePointer (n + s.x) s
  | .izy n => (zeroPagePointer n s).bind fun base s => .ok (base + zext16 s.y) s

/-- The jump's target address (40_dispatch_addressing.md R151, R154). -/
def jumpAddress (t : JumpTarget) (s : State) : Res Word :=
  match t with
  | .abs a => .ok a s
  | .ind p =>
    (memRead p s).bind fun lo s =>
    (memRead (indirectHigh p) s).bind fun hi s => .ok (hiLo hi lo) s

/-- The branch's target: PC, already past the offset, plus the signed offset (40_dispatch_addressing.md R157). -/
def branchAddress (o : Byte) (s : State) : Word := s.pc + sext16 o

/-- The operand byte of a memory mode: the pointer reads, then one data read (20_memory.md R91). -/
def readMem (m : MemMode) (s : State) : Res Byte :=
  (effectiveAddress m s).bind fun ea s => memRead ea s

/-- The operand byte of a read operand; an immediate byte came with the instruction (log entry 11). -/
def readSource (o : Source) (s : State) : Res Byte :=
  match o with
  | .imm v => .ok v s
  | .mem m => readMem m s

/-- A store: the pointer reads, then one write, no read of the target (45_load_store_transfer.md R263). -/
def storeMem (m : MemMode) (v : Byte) (s : State) : Res Unit :=
  (effectiveAddress m s).bind fun ea s => memWrite ea v s

/-- The read-modify-write sequence: one read, one write of the new byte at the same address, then the register part,
which sees the byte read (42_shift_rotate_incdec.md R200). -/
def modifyMem (m : MemMode) (new : Byte → Byte) (after : Byte → State → State) (s : State) : Res Unit :=
  (effectiveAddress m s).bind fun ea s =>
  (memRead ea s).bind fun v s =>
  (memWrite ea (new v) s).update fun _ s => after v s

/-- A shift or rotate of A or of a byte in memory; `f` is the shifter (42_shift_rotate_incdec.md R190, R200). -/
def shiftOperand (t : ShiftTarget) (f : Byte → ShiftOut) (s : State) : Res Unit :=
  match t with
  | .acc => .ok () ((s.setA (f s.a).value).setP (shiftFlags (f s.a) s.p))
  | .mem m => modifyMem m (fun v => (f v).value) (fun v s => s.setP (shiftFlags (f v) s.p)) s

end Sys2Proof.Machine
end

