-- ==== Sys2Proof/Machine/Arithmetic.lean ====
section
/-! DEFINITION. Arithmetic, logic, bit test and compare (41_arithmetic_logic_compare.md R170 to R180). -/

namespace Sys2Proof.Machine

/-- ADC (R170). The decimal flag has no effect (R180). -/
def execAdc (o : Source) (s : State) : Out := ((readSource o s).update fun m s => s.addWithCarry m).finish

/-- SBC (R171). -/
def execSbc (o : Source) (s : State) : Out := ((readSource o s).update fun m s => s.subWithCarry m).finish

/-- AND (R172). -/
def execAnd (o : Source) (s : State) : Out := ((readSource o s).update fun m s => s.loadA (s.a &&& m)).finish

/-- ORA (R173). -/
def execOra (o : Source) (s : State) : Out := ((readSource o s).update fun m s => s.loadA (s.a ||| m)).finish

/-- EOR (R174). -/
def execEor (o : Source) (s : State) : Out := ((readSource o s).update fun m s => s.loadA (s.a ^^^ m)).finish

/-- BIT (R175): the registers stay, Z from the AND, N and V from the operand. -/
def execBit (m : MemMode) (s : State) : Out :=
  ((readMem m s).update fun v s => s.setP (bitTestFlags s.a v s.p)).finish

/-- CMP (R176). -/
def execCmp (o : Source) (s : State) : Out := ((readSource o s).update fun m s => s.compareWith s.a m).finish

/-- CPX (R177). -/
def execCpx (o : Source) (s : State) : Out := ((readSource o s).update fun m s => s.compareWith s.x m).finish

/-- CPY (R178). -/
def execCpy (o : Source) (s : State) : Out := ((readSource o s).update fun m s => s.compareWith s.y m).finish

end Sys2Proof.Machine
end

