-- ==== Sys2Proof/Machine/Branch.lean ====
section
/-! DEFINITION. Branches, jumps, subroutines, RTI, BRK and NOP (43_branch_jump_subroutine.md R210 to R224). -/

namespace Sys2Proof.Machine

/-- A conditional branch: PC gets the target when the condition holds, else nothing happens (R224). -/
def State.branchIf (s : State) (cond : Bool) (o : Byte) : State :=
  if cond then s.setPc (branchAddress o s) else s

/-- BPL (R210). -/
def execBpl (o : Byte) (s : State) : Out := .next (s.branchIf (!s.p.getLsbD bitN) o)

/-- BMI (R211). -/
def execBmi (o : Byte) (s : State) : Out := .next (s.branchIf (s.p.getLsbD bitN) o)

/-- BVC (R212). -/
def execBvc (o : Byte) (s : State) : Out := .next (s.branchIf (!s.p.getLsbD bitV) o)

/-- BVS (R213). -/
def execBvs (o : Byte) (s : State) : Out := .next (s.branchIf (s.p.getLsbD bitV) o)

/-- BCC (R214). -/
def execBcc (o : Byte) (s : State) : Out := .next (s.branchIf (!s.p.getLsbD bitC) o)

/-- BCS (R215). -/
def execBcs (o : Byte) (s : State) : Out := .next (s.branchIf (s.p.getLsbD bitC) o)

/-- BNE (R216). -/
def execBne (o : Byte) (s : State) : Out := .next (s.branchIf (!s.p.getLsbD bitZ) o)

/-- BEQ (R217). -/
def execBeq (o : Byte) (s : State) : Out := .next (s.branchIf (s.p.getLsbD bitZ) o)

/-- JMP (R218). -/
def execJmp (t : JumpTarget) (s : State) : Out := ((jumpAddress t s).update fun ea s => s.setPc ea).finish

/-- JSR (R219): push the address of the instruction's last byte, then jump. -/
def execJsr (a : Word) (s : State) : Out := ((push16 (s.pc - 1) s).update fun _ s => s.setPc a).finish

/-- RTS (R220): pop the address, plus one. -/
def execRts (s : State) : Out := ((pop16 s).update fun a s => s.setPc (a + 1)).finish

/-- RTI (R221). -/
def execRti (s : State) : Out := (returnFromInterrupt s).finish

/-- BRK (R222): the return address is two past the opcode byte, which the fetch has left at `PC + 1`. -/
def execBrk (s : State) : Out :=
  (enterInterrupt (s.pc + 1) (pushedByInstruction s.p) Config.vecBrk s).finish

/-- NOP (R223). -/
def execNop (s : State) : Out := .next s

end Sys2Proof.Machine
end

