-- ==== Sys2Proof/Machine/LoadStore.lean ====
section
/-! DEFINITION. Loads, stores and register transfers (45_load_store_transfer.md R260 to R271). -/

namespace Sys2Proof.Machine

/-- LDA (R260). -/
def execLda (o : Source) (s : State) : Out := ((readSource o s).update fun m s => s.loadA m).finish

/-- LDX (R261). -/
def execLdx (o : Source) (s : State) : Out := ((readSource o s).update fun m s => s.loadX m).finish

/-- LDY (R262). -/
def execLdy (o : Source) (s : State) : Out := ((readSource o s).update fun m s => s.loadY m).finish

/-- STA (R263). -/
def execSta (m : MemMode) (s : State) : Out := (storeMem m s.a s).finish

/-- STX (R264). -/
def execStx (m : MemMode) (s : State) : Out := (storeMem m s.x s).finish

/-- STY (R265). -/
def execSty (m : MemMode) (s : State) : Out := (storeMem m s.y s).finish

/-- TAX (R266). -/
def execTax (s : State) : Out := .next (s.loadX s.a)

/-- TAY (R267). -/
def execTay (s : State) : Out := .next (s.loadY s.a)

/-- TXA (R268). -/
def execTxa (s : State) : Out := .next (s.loadA s.x)

/-- TYA (R269). -/
def execTya (s : State) : Out := .next (s.loadA s.y)

/-- TSX (R270). -/
def execTsx (s : State) : Out := .next (s.loadX s.sp)

/-- TXS (R271): no flag is written. -/
def execTxs (s : State) : Out := .next (s.setSp s.x)

end Sys2Proof.Machine
end

