-- ==== Sys2Proof/Machine/Shift.lean ====
section
/-! DEFINITION. Shift, rotate, increment and decrement (42_shift_rotate_incdec.md R190 to R200). -/

namespace Sys2Proof.Machine

/-- ASL (R190). -/
def execAsl (t : ShiftTarget) (s : State) : Out := (shiftOperand t shiftLeft s).finish

/-- LSR (R191). -/
def execLsr (t : ShiftTarget) (s : State) : Out := (shiftOperand t shiftRight s).finish

/-- ROL (R192): the bit shifted in is the carry before the instruction. -/
def execRol (t : ShiftTarget) (s : State) : Out := (shiftOperand t (fun v => rotateLeft v s.carry) s).finish

/-- ROR (R193): the bit shifted in is the carry before the instruction. -/
def execRor (t : ShiftTarget) (s : State) : Out := (shiftOperand t (fun v => rotateRight v s.carry) s).finish

/-- INC (R194). -/
def execInc (m : MemMode) (s : State) : Out :=
  (modifyMem m (fun v => v + 1) (fun v s => s.setP (setNZ (v + 1) s.p)) s).finish

/-- DEC (R195). -/
def execDec (m : MemMode) (s : State) : Out :=
  (modifyMem m (fun v => v - 1) (fun v s => s.setP (setNZ (v - 1) s.p)) s).finish

/-- INX (R196). -/
def execInx (s : State) : Out := .next (s.loadX (s.x + 1))

/-- INY (R197). -/
def execIny (s : State) : Out := .next (s.loadY (s.y + 1))

/-- DEX (R198). -/
def execDex (s : State) : Out := .next (s.loadX (s.x - 1))

/-- DEY (R199). -/
def execDey (s : State) : Out := .next (s.loadY (s.y - 1))

end Sys2Proof.Machine
end

