-- ==== Sys2Proof/Machine/Stack.lean ====
section
/-! DEFINITION. Stack and flag instructions (44_stack_flags.md R240 to R250). -/

namespace Sys2Proof.Machine

/-- PHA (R240). -/
def execPha (s : State) : Out := (push s.a s).finish

/-- PLA (R241). -/
def execPla (s : State) : Out := ((pop s).update fun v s => s.loadA v).finish

/-- PHP (R242). -/
def execPhp (s : State) : Out := (push (pushedByInstruction s.p) s).finish

/-- PLP (R243). -/
def execPlp (s : State) : Out := ((pop s).update fun v s => s.setP (pulledStatus v)).finish

/-- CLC (R244). -/
def execClc (s : State) : Out := .next (s.withFlag bitC false)

/-- SEC (R245). -/
def execSec (s : State) : Out := .next (s.withFlag bitC true)

/-- CLI (R246). -/
def execCli (s : State) : Out := .next (s.withFlag bitI false)

/-- SEI (R247). -/
def execSei (s : State) : Out := .next (s.withFlag bitI true)

/-- CLV (R248). -/
def execClv (s : State) : Out := .next (s.withFlag bitV false)

/-- CLD (R249). -/
def execCld (s : State) : Out := .next (s.withFlag bitD false)

/-- SED (R250). -/
def execSed (s : State) : Out := .next (s.withFlag bitD true)

end Sys2Proof.Machine
end

