-- ==== Sys2Proof/Machine/Undocumented.lean ====
section
/-! DEFINITION. The undocumented combined operations, NOP encodings, the SBC duplicate and the halting opcodes
(46_undocumented.md R280 to R290). -/

namespace Sys2Proof.Machine

/-- SLO (R280): C from the shift, Z and N from the new A. -/
def execSlo (m : MemMode) (s : State) : Out :=
  (modifyMem m (fun v => (shiftLeft v).value)
    (fun v s => (s.withFlag bitC (shiftLeft v).carry).loadA (s.a ||| (shiftLeft v).value)) s).finish

/-- RLA (R281). -/
def execRla (m : MemMode) (s : State) : Out :=
  (modifyMem m (fun v => (rotateLeft v s.carry).value)
    (fun v t => (t.withFlag bitC (rotateLeft v s.carry).carry).loadA (t.a &&& (rotateLeft v s.carry).value)) s).finish

/-- SRE (R282). -/
def execSre (m : MemMode) (s : State) : Out :=
  (modifyMem m (fun v => (shiftRight v).value)
    (fun v s => (s.withFlag bitC (shiftRight v).carry).loadA (s.a ^^^ (shiftRight v).value)) s).finish

/-- RRA (R283): the add's carry in is the carry the rotate has just produced. -/
def execRra (m : MemMode) (s : State) : Out :=
  (modifyMem m (fun v => (rotateRight v s.carry).value)
    (fun v t => (t.withFlag bitC (rotateRight v s.carry).carry).addWithCarry (rotateRight v s.carry).value) s).finish

/-- SAX (R284): no flag is written. -/
def execSax (m : MemMode) (s : State) : Out := (storeMem m (s.a &&& s.x) s).finish

/-- LAX (R285). -/
def execLax (m : MemMode) (s : State) : Out := ((readMem m s).update fun v s => (s.loadA v).setX v).finish

/-- DCP (R286). -/
def execDcp (m : MemMode) (s : State) : Out :=
  (modifyMem m (fun v => v - 1) (fun v s => s.compareWith s.a (v - 1)) s).finish

/-- ISB (R287). -/
def execIsb (m : MemMode) (s : State) : Out :=
  (modifyMem m (fun v => v + 1) (fun v s => s.subWithCarry (v + 1)) s).finish

/-- An undocumented NOP (R288): the operand address is never accessed, whatever the mode. -/
def execNopU (_op : Byte) (_o : NopOperand) (s : State) : Out := .next s

/-- The SBC duplicate 0xEB (R289): as SBC immediate. -/
def execSbcU (v : Byte) (s : State) : Out := .next (s.subWithCarry v)

/-- A halting opcode (R290): PC is one past the opcode byte and stays there, nothing else changes. -/
def execHlt (op : Byte) (s : State) : Out := .next (s.setHalted (.halted (.unknownOpcode op (s.pc - 1))))

end Sys2Proof.Machine
end

