-- ==== Sys2Proof/Machine/Cpu.lean ====
section
/-! DEFINITION. One CPU step: fetch, decode, operand bytes, execute (40_dispatch_addressing.md R140 to R144), and
placing an instruction's bytes where the next step fetches them. -/

namespace Sys2Proof.Machine

/-- The operand bytes of an opcode byte, each fetched through the bus (R143). The immediate byte of an undocumented
NOP is skipped and never read (R147, R288); a halting opcode has no operand byte (R142). -/
def fetchOperands (op : Byte) (s : State) : Res Instr :=
  match tableEntry op 0 0 with
  | .nopU _ (.imm _) => .ok (tableEntry op 0 0) (s.setPc (s.pc + 1))
  | i =>
    match i.operandSize with
    | 0 => .ok (tableEntry op 0 0) s
    | 1 => (fetchByte s).bind fun lo s => .ok (tableEntry op lo 0) s
    | _ => (fetchByte s).bind fun lo s => (fetchByte s).bind fun hi s => .ok (tableEntry op lo hi) s

/-- Fetch and decode: the instruction, and the state with PC past it (R141, R142). A fetch from a device register has
that register's side effects (20_memory.md R79, R84). A halting byte leaves nothing but PC changed (60_exceptions.md
R387, 92_eei_decisions.md D15); DEDUCED: also where it was fetched from a device register (0x2004, 0x2007 and their
images), so that fetch has no side effect (log entry 22). -/
def fetchInstr (s : State) : Res Instr :=
  (fetchByte s).bind fun op t =>
    match tableEntry op 0 0 with
    | .hlt b => .ok (.hlt b) (s.setPc (s.pc + 1))
    | _ => fetchOperands op t

/-- `Step()` (R140). While the machine is halted it has no step (60_exceptions.md R380; log entry 7). -/
def cpuStep (s : State) : Out :=
  match s.halted with
  | .halted c => .fault (.halted c)
  | .running =>
    match fetchInstr s with
    | .ok i s => exec i s
    | .fatal c s => .next (s.busHalt c)

/-- Place one byte in the memory behind a bus address; a device address takes none. -/
def State.poke (s : State) (a : Word) (v : Byte) : State :=
  match memKey a with
  | some k => s.setMem (s.mem.write k v)
  | none => s

/-- Place three bytes from an address on. -/
def State.pokeInstr (s : State) (a : Word) (nbits w : Nat) : State :=
  let v := w % 2 ^ nbits
  ((s.poke a (BitVec.ofNat 8 v)).poke (a + 1) (BitVec.ofNat 8 (v / 256))).poke (a + 2) (BitVec.ofNat 8 (v / 65536))

/-- The three bytes at an address are memory, and no device. -/
def holdsInstr (a : Word) : Bool := (memKey a).isSome && (memKey (a + 1)).isSome && (memKey (a + 2)).isSome

/-- Where the next instruction is placed: PC, or 0 where PC points into a device (log entry 17). -/
def State.placeFor (s : State) : Word := if holdsInstr s.pc then s.pc else 0x0000

end Sys2Proof.Machine
end

