-- ==== Sys2Proof/Machine/Picture.lean ====
section
/-! DEFINITION. The picture decoder (49_picture_decoder.md R360 to R369): a function of the coordinates, the table
bases, graphics memory and the snapshot; it changes nothing. -/

namespace Sys2Proof.Machine

/-- Both table regions lie wholly below the palette (R361). -/
def basesInRange (nt pt : GfxAddr) : Bool :=
  decide (nt.toNat + 0x3FF < Config.paletteBase.toNat) && decide (pt.toNat + 0xFFF < Config.paletteBase.toNat)

/-- The tile number at a pixel (R362). -/
def tileAt (x y : Nat) (nt : GfxAddr) (s : State) : Byte := gfxRead s (nt + BitVec.ofNat 14 (x / 8 + y / 8 * 32))

/-- The graphics address of the first plane byte of a tile's row (R363). -/
def planeAddr (x y : Nat) (nt pt : GfxAddr) (s : State) : GfxAddr :=
  pt + BitVec.ofNat 14 ((tileAt x y nt s).toNat * 16 + y % 8)

/-- The low two bits of the colour index: one bit of each plane, the leftmost pixel in bit 7 (R363). -/
def patternBits (x y : Nat) (nt pt : GfxAddr) (s : State) : Nat :=
  let p := planeAddr x y nt pt s
  let b := 7 - x % 8
  ((gfxRead s p).getLsbD b).toNat + 2 * ((gfxRead s (p + 8)).getLsbD b).toNat

/-- The high two bits of the colour index: the attribute byte's field of the 16 by 16 quadrant (R364). -/
def attributeBits (x y : Nat) (nt : GfxAddr) (s : State) : Nat :=
  let attr := gfxRead s (nt + BitVec.ofNat 14 (0x3C0 + x / 32 + y / 32 * 8))
  let sh := ((x &&& 16) >>> 3) ||| ((y &&& 16) >>> 2)
  (attr.toNat >>> sh) % 4

/-- The colour of a pixel (R365, R366). -/
def decodePixel (x y : Nat) (nt pt : GfxAddr) (s : State) : Color :=
  s.ppu.snap.get (Fin.ofNat 16 (attributeBits x y nt s * 4 + patternBits x y nt pt s))

/-- `pixelColor(x, y, nameTableBase, patternTableBase)`; no value where the call is refused (R361, R366). -/
def pixelColor (x y : Nat) (nt pt : GfxAddr) (s : State) : Option Color :=
  if x < Config.screenW ∧ y < Config.screenH ∧ basesInRange nt pt then some (decodePixel x y nt pt s) else none

/-- The frame buffer: pixel `(x, y)` at index `y * 256 + x` (R368). -/
def pixelPass (nt pt : GfxAddr) (s : State) : List Color :=
  (List.range Config.screenH).flatMap fun y => (List.range Config.screenW).map fun x => decodePixel x y nt pt s

end Sys2Proof.Machine
end

