-- ==== Sys2Proof/Machine/Sequencer.lean ====
section
/-! DEFINITION. The frame sequencer's operations between two CPU steps (60_exceptions.md R388 to R405) and reset
(70_reset_and_hazards.md R420). -/

namespace Sys2Proof.Machine

/-- The NMI hook (60_exceptions.md R390). -/
def nmiHook (s : State) : Res Unit := enterInterrupt s.pc (pushedByHook s.p) Config.vecNmi s

/-- The picture unit with the vertical-blank flag set (10_state.md R40). -/
def Ppu.raiseBlank (u : Ppu) : Ppu := { u with status := u.status ||| 0x80 }

/-- The frame event: the flag first, then the hook if the enable bit is set at this instant (60_exceptions.md R389,
R401); not delivered while halted (R380; log entry 9). -/
def frameEvent (s : State) : Out :=
  match s.halted with
  | .halted c => .refused (.whileHalted c)
  | .running =>
    let s := s.setPpu s.ppu.raiseBlank
    if s.ppu.ctrl.getLsbD 7 then (nmiHook s).finish else .next s

/-- The palette snapshot refresh (60_exceptions.md R402), a part of `renderFrame`, refused while halted (R380;
log entry 9). -/
def refreshSnapshot (s : State) : Out :=
  match s.halted with
  | .halted c => .refused (.whileHalted c)
  | .running => .next (s.setPpu { s.ppu with snap := snapshotOf s })

/-- A controller with one line set (60_exceptions.md R403). -/
def Pad.setLine (d : Pad) (l : Fin 8) (pressed : Bool) : Pad := { d with line := d.line.set l pressed }

/-- `setControllerLine(c, l, pressed)` (60_exceptions.md R403). -/
def setControllerLine (c l : Nat) (pressed : Bool) (s : State) : Out :=
  if h : l < 8 then
    match c with
    | 0 => .next (s.setCtl { s.ctl with pad0 := s.ctl.pad0.setLine ⟨l, h⟩ pressed })
    | 1 => .next (s.setCtl { s.ctl with pad1 := s.ctl.pad1.setLine ⟨l, h⟩ pressed })
    | _ => .refused (.noSuchLine c l)
  else .refused (.noSuchLine c l)

/-- The picture unit after reset: the registers cleared; sprite memory, stores, palette and snapshot stay (R420). -/
def Ppu.cleared (u : Ppu) : Ppu :=
  { u with
    ctrl := 0
    mask := 0
    status := 0
    oamaddr := 0
    scroll0 := 0
    scroll1 := 0
    vaddr := 0
    toggle := false
    readbuf := 0 }

/-- The controller port after reset: the lines stay (R420). -/
def Ctl.cleared (k : Ctl) : Ctl :=
  { strobe := false, pad0 := { k.pad0 with index := 0 }, pad1 := { k.pad1 with index := 0 } }

/-- Everything reset sets but PC (R420). -/
def State.resetRegisters (s : State) : State :=
  { s with
    halted := .running
    a := s.params.resetA
    x := s.params.resetX
    y := s.params.resetY
    sp := s.params.resetSp
    p := s.params.resetP ||| 0x20
    ppu := s.ppu.cleared
    ctl := s.ctl.cleared }

/-- `reset()` (70_reset_and_hazards.md R420, 60_exceptions.md R404): its two bus accesses are the vector reads. -/
def resetMachine (s : State) : Out :=
  ((memRead16 Config.vecReset s.resetRegisters).update fun v s => s.setPc v).finish

/-- One operation of the frame sequencer. -/
def runHost (op : HostOp) (s : State) : Out :=
  match op with
  | .frameEvent => frameEvent s
  | .refreshSnapshot => refreshSnapshot s
  | .setLine c l pressed => setControllerLine c l pressed s
  | .reset => resetMachine s

/-- The next turn: what the agenda says, or a CPU step when it is empty (00_scope.md R8; log entry 8). -/
def takeTurn (s : State) : Out :=
  match s.agenda with
  | [] => cpuStep s
  | .cpu :: rest => cpuStep (s.setAgenda rest)
  | .host op :: rest => runHost op (s.setAgenda rest)

/-- The CPU burst of a frame: at most `n` steps, ended by a halt (60_exceptions.md R405). -/
def runBurst : Nat → State → Out
  | 0, s => .next s
  | n + 1, s =>
    match cpuStep s with
    | .next t => if t.halted = .running then runBurst n t else .next t
    | .fault f => .fault f
    | .refused r => .refused r

/-- What a frame returns: the state, and the frame buffer unless the burst halted (60_exceptions.md R405). -/
structure FrameEnd where
  state : State
  buffer : Option (List Color)
  deriving DecidableEq, Repr

/-- The end of a frame after the burst: frame event, snapshot refresh, pixel pass (60_exceptions.md R402, R405). -/
def finishFrame (nt pt : GfxAddr) (s : State) : Host.Outcome FrameEnd Fault Refusal :=
  match frameEvent s with
  | .fault f => .fault f
  | .refused r => .refused r
  | .next t =>
    match refreshSnapshot t with
    | .fault f => .fault f
    | .refused r => .refused r
    | .next u => .next { state := u, buffer := some (pixelPass nt pt u) }

/-- `renderFrame()` (60_exceptions.md R405) with `n` for STEPS_PER_FRAME and the bases the sequencer chooses
(49_picture_decoder.md R361; log entry 14). STEPS_PER_FRAME is a positive integer (92_eei_decisions.md D27); DESIGN
CHOICE: `n` of 0 is not refused and gives a frame with an empty burst (log entry 14). -/
def renderFrame (n : Nat) (nt pt : GfxAddr) (s : State) : Host.Outcome FrameEnd Fault Refusal :=
  match s.halted with
  | .halted c => .refused (.whileHalted c)
  | .running =>
    if basesInRange nt pt then
      match runBurst n s with
      | .fault f => .fault f
      | .refused r => .refused r
      | .next t =>
        if t.halted = .running then finishFrame nt pt t else .next { state := t, buffer := none }
    else .refused .tablesOutOfRange

end Sys2Proof.Machine
end

