-- ==== Sys2Proof/Machine/Cartridge.lean ====
section
/-! DEFINITION. Binding a cartridge before the first reset (70_reset_and_hazards.md R422, R424, 60_exceptions.md R385,
10_state.md R37, R47; log entry 15). -/

namespace Sys2Proof.Machine

/-- The header fields the core uses (70_reset_and_hazards.md R424). -/
structure Header where
  /-- Byte 4: program data in units of 16 KiB. -/
  programBanks : Byte
  /-- Byte 5: graphics data in units of 8 KiB. -/
  graphicsBanks : Byte
  /-- Byte 6. -/
  flag1 : Byte
  /-- Byte 7. -/
  flag2 : Byte
  deriving DecidableEq, Repr

/-- The mapper number (70_reset_and_hazards.md R424). -/
def mapperOf (h : Header) : Byte := (h.flag2 &&& 0xF0) ||| (h.flag1 >>> 4)

/-- The store each window shows: 0 to 7 the cartridge's graphics data, then two name-table stores arranged by bit 0
of flag byte 1, and again (10_state.md R47). -/
def windowsOf (h : Header) : Vector Nat 16 :=
  if h.flag1.getLsbD 0 then #v[0, 1, 2, 3, 4, 5, 6, 7, 8, 9, 8, 9, 8, 9, 8, 9]
  else #v[0, 1, 2, 3, 4, 5, 6, 7, 8, 8, 9, 9, 8, 8, 9, 9]

/-- The 32 KiB the four program windows show: 16 KiB is repeated (10_state.md R37). Program data beyond the bank count's
16384 or 32768 bytes is dropped: DESIGN CHOICE, the spec does not say (log entry 15). -/
def windowBytes (h : Header) (program : List Byte) : List Byte :=
  if h.programBanks = 1 then program.take 16384 ++ program.take 16384 else program.take 32768

/-- The memory with the program windows bound; work RAM and save memory keep the launch contents (R421). -/
def bindProgram (bytes : List Byte) (m : Memory) : Memory :=
  m.filter (fun c => c.1 < 0x8000) ++ Memory.ofBytes 0x8000 bytes

/-- The graphics stores with the cartridge's data in stores 0 to 7; the other stores keep the launch contents. Graphics
data beyond 8192 bytes is dropped, and bytes that shorter data lacks are unlisted: DESIGN CHOICE, the spec does not say
(log entry 15). -/
def bindGraphics (bytes : List Byte) (m : Memory) : Memory :=
  Memory.ofBytes 0 (bytes.take 8192) ++ m.filter (fun c => 8192 ≤ c.1)

/-- Construction: refused for a cartridge the fixed bank tables cannot represent, or when the program data is
shorter than its count says; else the launch state with the banks bound (60_exceptions.md R385). Which (field, value) is
reported when several header fields are unsupported at once is a DESIGN CHOICE, the spec names no order: the mapper
first, then the program-bank count, then the graphics-bank count, and short program data last (log entry 21). -/
def construct (h : Header) (program graphics : List Byte) (launch : State) : Out :=
  if mapperOf h ≠ 0 then .refused (.unsupportedCartridge .mapper (mapperOf h).toNat)
  else if h.programBanks ≠ 1 ∧ h.programBanks ≠ 2 then
    .refused (.unsupportedCartridge .programBanks h.programBanks.toNat)
  else if 1 < h.graphicsBanks.toNat then .refused (.unsupportedCartridge .graphicsBanks h.graphicsBanks.toNat)
  else if program.length < 16384 * h.programBanks.toNat then .refused .unboundWindow
  else
    .next
      { launch with
        mem := bindProgram (windowBytes h program) launch.mem
        ppu :=
          if h.graphicsBanks = 1 then { launch.ppu with gfx := bindGraphics graphics launch.ppu.gfx } else launch.ppu
        params := { launch.params with gfxBank := windowsOf h } }

/-- Power-on: construction, then one reset (70_reset_and_hazards.md R421). -/
def powerOn (h : Header) (program graphics : List Byte) (launch : State) : Out :=
  match construct h program graphics launch with
  | .next s => resetMachine s
  | .fault f => .fault f
  | .refused r => .refused r

end Sys2Proof.Machine
end

