-- ==== Sys2Proof/Machine/Step.lean ====
section
/-! DEFINITION. The machine's step, and placing a program's next instruction. -/

namespace Sys2Proof.Machine

/-- One step of the machine: the turn of the agent that moves next (00_scope.md R8). -/
def step (s : State) : Host.Outcome State Fault Refusal := takeTurn s

/-- `s` with an instruction's bytes stored where the next CPU step fetches it, the CPU running and next to move
(log entries 3, 10 and 17). -/
def State.withFetchWord (s : State) (nbits w : Nat) : State :=
  (((s.pokeInstr s.placeFor nbits w).setPc s.placeFor).setHalted .running).setAgenda []

end Sys2Proof.Machine
end

