-- ==== Sys2Proof/Safety.lean ====
section
/-! DEFINITION. What the machine always keeps, and the words in which statements say what an instruction leaves
unchanged. -/

namespace Sys2Proof.Machine

/-- The six registers of the CPU (10_state.md R20 to R25, R33). -/
inductive Reg where
  | a
  | x
  | y
  | sp
  | p
  | pc
  deriving DecidableEq, Repr

/-- A register's content, as a word. -/
def State.reg (s : State) : Reg → Word
  | .a => zext16 s.a
  | .x => zext16 s.x
  | .y => zext16 s.y
  | .sp => zext16 s.sp
  | .p => zext16 s.p
  | .pc => s.pc

/-- Of the CPU, only the registers listed may differ. -/
def OnlyRegs (rs : List Reg) (s t : State) : Prop :=
  (∀ r, r ∉ rs → t.reg r = s.reg r) ∧
  t.halted = s.halted ∧ t.params = s.params ∧ t.agenda = s.agenda ∧ t.free = s.free

/-- Of the status register, only the bits listed may differ. -/
def OnlyFlags (bits : List Nat) (s t : State) : Prop :=
  ∀ i, i ∉ bits → t.p.getLsbD i = s.p.getLsbD i

/-- Every byte of memory reads as before. -/
def SameMemory (s t : State) : Prop := ∀ a, t.peek a = s.peek a

/-- The picture unit and the controller port are as before. -/
def SameDevices (s t : State) : Prop := t.ppu = s.ppu ∧ t.ctl = s.ctl

/-- Bus accesses alone lead from `s` to `t`: the registers, `halted`, the parameters and the model's own fields stay. -/
def BusOnly (s t : State) : Prop := t = { s with mem := t.mem, ppu := t.ppu, ctl := t.ctl }

/-- The addresses at which a byte of memory is kept: work RAM, save memory, program banks (20_memory.md R71). -/
def State.memoryInRange (s : State) : Prop :=
  ∀ c ∈ s.mem, c.1 < 0x0800 ∨ (0x6000 ≤ c.1 ∧ c.1 < 0x10000)

/-- What every step keeps. -/
structure Inv (s : State) : Prop where
  /-- The memory on the bus is in its canonical form. -/
  mem : s.mem.wf
  /-- It lists no address that holds no byte (20_memory.md R71). -/
  range : s.memoryInRange
  /-- Sprite memory is in its canonical form. -/
  oam : s.ppu.oam.wf
  /-- Sprite memory has 256 bytes (10_state.md R42). -/
  oamRange : ∀ c ∈ s.ppu.oam, c.1 < 256
  /-- The graphics stores are in their canonical form. -/
  gfx : s.ppu.gfx.wf
  /-- The Reserved bit is 1 (10_state.md R26). -/
  reserved : s.p.getLsbD 5 = true
  /-- Bits 6:0 of the picture-unit status are 0 (10_state.md R40). -/
  status : ∀ i, i < 7 → s.ppu.status.getLsbD i = false
  /-- While strobing, both read indices are held at 0 (48_bus_devices.md R342). -/
  strobe : s.ctl.strobe = true → s.ctl.pad0.index = 0 ∧ s.ctl.pad1.index = 0

/-- The bus address of a stack slot: page 1 (10_state.md R23). -/
def stackAt (slot : Byte) : Word := BitVec.ofNat 16 (0x0100 + slot.toNat)

/-- Memory after a store of `v` at `ea`: the byte there reads `v`, at every mirror of it, where it is a byte of memory;
every other byte reads as before (20_memory.md R72, R89). -/
def StoresOnly (ea : Word) (v : Byte) (s t : State) : Prop :=
  ∀ a, t.peek a = if memKey a = memKey ea ∧ (memKey ea).isSome then some v else s.peek a

/-- Zero and Sign after a result byte, as `SetNZ` leaves them (40_dispatch_addressing.md R159). -/
def ShowsNZ (r : Byte) (t : State) : Prop :=
  t.p.getLsbD 1 = decide (r = 0) ∧ t.p.getLsbD 7 = decide (128 ≤ r.toNat)

/-- From `s`, the bus accesses listed, each of which completes, lead in their order to the memory and devices of the
last state; between them only registers and the model's own fields may change. -/
inductive Accesses (s : State) : List (Direction × Word) → State → Prop where
  | start : Accesses s [] s
  | keep {l : List (Direction × Word)} {u t : State} : Accesses s l u → t.mem = u.mem → t.ppu = u.ppu →
      t.ctl = u.ctl → t.params = u.params → Accesses s l t
  | read {l : List (Direction × Word)} {u t : State} {a : Word} {v : Byte} : Accesses s l u →
      memRead a u = .ok v t → Accesses s (l ++ [(.read, a)]) t
  | write {l : List (Direction × Word)} {u t : State} {a : Word} {v : Byte} : Accesses s l u →
      memWrite a v u = .ok () t → Accesses s (l ++ [(.write, a)]) t

/-- Bus reads of consecutive addresses from `a` on, each of which completes, give these bytes and lead from the one state
to the other. -/
def Fetches (a : Word) : List Byte → State → State → Prop
  | [], s, t => t = s
  | b :: rest, s, t => ∃ u, memRead a s = .ok b u ∧ Fetches (a + 1) rest u t

/-- The instructions that read the byte of a memory operand and write none (20_memory.md R91). -/
def readersAt (m : MemMode) : List Instr :=
  [.adc (.mem m), .sbc (.mem m), .and (.mem m), .ora (.mem m), .eor (.mem m), .bit m, .cmp (.mem m), .cpx (.mem m),
    .cpy (.mem m), .lda (.mem m), .ldx (.mem m), .ldy (.mem m), .lax m]

/-- The instructions that write a byte at their memory operand's address and read none there (20_memory.md R91). -/
def storesAt (m : MemMode) : List Instr := [.sta m, .stx m, .sty m, .sax m]

/-- The read-modify-write instructions (42_shift_rotate_incdec.md R200, 46_undocumented.md R280 to R287). -/
def modifiersAt (m : MemMode) : List Instr :=
  [.asl (.mem m), .lsr (.mem m), .rol (.mem m), .ror (.mem m), .inc m, .dec m, .slo m, .rla m, .sre m, .rra m, .dcp m,
    .isb m]

/-- `n` bus reads of one address, one after the other. -/
def repeatRead (a : Word) : Nat → State → Res (List Byte)
  | 0, s => .ok [] s
  | n + 1, s => (memRead a s).bind fun v s => (repeatRead a n s).bind fun vs s => .ok (v :: vs) s

/-- The step that performs the turn `turn` in `s`, the turns to come staying as they are, completes in `t`. -/
def Takes (turn : Turn) (s t : State) : Prop := step { s with agenda := turn :: s.agenda } = .next t

/-- A step that completes and leaves the machine running. -/
def RunsOn (s : State) : Prop := ∃ t, step s = .next t ∧ t.halted = .running

end Sys2Proof.Machine
end

