-- ==== Sys2Proof/Certificates/Slice0/Obligations.lean ====
section
/-! DEFINITION. The statements for the provers. `exec` runs with PC already past the instruction (10_state.md R24);
flag numbers are the bits of P: C 0, Z 1, I 2, D 3, B 4, R 5, V 6, N 7 (10_state.md R25). -/

open Sys2Proof Sys2Proof.Machine

/-- Decoding the encoding of any well-formed instruction gives it back, whatever bytes follow (30_encoding.md R110
to R116). -/
def Obligations.DecodeOfEncode : Prop :=
  ∀ (i : Instr) (rest : List Byte), i.wellFormed = true →
    ∃ bytes, encode i = some bytes ∧ bytes.length = i.length ∧ decode (bytes ++ rest) = .ok (i, rest)

/-- What decodes is well-formed, and its encoding is the bytes it was decoded from (30_encoding.md R117). -/
def Obligations.EncodeOfDecode : Prop :=
  ∀ (bytes rest : List Byte) (i : Instr), decode bytes = .ok (i, rest) →
    i.wellFormed = true ∧ ∃ front, encode i = some front ∧ bytes = front ++ rest

/-- Words written out from 30_encoding.md R114 decode to the instructions they stand for. -/
def Obligations.DecodingIsRight : Prop :=
  decode [0x6D, 0x34, 0x12] = .ok (.adc (.mem (.abs 0x1234)), []) ∧
  decode [0x36, 0x80] = .ok (.rol (.mem (.zpx 0x80)), []) ∧
  decode [0xD0, 0xF9] = .ok (.bne 0xF9, []) ∧
  decode [0x6C, 0xFF, 0x02] = .ok (.jmp (.ind 0x02FF), []) ∧
  decode [0x28] = .ok (.plp, []) ∧
  decode [0x96, 0x10] = .ok (.stx (.zpy 0x10), []) ∧
  decode [0x73, 0x20] = .ok (.rra (.izy 0x20), []) ∧
  decode [0x1C, 0x00, 0x20] = .ok (.nopU 0x1C (.mem (.abx 0x2000)), [])

/-- When the bytes at PC, in memory, are an instruction, the CPU's step is that instruction's meaning with PC moved
past them (40_dispatch_addressing.md R140 to R144). Wherever the bytes lie, they are read through the bus one by one, and
the instruction runs in the state those reads leave, a device's read side effects included (20_memory.md R79, R84); the
immediate byte of an undocumented NOP is skipped (R147), and a halting byte has its own statement. A fetch that is fatal
halts the step, the reads before it keeping their effect. That an immediate byte is among the bytes so read is the model's
reading (log entry 11). -/
def Obligations.StepRunsDecodedInstruction : Prop :=
  ∀ s : State, s.halted = .running → s.agenda = [] →
    (∀ (bytes : List Byte) (i : Instr), decode bytes = .ok (i, []) →
      (∀ k b, bytes[k]? = some b → s.peek (s.pc + BitVec.ofNat 16 k) = some b) →
      step s = exec i (s.setPc (s.pc + BitVec.ofNat 16 bytes.length))) ∧
    (∀ (bytes : List Byte) (i : Instr) (t : State), decode bytes = .ok (i, []) →
      (∀ op, i ≠ .hlt op) → (∀ op v, i ≠ .nopU op (.imm v)) → Fetches s.pc bytes s t →
      step s = exec i (t.setPc (s.pc + BitVec.ofNat 16 bytes.length))) ∧
    (∀ (op b v : Byte) (t : State), decode [op, b] = .ok (.nopU op (.imm v), []) → memRead s.pc s = .ok op t →
      step s = .next (t.setPc (s.pc + 2))) ∧
    ∀ (front : List Byte) (t u : State) (c : Cause), Fetches s.pc front s t → (∃ r, decode front = .error r) →
      (∀ b op v, decode (front ++ [b]) ≠ .ok (.nopU op (.imm v), [])) →
      memRead (s.pc + BitVec.ofNat 16 front.length) t = .fatal c u →
      ∃ w, step s = .next w ∧ w.halted = .halted c ∧ w.mem = t.mem ∧ SameDevices t w

/-- Every step keeps the invariant: the bus memory, sprite memory and the graphics stores in canonical form, the first two
with entries only at addresses they have (the graphics stores have no range: their numbers are open), Reserved set,
status bits 6:0 clear, both controller indices 0 while strobing. The canonical form is the model's choice (log entry 1),
and so is keeping what the spec hard-wires as an invariant over whole bytes (log entry 18). -/
def Obligations.StepKeepsInv : Prop :=
  ∀ s t : State, Inv s → step s = .next t → Inv t

/-- The state after reset has the invariant. -/
def Obligations.ResetStateHasInv : Prop := Inv State.reset

/-- No step changes a program bank or a parameter (20_memory.md R77, 10_state.md R37, 00_scope.md R9). -/
def Obligations.ProgramAndParametersNeverChange : Prop :=
  ∀ s t : State, step s = .next t →
    t.params = s.params ∧ ∀ a : Word, 0x8000 ≤ a.toNat → t.peek a = s.peek a

/-- While halted the CPU has no step and the frame event is not delivered (60_exceptions.md R380); a step from the
halted state to the running state is a reset (60_exceptions.md R404). That a CPU turn while halted answers the fault
that names the cause is the model's choice (log entry 7), and that a frame event there is refused is the model's
reading (log entry 9). -/
def Obligations.HaltIsLeftOnlyByReset : Prop :=
  ∀ (s : State) (c : Cause), s.halted = .halted c →
    (s.agenda = [] → step s = .fault (.halted c)) ∧
    (∀ rest, s.agenda = .cpu :: rest → step s = .fault (.halted c)) ∧
    (∀ rest, s.agenda = .host .frameEvent :: rest → step s = .refused (.whileHalted c)) ∧
    (∀ t, step s = .next t → t.halted = .running → ∃ rest, s.agenda = .host .reset :: rest)

/-- A button line changes only in `setControllerLine` (10_state.md R52), the snapshot only in a refresh
(10_state.md R49); the vertical-blank flag is set only by the frame event and cleared only by a reset or in a CPU turn
that reads picture-unit register 2 (48_bus_devices.md R323): bus accesses lead from the one state to the other, and
whichever accesses do so, a read of that register is among them. -/
def Obligations.HostStateChangesOnlyByItsOwner : Prop :=
  ∀ s t : State, step s = .next t →
    ((∀ c l b rest, s.agenda ≠ .host (.setLine c l b) :: rest) →
      t.ctl.pad0.line = s.ctl.pad0.line ∧ t.ctl.pad1.line = s.ctl.pad1.line) ∧
    ((∀ rest, s.agenda ≠ .host .refreshSnapshot :: rest) → t.ppu.snap = s.ppu.snap) ∧
    ((∀ rest, s.agenda ≠ .host .frameEvent :: rest) → s.ppu.status.getLsbD 7 = false →
      t.ppu.status.getLsbD 7 = false) ∧
    (s.ppu.status.getLsbD 7 = true → t.ppu.status.getLsbD 7 = false →
      (∃ rest, s.agenda = .host .reset :: rest) ∨
      ((s.agenda = [] ∨ ∃ rest, s.agenda = .cpu :: rest) ∧ (∃ accesses, Accesses s accesses t) ∧
        ∀ accesses, Accesses s accesses t →
          ∃ a, (.read, a) ∈ accesses ∧ 0x2000 ≤ a.toNat ∧ a.toNat < 0x4000 ∧ a.toNat % 8 = 2))

/-- No step of a running machine, but a reset, and that goes on running, sets the live Break bit (10_state.md R31). A
reset writes it from RESET_P (70_reset_and_hazards.md R420), and after a fatal bus access it is a free value
(60_exceptions.md R387; log entry 6). -/
def Obligations.LiveBreakIsNeverSet : Prop :=
  ∀ s t : State, step s = .next t → s.halted = .running → t.halted = .running →
    (∀ rest, s.agenda ≠ .host .reset :: rest) → s.p.getLsbD 4 = false → t.p.getLsbD 4 = false

/-- ADC, SBC, RRA and ISB compute the same result whether the Decimal flag is 0 or 1, and keep it
(41_arithmetic_logic_compare.md R180). -/
def Obligations.DecimalFlagHasNoEffect : Prop :=
  ∀ (i : Instr) (s t : State) (d : Bool),
    ((∃ o, i = .adc o) ∨ (∃ o, i = .sbc o) ∨ (∃ v, i = .sbcU v) ∨ (∃ m, i = .rra m) ∨ (∃ m, i = .isb m)) →
    s.halted = .running → exec i s = .next t → t.halted = .running →
    t.p.getLsbD 3 = s.p.getLsbD 3 ∧ exec i (s.withFlag 3 d) = .next (t.withFlag 3 d)

/-- The effective address of every memory mode (40_dispatch_addressing.md R148 to R153, R155, R156): the sums wrap at
16 bits, the zero-page forms within page 0, and nothing but the program counter's bytes and page 0 is read. -/
def Obligations.EffectiveAddresses : Prop :=
  ∀ (s : State) (n : Byte) (a : Word),
    let zero := fun k => (s.mem.read (k % 256)).toNat
    effectiveAddress (.zp n) s = .ok (BitVec.ofNat 16 n.toNat) s ∧
    effectiveAddress (.zpx n) s = .ok (BitVec.ofNat 16 ((n.toNat + s.x.toNat) % 256)) s ∧
    effectiveAddress (.zpy n) s = .ok (BitVec.ofNat 16 ((n.toNat + s.y.toNat) % 256)) s ∧
    effectiveAddress (.abs a) s = .ok a s ∧
    effectiveAddress (.abx a) s = .ok (BitVec.ofNat 16 (a.toNat + s.x.toNat)) s ∧
    effectiveAddress (.aby a) s = .ok (BitVec.ofNat 16 (a.toNat + s.y.toNat)) s ∧
    effectiveAddress (.izx n) s =
      .ok (BitVec.ofNat 16 (zero (n.toNat + s.x.toNat) + 256 * zero (n.toNat + s.x.toNat + 1))) s ∧
    effectiveAddress (.izy n) s =
      .ok (BitVec.ofNat 16 (zero n.toNat + 256 * zero (n.toNat + 1) + s.y.toNat)) s

/-- Reading an operand: an immediate byte is itself; a memory operand is the bus read at the effective address; and no
register and no byte of memory changes (20_memory.md R91). That an immediate operand reads nothing here, its byte
having come with the instruction, is the model's reading (log entry 11): the spec has the executor make that read. -/
def Obligations.OperandRead : Prop :=
  ∀ (s : State) (v : Byte) (m : MemMode) (ea : Word), effectiveAddress m s = .ok ea s →
    readSource (.imm v) s = .ok v s ∧ readSource (.mem m) s = memRead ea s ∧ readMem m s = memRead ea s ∧
    (∀ w u, memRead ea s = .ok w u → OnlyRegs [] s u ∧ SameMemory s u) ∧
    (∀ c u, memRead ea s = .fatal c u → u = s)

/-- ADC (41_arithmetic_logic_compare.md R170). -/
def Obligations.AdcResult : Prop :=
  ∀ (o : Source) (s u : State) (m : Byte), readSource o s = .ok m u →
    let sum := s.a.toNat + m.toNat + (s.p.getLsbD 0).toNat
    let r : Byte := BitVec.ofNat 8 sum
    ∃ t, exec (.adc o) s = .next t ∧ t.a = r ∧ ShowsNZ r t ∧
      t.p.getLsbD 0 = decide (256 ≤ sum) ∧
      t.p.getLsbD 6 = (~~~(s.a ^^^ m) &&& (s.a ^^^ r)).getLsbD 7 ∧
      OnlyFlags [0, 1, 6, 7] s t ∧ OnlyRegs [.a, .p] s t ∧ SameMemory s t ∧ SameDevices u t

/-- SBC (41_arithmetic_logic_compare.md R171). -/
def Obligations.SbcResult : Prop :=
  ∀ (o : Source) (s u : State) (m : Byte), readSource o s = .ok m u →
    let borrow := 1 - (s.p.getLsbD 0).toNat
    let r : Byte := s.a - m - BitVec.ofNat 8 borrow
    ∃ t, exec (.sbc o) s = .next t ∧ t.a = r ∧ ShowsNZ r t ∧
      t.p.getLsbD 0 = decide (m.toNat + borrow ≤ s.a.toNat) ∧
      t.p.getLsbD 6 = ((s.a ^^^ m) &&& (s.a ^^^ r)).getLsbD 7 ∧
      OnlyFlags [0, 1, 6, 7] s t ∧ OnlyRegs [.a, .p] s t ∧ SameMemory s t ∧ SameDevices u t

/-- The undocumented SBC duplicate is SBC immediate in every respect (46_undocumented.md R289). -/
def Obligations.SbcDuplicateIsSbcImmediate : Prop :=
  decode [0xEB, 0x01] = .ok (.sbcU 0x01, []) ∧
  ∀ (v : Byte) (s : State), encode (.sbcU v) = some [0xEB, v] ∧
    ∃ t, exec (.sbcU v) s = .next t ∧ exec (.sbc (.imm v)) s = .next t ∧
      t.a = s.a - v - BitVec.ofNat 8 (1 - (s.p.getLsbD 0).toNat)

/-- AND, ORA, EOR (41_arithmetic_logic_compare.md R172 to R174). -/
def Obligations.LogicResult : Prop :=
  ∀ (o : Source) (s u : State) (m r : Byte) (i : Instr), readSource o s = .ok m u →
    ((i = .and o ∧ r = s.a &&& m) ∨ (i = .ora o ∧ r = s.a ||| m) ∨ (i = .eor o ∧ r = s.a ^^^ m)) →
    ∃ t, exec i s = .next t ∧ t.a = r ∧ ShowsNZ r t ∧
      OnlyFlags [1, 7] s t ∧ OnlyRegs [.a, .p] s t ∧ SameMemory s t ∧ SameDevices u t

/-- BIT (41_arithmetic_logic_compare.md R175). -/
def Obligations.BitResult : Prop :=
  ∀ (m : MemMode) (s u : State) (v : Byte), readMem m s = .ok v u →
    ∃ t, exec (.bit m) s = .next t ∧ t.p.getLsbD 1 = decide (s.a &&& v = 0) ∧
      t.p.getLsbD 7 = v.getLsbD 7 ∧ t.p.getLsbD 6 = v.getLsbD 6 ∧
      OnlyFlags [1, 6, 7] s t ∧ OnlyRegs [.p] s t ∧ SameMemory s t ∧ SameDevices u t

/-- CMP, CPX, CPY (41_arithmetic_logic_compare.md R176 to R178). -/
def Obligations.CompareResult : Prop :=
  ∀ (o : Source) (s u : State) (m reg : Byte) (i : Instr), readSource o s = .ok m u →
    ((i = .cmp o ∧ reg = s.a) ∨ (i = .cpx o ∧ reg = s.x) ∨ (i = .cpy o ∧ reg = s.y)) →
    ∃ t, exec i s = .next t ∧ t.p.getLsbD 0 = decide (m.toNat ≤ reg.toNat) ∧
      t.p.getLsbD 1 = decide (reg = m) ∧ t.p.getLsbD 7 = (reg - m).getLsbD 7 ∧
      OnlyFlags [0, 1, 7] s t ∧ OnlyRegs [.p] s t ∧ SameMemory s t ∧ SameDevices u t

/-- ASL, LSR, ROL, ROR of the accumulator (42_shift_rotate_incdec.md R190 to R193): no bus access. -/
def Obligations.ShiftAccumulatorResult : Prop :=
  ∀ (s : State) (i : Instr) (r : Byte) (c : Bool),
    ((i = .asl .acc ∧ r = BitVec.ofNat 8 (2 * s.a.toNat) ∧ c = s.a.getLsbD 7) ∨
     (i = .lsr .acc ∧ r = BitVec.ofNat 8 (s.a.toNat / 2) ∧ c = s.a.getLsbD 0) ∨
     (i = .rol .acc ∧ r = BitVec.ofNat 8 (2 * s.a.toNat + (s.p.getLsbD 0).toNat) ∧ c = s.a.getLsbD 7) ∨
     (i = .ror .acc ∧ r = BitVec.ofNat 8 (s.a.toNat / 2 + 128 * (s.p.getLsbD 0).toNat) ∧ c = s.a.getLsbD 0)) →
    ∃ t, exec i s = .next t ∧ t.a = r ∧ t.p.getLsbD 0 = c ∧ ShowsNZ r t ∧
      OnlyFlags [0, 1, 7] s t ∧ OnlyRegs [.a, .p] s t ∧ SameMemory s t ∧ SameDevices s t

/-- ASL, LSR, ROL, ROR of a byte in memory: one read and one write of it (42_shift_rotate_incdec.md R190 to R193,
R200). -/
def Obligations.ShiftMemoryResult : Prop :=
  ∀ (m : MemMode) (s u w : State) (ea : Word) (v r : Byte) (c : Bool) (i : Instr),
    effectiveAddress m s = .ok ea s → memRead ea s = .ok v u → memWrite ea r u = .ok () w →
    ((i = .asl (.mem m) ∧ r = BitVec.ofNat 8 (2 * v.toNat) ∧ c = v.getLsbD 7) ∨
     (i = .lsr (.mem m) ∧ r = BitVec.ofNat 8 (v.toNat / 2) ∧ c = v.getLsbD 0) ∨
     (i = .rol (.mem m) ∧ r = BitVec.ofNat 8 (2 * v.toNat + (s.p.getLsbD 0).toNat) ∧ c = v.getLsbD 7) ∨
     (i = .ror (.mem m) ∧ r = BitVec.ofNat 8 (v.toNat / 2 + 128 * (s.p.getLsbD 0).toNat) ∧ c = v.getLsbD 0)) →
    ∃ t, exec i s = .next t ∧ t.p.getLsbD 0 = c ∧ ShowsNZ r t ∧
      OnlyFlags [0, 1, 7] s t ∧ OnlyRegs [.p] s t ∧ StoresOnly ea r s t ∧ SameDevices w t

/-- INC and DEC (42_shift_rotate_incdec.md R194, R195): the byte wraps, C and V are not written. -/
def Obligations.IncDecMemoryResult : Prop :=
  ∀ (m : MemMode) (s u w : State) (ea : Word) (v r : Byte) (i : Instr),
    effectiveAddress m s = .ok ea s → memRead ea s = .ok v u → memWrite ea r u = .ok () w →
    ((i = .inc m ∧ r = BitVec.ofNat 8 (v.toNat + 1)) ∨ (i = .dec m ∧ r = BitVec.ofNat 8 (v.toNat + 255))) →
    ∃ t, exec i s = .next t ∧ ShowsNZ r t ∧
      OnlyFlags [1, 7] s t ∧ OnlyRegs [.p] s t ∧ StoresOnly ea r s t ∧ SameDevices w t

/-- INX, INY, DEX, DEY (42_shift_rotate_incdec.md R196 to R199). -/
def Obligations.IncDecRegisterResult : Prop :=
  (encode .inx = some [0xE8] ∧ encode .iny = some [0xC8] ∧ encode .dex = some [0xCA] ∧ encode .dey = some [0x88]) ∧
  ∀ (s : State) (i : Instr) (g : Reg) (r : Byte),
    ((i = .inx ∧ g = .x ∧ r = BitVec.ofNat 8 (s.x.toNat + 1)) ∨
     (i = .iny ∧ g = .y ∧ r = BitVec.ofNat 8 (s.y.toNat + 1)) ∨
     (i = .dex ∧ g = .x ∧ r = BitVec.ofNat 8 (s.x.toNat + 255)) ∨
     (i = .dey ∧ g = .y ∧ r = BitVec.ofNat 8 (s.y.toNat + 255))) →
    ∃ t, exec i s = .next t ∧ t.reg g = zext16 r ∧ ShowsNZ r t ∧
      OnlyFlags [1, 7] s t ∧ OnlyRegs [g, .p] s t ∧ SameMemory s t ∧ SameDevices s t

/-- The eight branches (43_branch_jump_subroutine.md R210 to R217, R224): PC gets the address after the instruction
plus the signed offset when the flag has the mnemonic's value; nothing else changes. -/
def Obligations.BranchResult : Prop :=
  ∀ (s : State) (o : Byte) (i : Instr) (bit : Nat) (taken : Bool),
    ((i = .bpl o ∧ bit = 7 ∧ taken = false) ∨ (i = .bmi o ∧ bit = 7 ∧ taken = true) ∨
     (i = .bvc o ∧ bit = 6 ∧ taken = false) ∨ (i = .bvs o ∧ bit = 6 ∧ taken = true) ∨
     (i = .bcc o ∧ bit = 0 ∧ taken = false) ∨ (i = .bcs o ∧ bit = 0 ∧ taken = true) ∨
     (i = .bne o ∧ bit = 1 ∧ taken = false) ∨ (i = .beq o ∧ bit = 1 ∧ taken = true)) →
    exec i s =
      .next { s with
        pc := if s.p.getLsbD bit = taken then BitVec.ofInt 16 (s.pc.toNat + o.toInt) else s.pc }

/-- JMP (43_branch_jump_subroutine.md R218): the absolute form; and the indirect form, whose second pointer byte comes
from the same page (40_dispatch_addressing.md R154). -/
def Obligations.JmpResult : Prop :=
  (∀ (s : State) (a : Word), exec (.jmp (.abs a)) s = .next { s with pc := a }) ∧
  ∀ (s u w : State) (p : Word) (lo hi : Byte),
    memRead p s = .ok lo u →
    memRead (BitVec.ofNat 16 (p.toNat / 256 * 256 + (p.toNat + 1) % 256)) u = .ok hi w →
    exec (.jmp (.ind p)) s = .next { w with pc := BitVec.ofNat 16 (lo.toNat + 256 * hi.toNat) }

/-- JSR (43_branch_jump_subroutine.md R219) and RTS (R220): the address of the call's last byte goes to the stack,
high byte first; the return goes one past it. -/
def Obligations.SubroutineResult : Prop :=
  (∀ (s : State) (a : Word),
    let r := (s.pc.toNat + 65535) % 65536
    ∃ t, exec (.jsr a) s = .next t ∧ t.pc = a ∧ t.sp = BitVec.ofNat 8 (s.sp.toNat + 254) ∧
      t.peek (stackAt s.sp) = some (BitVec.ofNat 8 (r / 256)) ∧
      t.peek (stackAt (s.sp - 1)) = some (BitVec.ofNat 8 (r % 256)) ∧
      (∀ b, memKey b ≠ memKey (stackAt s.sp) → memKey b ≠ memKey (stackAt (s.sp - 1)) → t.peek b = s.peek b) ∧
      OnlyRegs [.pc, .sp] s t ∧ SameDevices s t) ∧
  ∀ (s : State) (lo hi : Byte), s.peek (stackAt (s.sp + 1)) = some lo → s.peek (stackAt (s.sp + 2)) = some hi →
    exec .rts s =
      .next { s with
        pc := BitVec.ofNat 16 (lo.toNat + 256 * hi.toNat + 1), sp := BitVec.ofNat 8 (s.sp.toNat + 2) }

/-- A call followed at once by a return resumes after the call with the stack pointer as it was
(43_branch_jump_subroutine.md R220). -/
def Obligations.CallThenReturn : Prop :=
  ∀ (s : State) (a : Word), ∃ t u, exec (.jsr a) s = .next t ∧ exec .rts (t.setPc (a + 1)) = .next u ∧
    u.pc = s.pc ∧ u.sp = s.sp ∧ OnlyRegs [] s u ∧ SameDevices s u

/-- RTI (43_branch_jump_subroutine.md R221). -/
def Obligations.RtiResult : Prop :=
  ∀ (s : State) (v lo hi : Byte), s.peek (stackAt (s.sp + 1)) = some v →
    s.peek (stackAt (s.sp + 2)) = some lo → s.peek (stackAt (s.sp + 3)) = some hi →
    exec .rti s =
      .next { s with
        p := (v ||| 0x20) &&& 0xEF, sp := BitVec.ofNat 8 (s.sp.toNat + 3)
        pc := BitVec.ofNat 16 (lo.toNat + 256 * hi.toNat) }

/-- BRK (43_branch_jump_subroutine.md R222): push the address two past the opcode byte and P with Break and Reserved
set, set I, go to the vector at 0xFFFE. -/
def Obligations.BrkResult : Prop :=
  ∀ (s : State) (lo hi : Byte), s.peek 0xFFFE = some lo → s.peek 0xFFFF = some hi →
    let r := (s.pc.toNat + 1) % 65536
    ∃ t, exec .brk s = .next t ∧
      t.peek (stackAt s.sp) = some (BitVec.ofNat 8 (r / 256)) ∧
      t.peek (stackAt (s.sp - 1)) = some (BitVec.ofNat 8 (r % 256)) ∧
      t.peek (stackAt (s.sp - 2)) = some (s.p ||| 0x30) ∧
      (∀ b, memKey b ≠ memKey (stackAt s.sp) → memKey b ≠ memKey (stackAt (s.sp - 1)) →
        memKey b ≠ memKey (stackAt (s.sp - 2)) → t.peek b = s.peek b) ∧
      t.sp = BitVec.ofNat 8 (s.sp.toNat + 253) ∧ t.pc = BitVec.ofNat 16 (lo.toNat + 256 * hi.toNat) ∧
      t.p.getLsbD 2 = true ∧ OnlyFlags [2] s t ∧ OnlyRegs [.pc, .sp, .p] s t ∧ SameDevices s t

/-- The frame event (60_exceptions.md R401): the vertical-blank flag is set; with the enable bit set, the NMI hook
(R390) pushes PC and P with Reserved set and Break as it stands, sets I and goes to the vector at 0xFFFA, whatever
`P.I` is (R389). -/
def Obligations.FrameEventResult : Prop :=
  ∀ (s : State) (rest : List Turn) (lo hi : Byte), s.halted = .running → s.agenda = .host .frameEvent :: rest →
    s.peek 0xFFFA = some lo → s.peek 0xFFFB = some hi →
    let flagged := { s.ppu with status := s.ppu.status ||| 0x80 }
    (s.ppu.ctrl.getLsbD 7 = false → step s = .next { s with ppu := flagged, agenda := rest }) ∧
    (s.ppu.ctrl.getLsbD 7 = true →
      ∃ t, step s = .next t ∧
        t.peek (stackAt s.sp) = some (BitVec.ofNat 8 (s.pc.toNat / 256)) ∧
        t.peek (stackAt (s.sp - 1)) = some (BitVec.ofNat 8 (s.pc.toNat % 256)) ∧
        t.peek (stackAt (s.sp - 2)) = some (s.p ||| 0x20) ∧
        (∀ b, memKey b ≠ memKey (stackAt s.sp) → memKey b ≠ memKey (stackAt (s.sp - 1)) →
          memKey b ≠ memKey (stackAt (s.sp - 2)) → t.peek b = s.peek b) ∧
        t.sp = BitVec.ofNat 8 (s.sp.toNat + 253) ∧ t.pc = BitVec.ofNat 16 (lo.toNat + 256 * hi.toNat) ∧
        t.p.getLsbD 2 = true ∧ OnlyFlags [2] s t ∧
        OnlyRegs [.pc, .sp, .p] (s.setAgenda rest) t ∧ t.ppu = flagged ∧ t.ctl = s.ctl)

/-- RTI at once after an entry resumes where the entry's return address says, with the stack pointer as it was and P
with Reserved set and Break clear: two past the opcode for BRK, the next instruction for the hook
(60_exceptions.md R394, 43_branch_jump_subroutine.md R221, R222). -/
def Obligations.InterruptThenRti : Prop :=
  ∀ s : State,
    (∃ t u, exec .brk s = .next t ∧ exec .rti t = .next u ∧ u.pc = s.pc + 1 ∧ u.sp = s.sp ∧
      u.p = (s.p ||| 0x20) &&& 0xEF ∧ OnlyRegs [.pc, .p] s u) ∧
    (∃ t u, (nmiHook s).finish = .next t ∧ exec .rti t = .next u ∧ u.pc = s.pc ∧ u.sp = s.sp ∧
      u.p = (s.p ||| 0x20) &&& 0xEF ∧ OnlyRegs [.p] s u)

/-- NOP changes nothing but PC, which the fetch has moved; an undocumented NOP makes no access to its operand address
(43_branch_jump_subroutine.md R223, 46_undocumented.md R288). -/
def Obligations.NopChangesNothing : Prop :=
  ∀ (s : State) (op : Byte) (o : NopOperand), exec .nop s = .next s ∧ exec (.nopU op o) s = .next s

/-- PHA and PHP (44_stack_flags.md R240, R242). -/
def Obligations.PushResult : Prop :=
  (encode .pha = some [0x48] ∧ encode .php = some [0x08]) ∧
  ∀ (s : State) (i : Instr) (v : Byte), ((i = .pha ∧ v = s.a) ∨ (i = .php ∧ v = s.p ||| 0x30)) →
    ∃ t, exec i s = .next t ∧ t.sp = BitVec.ofNat 8 (s.sp.toNat + 255) ∧ StoresOnly (stackAt s.sp) v s t ∧
      OnlyRegs [.sp] s t ∧ SameDevices s t

/-- PLA (44_stack_flags.md R241) and PLP (R243). -/
def Obligations.PullResult : Prop :=
  (encode .pla = some [0x68] ∧ encode .plp = some [0x28]) ∧
  ∀ (s : State) (v : Byte), s.peek (stackAt (s.sp + 1)) = some v →
    (∃ t, exec .pla s = .next t ∧ t.a = v ∧ t.sp = BitVec.ofNat 8 (s.sp.toNat + 1) ∧ ShowsNZ v t ∧
      OnlyFlags [1, 7] s t ∧ OnlyRegs [.a, .sp, .p] s t ∧ SameMemory s t ∧ SameDevices s t) ∧
    exec .plp s = .next { s with p := (v ||| 0x20) &&& 0xEF, sp := BitVec.ofNat 8 (s.sp.toNat + 1) }

/-- The seven flag instructions (44_stack_flags.md R244 to R250): one bit of P, and nothing else. -/
def Obligations.FlagInstructionResult : Prop :=
  (encode .clc = some [0x18] ∧ encode .sec = some [0x38] ∧ encode .cli = some [0x58] ∧ encode .sei = some [0x78] ∧
    encode .clv = some [0xB8] ∧ encode .cld = some [0xD8] ∧ encode .sed = some [0xF8]) ∧
  ∀ (s : State) (i : Instr) (bit : Nat) (b : Bool),
    ((i = .clc ∧ bit = 0 ∧ b = false) ∨ (i = .sec ∧ bit = 0 ∧ b = true) ∨ (i = .cli ∧ bit = 2 ∧ b = false) ∨
     (i = .sei ∧ bit = 2 ∧ b = true) ∨ (i = .clv ∧ bit = 6 ∧ b = false) ∨ (i = .cld ∧ bit = 3 ∧ b = false) ∨
     (i = .sed ∧ bit = 3 ∧ b = true)) →
    ∃ t, exec i s = .next t ∧ t = { s with p := t.p } ∧ t.p.getLsbD bit = b ∧ OnlyFlags [bit] s t

/-- LDA, LDX, LDY (45_load_store_transfer.md R260 to R262) and LAX (46_undocumented.md R285). -/
def Obligations.LoadResult : Prop :=
  (∀ (o : Source) (s u : State) (m : Byte) (i : Instr) (g : Reg), readSource o s = .ok m u →
    ((i = .lda o ∧ g = .a) ∨ (i = .ldx o ∧ g = .x) ∨ (i = .ldy o ∧ g = .y)) →
    ∃ t, exec i s = .next t ∧ t.reg g = zext16 m ∧ ShowsNZ m t ∧
      OnlyFlags [1, 7] s t ∧ OnlyRegs [g, .p] s t ∧ SameMemory s t ∧ SameDevices u t) ∧
  ∀ (m : MemMode) (s u : State) (v : Byte), readMem m s = .ok v u →
    ∃ t, exec (.lax m) s = .next t ∧ t.a = v ∧ t.x = v ∧ ShowsNZ v t ∧
      OnlyFlags [1, 7] s t ∧ OnlyRegs [.a, .x, .p] s t ∧ SameMemory s t ∧ SameDevices u t

/-- STA, STX, STY (45_load_store_transfer.md R263 to R265) and SAX (46_undocumented.md R284): one write, no read of
the target, no flag. -/
def Obligations.StoreResult : Prop :=
  ∀ (m : MemMode) (s w : State) (ea : Word) (v : Byte) (i : Instr),
    effectiveAddress m s = .ok ea s → memWrite ea v s = .ok () w →
    ((i = .sta m ∧ v = s.a) ∨ (i = .stx m ∧ v = s.x) ∨ (i = .sty m ∧ v = s.y) ∨ (i = .sax m ∧ v = s.a &&& s.x)) →
    exec i s = .next w ∧ OnlyRegs [] s w ∧ StoresOnly ea v s w

/-- TAX, TAY, TXA, TYA, TSX set Z and N; TXS sets no flag (45_load_store_transfer.md R266 to R271). -/
def Obligations.TransferResult : Prop :=
  (encode .tax = some [0xAA] ∧ encode .tay = some [0xA8] ∧ encode .txa = some [0x8A] ∧ encode .tya = some [0x98] ∧
    encode .tsx = some [0xBA] ∧ encode .txs = some [0x9A]) ∧
  (∀ (s : State) (i : Instr) (g : Reg) (v : Byte),
    ((i = .tax ∧ g = .x ∧ v = s.a) ∨ (i = .tay ∧ g = .y ∧ v = s.a) ∨ (i = .txa ∧ g = .a ∧ v = s.x) ∨
     (i = .tya ∧ g = .a ∧ v = s.y) ∨ (i = .tsx ∧ g = .x ∧ v = s.sp)) →
    ∃ t, exec i s = .next t ∧ t.reg g = zext16 v ∧ ShowsNZ v t ∧
      OnlyFlags [1, 7] s t ∧ OnlyRegs [g, .p] s t ∧ SameMemory s t ∧ SameDevices s t) ∧
  ∀ s : State, exec .txs s = .next { s with sp := s.x }

/-- SLO, RLA, SRE (46_undocumented.md R280 to R282): the memory byte shifted, A combined with it; C from the shift,
Z and N from the new A. -/
def Obligations.CombinedShiftResult : Prop :=
  ∀ (m : MemMode) (s u w : State) (ea : Word) (v r a : Byte) (c : Bool) (i : Instr),
    effectiveAddress m s = .ok ea s → memRead ea s = .ok v u → memWrite ea r u = .ok () w →
    ((i = .slo m ∧ r = BitVec.ofNat 8 (2 * v.toNat) ∧ c = v.getLsbD 7 ∧ a = s.a ||| r) ∨
     (i = .rla m ∧ r = BitVec.ofNat 8 (2 * v.toNat + (s.p.getLsbD 0).toNat) ∧ c = v.getLsbD 7 ∧ a = s.a &&& r) ∨
     (i = .sre m ∧ r = BitVec.ofNat 8 (v.toNat / 2) ∧ c = v.getLsbD 0 ∧ a = s.a ^^^ r)) →
    ∃ t, exec i s = .next t ∧ t.a = a ∧ t.p.getLsbD 0 = c ∧ ShowsNZ a t ∧
      OnlyFlags [0, 1, 7] s t ∧ OnlyRegs [.a, .p] s t ∧ StoresOnly ea r s t ∧ SameDevices w t

/-- RRA, ISB, DCP (46_undocumented.md R283, R286, R287): RRA adds the rotated byte with the bit the rotate shifted out
as carry, ISB subtracts the incremented byte, DCP compares A with the decremented byte. -/
def Obligations.CombinedArithmeticResult : Prop :=
  ∀ (m : MemMode) (s u w : State) (ea : Word) (v r : Byte),
    effectiveAddress m s = .ok ea s → memRead ea s = .ok v u → memWrite ea r u = .ok () w →
    (r = BitVec.ofNat 8 (v.toNat / 2 + 128 * (s.p.getLsbD 0).toNat) →
      let sum := s.a.toNat + r.toNat + v.toNat % 2
      let q : Byte := BitVec.ofNat 8 sum
      ∃ t, exec (.rra m) s = .next t ∧ t.a = q ∧ ShowsNZ q t ∧ t.p.getLsbD 0 = decide (256 ≤ sum) ∧
        t.p.getLsbD 6 = (~~~(s.a ^^^ r) &&& (s.a ^^^ q)).getLsbD 7 ∧
        OnlyFlags [0, 1, 6, 7] s t ∧ OnlyRegs [.a, .p] s t ∧ StoresOnly ea r s t ∧ SameDevices w t) ∧
    (r = BitVec.ofNat 8 (v.toNat + 1) →
      let borrow := 1 - (s.p.getLsbD 0).toNat
      let q : Byte := s.a - r - BitVec.ofNat 8 borrow
      ∃ t, exec (.isb m) s = .next t ∧ t.a = q ∧ ShowsNZ q t ∧
        t.p.getLsbD 0 = decide (r.toNat + borrow ≤ s.a.toNat) ∧
        t.p.getLsbD 6 = ((s.a ^^^ r) &&& (s.a ^^^ q)).getLsbD 7 ∧
        OnlyFlags [0, 1, 6, 7] s t ∧ OnlyRegs [.a, .p] s t ∧ StoresOnly ea r s t ∧ SameDevices w t) ∧
    (r = BitVec.ofNat 8 (v.toNat + 255) →
      ∃ t, exec (.dcp m) s = .next t ∧ t.p.getLsbD 0 = decide (r.toNat ≤ s.a.toNat) ∧
        t.p.getLsbD 1 = decide (s.a = r) ∧ t.p.getLsbD 7 = (s.a - r).getLsbD 7 ∧
        OnlyFlags [0, 1, 7] s t ∧ OnlyRegs [.p] s t ∧ StoresOnly ea r s t ∧ SameDevices w t)

/-- A halting opcode (46_undocumented.md R290, 60_exceptions.md R381): exactly the 25 bytes decode to one, with length
1; the step records the byte and its address, PC is one past it, and nothing else changes (60_exceptions.md R387). That
this holds for a byte fetched from a device register too is the model's reading (log entry 22). -/
def Obligations.HaltingOpcodeHaltsExactly : Prop :=
  (∀ (op : Byte) (rest : List Byte), decode (op :: rest) = .ok (.hlt op, rest) ↔
    op ∈ ([0x02, 0x12, 0x22, 0x32, 0x42, 0x52, 0x62, 0x72, 0x92, 0xB2, 0xD2, 0xF2, 0x0B, 0x2B, 0x4B, 0x6B, 0x8B, 0xAB,
      0xCB, 0x93, 0x9F, 0x9C, 0x9E, 0x9B, 0xBB] : List Byte)) ∧
  (∀ (op : Byte) (s : State),
    exec (.hlt op) s = .next { s with halted := .halted (.unknownOpcode op (s.pc - 1)) }) ∧
  ∀ (op : Byte) (s t : State), s.halted = .running → s.agenda = [] → memRead s.pc s = .ok op t →
    decode [op] = .ok (.hlt op, []) →
    step s = .next { s with pc := s.pc + 1, halted := .halted (.unknownOpcode op s.pc) }

/-- Work RAM, save memory and program banks (20_memory.md R72, R76, R77): a read has no side effect, a write to RAM or
save memory completes and shows at every mirror. -/
def Obligations.PlainMemoryAccess : Prop :=
  ∀ (a b : Word) (v : Byte) (s : State),
    (a.toNat < 0x2000 → memKey a = some (a.toNat % 0x0800)) ∧
    (0x6000 ≤ a.toNat → memKey a = some a.toNat) ∧
    (a.toNat < 0x2000 ∨ 0x6000 ≤ a.toNat → ∃ w, s.peek a = some w ∧ memRead a s = .ok w s) ∧
    (a.toNat < 0x2000 ∨ (0x6000 ≤ a.toNat ∧ a.toNat < 0x8000) →
      ∃ t, memWrite a v s = .ok () t ∧ StoresOnly a v s t ∧ OnlyRegs [] s t ∧ SameDevices s t ∧
        (memKey b = memKey a → memRead b t = .ok v t))

/-- The expansion region (20_memory.md R75, 60_exceptions.md R382): every read and every write there is fatal, with
address and direction, and changes nothing. So an opcode fetch there, an instruction that reads or writes its operand
there, in any mode, and an indirect jump whose pointer's first or second byte lies there, halt the machine. -/
def Obligations.ExpansionAccessHalts : Prop :=
  ∀ (a : Word) (v : Byte) (s : State), 0x4020 ≤ a.toNat → a.toNat < 0x6000 →
    let halts := fun (o : Host.Outcome State Fault Refusal) (d : Direction) => ∃ t, o = .next t ∧
      t.halted = .halted (.expansionAccess a d) ∧ t.mem = s.mem ∧ SameDevices s t
    memRead a s = .fatal (.expansionAccess a .read) s ∧ memWrite a v s = .fatal (.expansionAccess a .write) s ∧
    (s.halted = .running → s.agenda = [] → s.pc = a → halts (step s) .read) ∧
    (∀ m : MemMode, effectiveAddress m s = .ok a s →
      (∀ i ∈ readersAt m ++ modifiersAt m, halts (exec i s) .read) ∧
      (∀ i ∈ storesAt m, halts (exec i s) .write)) ∧
    halts (exec (.jmp (.ind a)) s) .read ∧
    (a = 0x4020 → halts (exec (.jmp (.ind 0x401F)) s) .read)

/-- A write to a program bank (20_memory.md R78, 60_exceptions.md R383): the bus write itself is fatal with address and
value and changes nothing; so every store there, and the write half of every read-modify-write, halts the machine with
that cause; nothing is stored. -/
def Obligations.ProgramBankWriteHalts : Prop :=
  ∀ (m : MemMode) (s : State) (ea : Word) (v : Byte), 0x8000 ≤ ea.toNat →
    (∀ w, memWrite ea w s = .fatal (.programBankWrite ea w) s) ∧
    (effectiveAddress m s = .ok ea s → s.peek ea = some v →
      let halts := fun (i : Instr) (w : Byte) => ∃ t, exec i s = .next t ∧
        t.halted = .halted (.programBankWrite ea w) ∧ t.mem = s.mem ∧ SameDevices s t
      let carry := (s.p.getLsbD 0).toNat
      (halts (.sta m) s.a ∧ halts (.stx m) s.x ∧ halts (.sty m) s.y ∧ halts (.sax m) (s.a &&& s.x)) ∧
      (∀ i ∈ [Instr.asl (.mem m), .slo m], halts i (BitVec.ofNat 8 (2 * v.toNat))) ∧
      (∀ i ∈ [Instr.lsr (.mem m), .sre m], halts i (BitVec.ofNat 8 (v.toNat / 2))) ∧
      (∀ i ∈ [Instr.rol (.mem m), .rla m], halts i (BitVec.ofNat 8 (2 * v.toNat + carry))) ∧
      (∀ i ∈ [Instr.ror (.mem m), .rra m], halts i (BitVec.ofNat 8 (v.toNat / 2 + 128 * carry))) ∧
      (∀ i ∈ [Instr.inc m, .isb m], halts i (BitVec.ofNat 8 (v.toNat + 1))) ∧
      (∀ i ∈ [Instr.dec m, .dcp m], halts i (BitVec.ofNat 8 (v.toNat + 255))))

/-- Direction faults of the picture unit (60_exceptions.md R384, R387, 48_bus_devices.md R311): at every image, a read of
register 0, 1, 3, 5 or 6 and a write of register 2 are fatal and change nothing, and no other access of the port is
fatal. An instruction or an opcode fetch that makes such an access halts with it, and the accesses before it keep their
effect: a read-modify-write of register 2 has cleared the flag and the toggle; an indirect jump halts at its first read
where that is one of a write-only register, else (registers 2, 4 and 7) at its second, with the first one made. -/
def Obligations.PpuDirectionFaults : Prop :=
  (∀ (a : Word) (v : Byte) (s : State), 0x2000 ≤ a.toNat → a.toNat < 0x4000 →
    (if a.toNat % 8 = 2 ∨ a.toNat % 8 = 4 ∨ a.toNat % 8 = 7 then ∃ w t, memRead a s = .ok w t
     else memRead a s = .fatal (.ppuPortDirection .read a) s ∧
      (s.halted = .running → s.agenda = [] → s.pc = a → ∃ t, step s = .next t ∧
        t.halted = .halted (.ppuPortDirection .read a) ∧ t.mem = s.mem ∧ SameDevices s t)) ∧
    (if a.toNat % 8 = 2 then memWrite a v s = .fatal (.ppuPortDirection .write a) s
     else ∃ t, memWrite a v s = .ok () t)) ∧
  (∀ (m : MemMode) (s : State) (ea : Word), effectiveAddress m s = .ok ea s → 0x2000 ≤ ea.toNat → ea.toNat < 0x4000 →
    let halts := fun (i : Instr) (d : Direction) (u : State) => ∃ t, exec i s = .next t ∧
      t.halted = .halted (.ppuPortDirection d ea) ∧ t.mem = s.mem ∧ SameDevices u t
    (¬(ea.toNat % 8 = 2 ∨ ea.toNat % 8 = 4 ∨ ea.toNat % 8 = 7) → ∀ i ∈ readersAt m ++ modifiersAt m, halts i .read s) ∧
    (ea.toNat % 8 = 2 → (∀ i ∈ storesAt m, halts i .write s) ∧
      ∃ u, memRead ea s = .ok s.ppu.status u ∧ u.ppu.status.getLsbD 7 = false ∧ u.ppu.toggle = false ∧
        ∀ i ∈ modifiersAt m, halts i .write u)) ∧
  ∀ (p : Word) (s : State), 0x2000 ≤ p.toNat → p.toNat < 0x4000 →
    let second := BitVec.ofNat 16 (p.toNat / 256 * 256 + (p.toNat + 1) % 256)
    (¬(p.toNat % 8 = 2 ∨ p.toNat % 8 = 4 ∨ p.toNat % 8 = 7) → ∃ t, exec (.jmp (.ind p)) s = .next t ∧
      t.halted = .halted (.ppuPortDirection .read p) ∧ t.mem = s.mem ∧ SameDevices s t) ∧
    (p.toNat % 8 = 2 ∨ p.toNat % 8 = 4 ∨ p.toNat % 8 = 7 → ∃ lo u t, memRead p s = .ok lo u ∧
      exec (.jmp (.ind p)) s = .next t ∧ t.halted = .halted (.ppuPortDirection .read second) ∧ t.mem = s.mem ∧
      SameDevices u t)

/-- Writes of the picture-unit registers 0, 1, 3, 5 and 6 (48_bus_devices.md R312, R313, R315, R318, R319). -/
def Obligations.PpuRegisterWrites : Prop :=
  ∀ (a : Word) (v : Byte) (s : State), 0x2000 ≤ a.toNat → a.toNat < 0x4000 →
    let done := fun u : Ppu => memWrite a v s = .ok () { s with ppu := u }
    (a.toNat % 8 = 0 → done { s.ppu with ctrl := v }) ∧
    (a.toNat % 8 = 1 → done { s.ppu with mask := v }) ∧
    (a.toNat % 8 = 3 → done { s.ppu with oamaddr := v }) ∧
    (a.toNat % 8 = 5 → s.ppu.toggle = false → done { s.ppu with scroll0 := v, toggle := true }) ∧
    (a.toNat % 8 = 5 → s.ppu.toggle = true → done { s.ppu with scroll1 := v, toggle := false }) ∧
    (a.toNat % 8 = 6 → s.ppu.toggle = false →
      done { s.ppu with vaddr := BitVec.ofNat 16 (256 * v.toNat + s.ppu.vaddr.toNat % 256), toggle := true }) ∧
    (a.toNat % 8 = 6 → s.ppu.toggle = true →
      done { s.ppu with vaddr := BitVec.ofNat 16 (s.ppu.vaddr.toNat / 256 * 256 + v.toNat), toggle := false })

/-- A read of the picture-unit status (48_bus_devices.md R314): the flag as it was, bits 6:0 zero in every state the
machine keeps; the flag and the toggle are cleared; a second read finds the flag clear (70_reset_and_hazards.md R442). -/
def Obligations.StatusRead : Prop :=
  ∀ (a : Word) (s : State), 0x2000 ≤ a.toNat → a.toNat < 0x4000 → a.toNat % 8 = 2 →
    ∃ t, memRead a s = .ok s.ppu.status t ∧
      t = { s with ppu := { s.ppu with status := t.ppu.status, toggle := false } } ∧
      (∀ i, t.ppu.status.getLsbD i = (s.ppu.status.getLsbD i && decide (i ≠ 7))) ∧
      (Inv s → s.ppu.status = 0x80 ∨ s.ppu.status = 0x00) ∧
      (Inv s → ∃ u, memRead a t = .ok 0x00 u)

/-- The sprite-memory port (48_bus_devices.md R316, R317): a write stores at the internal address, a read returns the
byte there, and both advance it modulo 256. -/
def Obligations.OamPort : Prop :=
  ∀ (a : Word) (v : Byte) (s : State), 0x2000 ≤ a.toNat → a.toNat < 0x4000 → a.toNat % 8 = 4 →
    let next := BitVec.ofNat 8 (s.ppu.oamaddr.toNat + 1)
    memRead a s = .ok (s.ppu.oam.read s.ppu.oamaddr.toNat) { s with ppu := { s.ppu with oamaddr := next } } ∧
    ∃ t, memWrite a v s = .ok () t ∧ t = { s with ppu := { s.ppu with oam := t.ppu.oam, oamaddr := next } } ∧
      ∀ k, t.ppu.oam.read k = if k = s.ppu.oamaddr.toNat then v else s.ppu.oam.read k

/-- The data port (48_bus_devices.md R320 to R322): a write acts at once, on one palette entry or one byte of one graphics
store and on nothing else but the pointer; a read returns the buffered byte and refills the buffer; both advance the
pointer by 1 or 32; so a second read returns the byte at the first pointer (70_reset_and_hazards.md R430). -/
def Obligations.DataPort : Prop :=
  ∀ (a : Word) (v : Byte) (s : State), 0x2000 ≤ a.toNat → a.toNat < 0x4000 → a.toNat % 8 = 7 →
    let g : GfxAddr := BitVec.ofNat 14 s.ppu.vaddr.toNat
    let next := BitVec.ofNat 16 (s.ppu.vaddr.toNat + if s.ppu.ctrl.getLsbD 2 then 32 else 1)
    let slot := if g.toNat % 32 = 4 ∨ g.toNat % 32 = 8 ∨ g.toNat % 32 = 12 then 0 else g.toNat % 32
    let key := 1024 * s.params.gfxBank.get (Fin.ofNat 16 (g.toNat / 1024)) + g.toNat % 1024
    (∃ t, memWrite a v s = .ok () t ∧
      t = { s with ppu := { s.ppu with gfx := t.ppu.gfx, pal := t.ppu.pal, vaddr := next } } ∧
      (0x3F00 ≤ g.toNat → t.ppu.gfx = s.ppu.gfx ∧
        ∀ (i : Nat) (h : i < 32), t.ppu.pal[i] = if i = slot then BitVec.ofNat 6 v.toNat else s.ppu.pal[i]) ∧
      (g.toNat < 0x3F00 → t.ppu.pal = s.ppu.pal ∧
        ∀ k, t.ppu.gfx.read k = if k = key then v else s.ppu.gfx.read k)) ∧
    ∃ t, memRead a s = .ok s.ppu.readbuf t ∧
      t = { s with ppu := { s.ppu with readbuf := gfxRead s g, vaddr := next } } ∧
      ∃ u, memRead a t = .ok (gfxRead s g) u

/-- Graphics memory (20_memory.md R87, 10_state.md R47, R48): a read after a write gives the byte written where the two
addresses name one byte (windows of one store, palette slots 4, 8 and 12 with slot 0), six bits of it in the palette,
and the old byte elsewhere. -/
def Obligations.GraphicsReadAfterWrite : Prop :=
  ∀ (s : State) (g h : GfxAddr) (v : Byte),
    let slot := fun k : Nat => if k = 4 ∨ k = 8 ∨ k = 12 then 0 else k
    let window := fun k : GfxAddr => s.params.gfxBank.get (Fin.ofNat 16 (k.toNat / 1024))
    gfxRead (s.setPpu (gfxWrite s g v)) h =
      if 0x3F00 ≤ g.toNat ∧ 0x3F00 ≤ h.toNat ∧ slot (g.toNat % 32) = slot (h.toNat % 32) then v &&& 0x3F
      else if g.toNat < 0x3F00 ∧ h.toNat < 0x3F00 ∧ window g = window h ∧ g.toNat % 1024 = h.toNat % 1024 then v
      else gfxRead s h

/-- The controller port (48_bus_devices.md R341, R342): a strobe write takes bit 0 and, when it is 1, sets both indices
to 0; a read of a controller returns line 0 while the strobe is 1, else the indexed line, and advances that index
modulo 8. -/
def Obligations.ControllerPort : Prop :=
  ∀ (v : Byte) (s : State),
    (v.getLsbD 0 = false → memWrite 0x4016 v s = .ok () { s with ctl := { s.ctl with strobe := false } }) ∧
    (v.getLsbD 0 = true → memWrite 0x4016 v s =
      .ok () { s with ctl :=
        { strobe := true, pad0 := { s.ctl.pad0 with index := 0 }, pad1 := { s.ctl.pad1 with index := 0 } } }) ∧
    (s.ctl.strobe = true →
      memRead 0x4016 s = .ok (if s.ctl.pad0.line.get 0 then 1 else 0) s ∧
      memRead 0x4017 s = .ok (if s.ctl.pad1.line.get 0 then 1 else 0) s) ∧
    (s.ctl.strobe = false →
      memRead 0x4016 s = .ok (if s.ctl.pad0.line.get s.ctl.pad0.index then 1 else 0)
        { s with ctl := { s.ctl with pad0 := { s.ctl.pad0 with index := s.ctl.pad0.index + 1 } } } ∧
      memRead 0x4017 s = .ok (if s.ctl.pad1.line.get s.ctl.pad1.index then 1 else 0)
        { s with ctl := { s.ctl with pad1 := { s.ctl.pad1 with index := s.ctl.pad1.index + 1 } } })

/-- After a write of 1 and a write of 0 to the strobe register, any number of reads of a controller gives its lines in
order, with period 8 (48_bus_devices.md R344). -/
def Obligations.ControllerSequence : Prop :=
  ∀ (one zero : Byte) (n : Nat) (s : State), one.getLsbD 0 = true → zero.getLsbD 0 = false →
    ∃ u, ((memWrite 0x4016 one s).bind fun _ s => memWrite 0x4016 zero s) = .ok () u ∧
      (∃ t, repeatRead 0x4016 n u =
        .ok ((List.range n).map fun k => if s.ctl.pad0.line.get (Fin.ofNat 8 k) then 1 else 0) t ∧
        t.ctl.pad1 = u.ctl.pad1) ∧
      (∃ t, repeatRead 0x4017 n u =
        .ok ((List.range n).map fun k => if s.ctl.pad1.line.get (Fin.ofNat 8 k) then 1 else 0) t ∧
        t.ctl.pad0 = u.ctl.pad0)

/-- The other I/O registers (48_bus_devices.md R345): a read returns the parameter MISC_IO_READ (log entry 13; 0 by
default), a write is ignored, and nothing changes. -/
def Obligations.MiscIoRegisters : Prop :=
  ∀ (a : Word) (v : Byte) (s : State), 0x4000 ≤ a.toNat → a.toNat < 0x4020 →
    (a.toNat ≠ 0x4016 → memWrite a v s = .ok () s) ∧
    (a.toNat ≠ 0x4016 → a.toNat ≠ 0x4017 → memRead a s = .ok s.params.miscIoRead s)

/-- Reset (70_reset_and_hazards.md R420): from any state, halted or not, the registers from the parameters, PC from the
vector at 0xFFFC, the picture-unit registers and the controller port's strobe and indices cleared, and nothing else;
and the default parameters. -/
def Obligations.ResetResult : Prop :=
  (∀ (s : State) (rest : List Turn) (lo hi : Byte), s.agenda = .host .reset :: rest →
    s.peek 0xFFFC = some lo → s.peek 0xFFFD = some hi →
    step s = .next { s with
      halted := .running
      a := s.params.resetA, x := s.params.resetX, y := s.params.resetY, sp := s.params.resetSp
      p := s.params.resetP ||| 0x20
      pc := BitVec.ofNat 16 (lo.toNat + 256 * hi.toNat)
      agenda := rest
      ppu :=
        { ctrl := 0, mask := 0, status := 0, oamaddr := 0, oam := s.ppu.oam, scroll0 := 0, scroll1 := 0, vaddr := 0
          toggle := false, readbuf := 0, gfx := s.ppu.gfx, pal := s.ppu.pal, snap := s.ppu.snap }
      ctl :=
        { strobe := false
          pad0 := { index := 0, line := s.ctl.pad0.line }
          pad1 := { index := 0, line := s.ctl.pad1.line } } }) ∧
  Params.default.resetA = 0x00 ∧ Params.default.resetX = 0x00 ∧ Params.default.resetY = 0x00 ∧
  Params.default.resetSp = 0xFD ∧ Params.default.resetP ||| 0x20 = 0x34

/-- The palette snapshot refresh (60_exceptions.md R402, 10_state.md R49): every entry from the master palette, entries
4, 8 and 12 equal to entry 0, and nothing else changes. -/
def Obligations.SnapshotRefreshResult : Prop :=
  ∀ (s : State) (rest : List Turn), s.halted = .running → s.agenda = .host .refreshSnapshot :: rest →
    ∃ t, step s = .next t ∧ t = { s with agenda := rest, ppu := { s.ppu with snap := t.ppu.snap } } ∧
      (∀ (i : Nat) (h : i < 16),
        let slot := if i = 4 ∨ i = 8 ∨ i = 12 then 0 else i
        t.ppu.snap[i] =
          s.params.masterPalette.get (Fin.ofNat 64 (s.ppu.pal.get (Fin.ofNat 32 slot)).toNat)) ∧
      t.ppu.snap[4] = t.ppu.snap[0] ∧ t.ppu.snap[8] = t.ppu.snap[0] ∧ t.ppu.snap[12] = t.ppu.snap[0]

/-- `setControllerLine` (60_exceptions.md R403): one line, neither strobe nor index; other numbers are refused. That it
acts so in a halted state too is the model's reading (log entry 9). -/
def Obligations.SetControllerLineResult : Prop :=
  ∀ (s : State) (rest : List Turn) (c l : Nat) (b : Bool), s.agenda = .host (.setLine c l b) :: rest →
    (c < 2 → l < 8 → ∃ t, step s = .next t ∧
      t = { s with
        agenda := rest
        ctl := { s.ctl with
          pad0 := { s.ctl.pad0 with line := t.ctl.pad0.line }, pad1 := { s.ctl.pad1 with line := t.ctl.pad1.line } } } ∧
      (∀ j (h : j < 8), t.ctl.pad0.line[j] = if c = 0 ∧ j = l then b else s.ctl.pad0.line[j]) ∧
      (∀ j (h : j < 8), t.ctl.pad1.line[j] = if c = 1 ∧ j = l then b else s.ctl.pad1.line[j])) ∧
    (¬(c < 2 ∧ l < 8) → step s = .refused (.noSuchLine c l))

/-- The picture decoder (49_picture_decoder.md R361 to R366): the colour of a pixel from the tile, plane and attribute
bytes; no value outside the screen or with table bases that reach the palette. -/
def Obligations.PixelColorResult : Prop :=
  ∀ (s : State) (x y nt pt : Nat), nt < 0x4000 → pt < 0x4000 →
    let byte := fun k : Nat => (gfxRead s (BitVec.ofNat 14 k)).toNat
    let p := pt + byte (nt + x / 8 + y / 8 * 32) * 16 + y % 8
    let low := byte p / 2 ^ (7 - x % 8) % 2 + 2 * (byte (p + 8) / 2 ^ (7 - x % 8) % 2)
    let high := byte (nt + 0x3C0 + x / 32 + y / 32 * 8) / 2 ^ (2 * (x / 16 % 2) + 4 * (y / 16 % 2)) % 4
    (x < 256 → y < 240 → nt + 0x3FF < 0x3F00 → pt + 0xFFF < 0x3F00 →
      pixelColor x y (BitVec.ofNat 14 nt) (BitVec.ofNat 14 pt) s =
        some (s.ppu.snap.get (Fin.ofNat 16 (4 * high + low)))) ∧
    (¬(x < 256 ∧ y < 240 ∧ nt + 0x3FF < 0x3F00 ∧ pt + 0xFFF < 0x3F00) →
      pixelColor x y (BitVec.ofNat 14 nt) (BitVec.ofNat 14 pt) s = none)

/-- The decoder's result depends on the graphics stores, their windows and the snapshot alone
(49_picture_decoder.md R360, R369): no register, no sprite memory, no palette entry. -/
def Obligations.PixelColorIsPure : Prop :=
  ∀ (s t : State) (x y : Nat) (nt pt : GfxAddr), t.ppu.gfx = s.ppu.gfx → t.params.gfxBank = s.params.gfxBank →
    t.ppu.snap = s.ppu.snap → pixelColor x y nt pt t = pixelColor x y nt pt s

/-- A frame (60_exceptions.md R405, 49_picture_decoder.md R368): refused while halted; else a burst of CPU steps, as many
as asked for unless one halts the machine; then the frame event, the snapshot refresh, and a buffer of 61440 colours,
pixel `(x, y)` at index `y * 256 + x`, decoded in the state the frame returns. That bases out of range refuse the frame
before its burst, that a halted burst returns its state with no buffer, and that a frame of no CPU step is not refused,
are the model's (log entry 14). -/
def Obligations.RenderFrameResult : Prop :=
  ∀ (n : Nat) (nt pt : GfxAddr) (s : State),
    (∀ c, s.halted = .halted c → renderFrame n nt pt s = .refused (.whileHalted c)) ∧
    (s.halted = .running → ¬(nt.toNat + 0x3FF < 0x3F00 ∧ pt.toNat + 0xFFF < 0x3F00) →
      renderFrame n nt pt s = .refused .tablesOutOfRange) ∧
    (s.halted = .running → nt.toNat + 0x3FF < 0x3F00 → pt.toNat + 0xFFF < 0x3F00 →
      ∃ (k : Nat) (burst : Nat → State), k ≤ n ∧ burst 0 = s ∧
        (∀ j, j < k → (burst j).halted = .running ∧ Takes .cpu (burst j) (burst (j + 1))) ∧
        ((burst k).halted = .running → k = n ∧
          ∃ u t buffer, Takes (.host .frameEvent) (burst k) u ∧ Takes (.host .refreshSnapshot) u t ∧
            renderFrame n nt pt s = .next { state := t, buffer := some buffer } ∧ buffer.length = 61440 ∧
            ∀ x y, x < 256 → y < 240 → buffer[y * 256 + x]? = pixelColor x y nt pt t) ∧
        ((burst k).halted ≠ .running → renderFrame n nt pt s = .next { state := burst k, buffer := none }))

/-- Construction (60_exceptions.md R385, 10_state.md R37, R47, 70_reset_and_hazards.md R422, R424): refused, with the
field and its value, for a mapper other than 0, a program-bank count other than 1 and 2 or a graphics-bank count above 1;
else the program windows show the program data, 16 KiB of it in both halves, graphics windows 0 to 7 show 8 KiB of
graphics data or, with none, stores of the launch state, bit 0 of flag byte 1 arranges the name tables, and everything
else is the launch state's. The model's choices: which field is named when several are at fault (log entry 21), the
store numbers, the refusal of short program data, what short graphics data leaves, and that surplus data is dropped (log
entry 15). -/
def Obligations.ConstructResult : Prop :=
  ∀ (h : Header) (program graphics : List Byte) (launch : State),
    let mapper := (h.flag2 &&& 0xF0) ||| (h.flag1 >>> 4)
    let refuses := fun r : Refusal => construct h program graphics launch = .refused r
    (mapper ≠ 0 → refuses (.unsupportedCartridge .mapper mapper.toNat)) ∧
    (mapper = 0 → h.programBanks ≠ 1 → h.programBanks ≠ 2 →
      refuses (.unsupportedCartridge .programBanks h.programBanks.toNat)) ∧
    (mapper = 0 → (h.programBanks = 1 ∨ h.programBanks = 2) → 1 < h.graphicsBanks.toNat →
      refuses (.unsupportedCartridge .graphicsBanks h.graphicsBanks.toNat)) ∧
    (mapper = 0 → (h.programBanks = 1 ∨ h.programBanks = 2) → h.graphicsBanks.toNat ≤ 1 →
      program.length < 16384 * h.programBanks.toNat → refuses .unboundWindow) ∧
    (mapper = 0 → (h.programBanks = 1 ∨ h.programBanks = 2) → h.graphicsBanks.toNat ≤ 1 →
      16384 * h.programBanks.toNat ≤ program.length →
      ∃ t, construct h program graphics launch = .next t ∧
        (∀ a : Word, 0x8000 ≤ a.toNat →
          t.peek a = program[(a.toNat - 0x8000) % (16384 * h.programBanks.toNat)]?) ∧
        (∀ a : Word, a.toNat < 0x8000 → t.peek a = launch.peek a) ∧
        (∀ g : GfxAddr, g.toNat < 0x2000 → gfxRead t g =
          if h.graphicsBanks = 1 then (graphics[g.toNat]?).getD Config.unlistedByte
          else launch.ppu.gfx.read g.toNat) ∧
        (∀ g : GfxAddr, 0x2000 ≤ g.toNat → g.toNat < 0x3F00 →
          let table := if h.flag1.getLsbD 0 then g.toNat / 0x400 % 2 else g.toNat / 0x800 % 2
          gfxRead t g = launch.ppu.gfx.read (0x2000 + 0x400 * table + g.toNat % 0x400)) ∧
        (∀ w : Fin 16, t.params.gfxBank.get w =
          if w.val < 8 then w.val else 8 + (if h.flag1.getLsbD 0 then w.val % 2 else w.val / 2 % 2)) ∧
        t = { launch with
          mem := t.mem
          ppu := { launch.ppu with gfx := t.ppu.gfx }
          params := { launch.params with gfxBank := t.params.gfxBank } } ∧
        (Inv launch → Inv t))
end

