-- ==== Sys2Proof/Laws/State.lean ====
section
/-! SUPPORT. One lemma per field per update of State, each true by rfl. -/

namespace Sys2Proof.Machine

variable (s : State)

@[simp] theorem State.setA_a (v : Byte) : (s.setA v).a = v := rfl
@[simp] theorem State.setA_x (v : Byte) : (s.setA v).x = s.x := rfl
@[simp] theorem State.setA_y (v : Byte) : (s.setA v).y = s.y := rfl
@[simp] theorem State.setA_sp (v : Byte) : (s.setA v).sp = s.sp := rfl
@[simp] theorem State.setA_p (v : Byte) : (s.setA v).p = s.p := rfl
@[simp] theorem State.setA_pc (v : Byte) : (s.setA v).pc = s.pc := rfl
@[simp] theorem State.setA_halted (v : Byte) : (s.setA v).halted = s.halted := rfl
@[simp] theorem State.setA_mem (v : Byte) : (s.setA v).mem = s.mem := rfl
@[simp] theorem State.setA_ppu (v : Byte) : (s.setA v).ppu = s.ppu := rfl
@[simp] theorem State.setA_ctl (v : Byte) : (s.setA v).ctl = s.ctl := rfl
@[simp] theorem State.setA_params (v : Byte) : (s.setA v).params = s.params := rfl
@[simp] theorem State.setA_agenda (v : Byte) : (s.setA v).agenda = s.agenda := rfl
@[simp] theorem State.setA_free (v : Byte) : (s.setA v).free = s.free := rfl

@[simp] theorem State.setX_a (v : Byte) : (s.setX v).a = s.a := rfl
@[simp] theorem State.setX_x (v : Byte) : (s.setX v).x = v := rfl
@[simp] theorem State.setX_y (v : Byte) : (s.setX v).y = s.y := rfl
@[simp] theorem State.setX_sp (v : Byte) : (s.setX v).sp = s.sp := rfl
@[simp] theorem State.setX_p (v : Byte) : (s.setX v).p = s.p := rfl
@[simp] theorem State.setX_pc (v : Byte) : (s.setX v).pc = s.pc := rfl
@[simp] theorem State.setX_halted (v : Byte) : (s.setX v).halted = s.halted := rfl
@[simp] theorem State.setX_mem (v : Byte) : (s.setX v).mem = s.mem := rfl
@[simp] theorem State.setX_ppu (v : Byte) : (s.setX v).ppu = s.ppu := rfl
@[simp] theorem State.setX_ctl (v : Byte) : (s.setX v).ctl = s.ctl := rfl
@[simp] theorem State.setX_params (v : Byte) : (s.setX v).params = s.params := rfl
@[simp] theorem State.setX_agenda (v : Byte) : (s.setX v).agenda = s.agenda := rfl
@[simp] theorem State.setX_free (v : Byte) : (s.setX v).free = s.free := rfl

@[simp] theorem State.setY_a (v : Byte) : (s.setY v).a = s.a := rfl
@[simp] theorem State.setY_x (v : Byte) : (s.setY v).x = s.x := rfl
@[simp] theorem State.setY_y (v : Byte) : (s.setY v).y = v := rfl
@[simp] theorem State.setY_sp (v : Byte) : (s.setY v).sp = s.sp := rfl
@[simp] theorem State.setY_p (v : Byte) : (s.setY v).p = s.p := rfl
@[simp] theorem State.setY_pc (v : Byte) : (s.setY v).pc = s.pc := rfl
@[simp] theorem State.setY_halted (v : Byte) : (s.setY v).halted = s.halted := rfl
@[simp] theorem State.setY_mem (v : Byte) : (s.setY v).mem = s.mem := rfl
@[simp] theorem State.setY_ppu (v : Byte) : (s.setY v).ppu = s.ppu := rfl
@[simp] theorem State.setY_ctl (v : Byte) : (s.setY v).ctl = s.ctl := rfl
@[simp] theorem State.setY_params (v : Byte) : (s.setY v).params = s.params := rfl
@[simp] theorem State.setY_agenda (v : Byte) : (s.setY v).agenda = s.agenda := rfl
@[simp] theorem State.setY_free (v : Byte) : (s.setY v).free = s.free := rfl

@[simp] theorem State.setSp_a (v : Byte) : (s.setSp v).a = s.a := rfl
@[simp] theorem State.setSp_x (v : Byte) : (s.setSp v).x = s.x := rfl
@[simp] theorem State.setSp_y (v : Byte) : (s.setSp v).y = s.y := rfl
@[simp] theorem State.setSp_sp (v : Byte) : (s.setSp v).sp = v := rfl
@[simp] theorem State.setSp_p (v : Byte) : (s.setSp v).p = s.p := rfl
@[simp] theorem State.setSp_pc (v : Byte) : (s.setSp v).pc = s.pc := rfl
@[simp] theorem State.setSp_halted (v : Byte) : (s.setSp v).halted = s.halted := rfl
@[simp] theorem State.setSp_mem (v : Byte) : (s.setSp v).mem = s.mem := rfl
@[simp] theorem State.setSp_ppu (v : Byte) : (s.setSp v).ppu = s.ppu := rfl
@[simp] theorem State.setSp_ctl (v : Byte) : (s.setSp v).ctl = s.ctl := rfl
@[simp] theorem State.setSp_params (v : Byte) : (s.setSp v).params = s.params := rfl
@[simp] theorem State.setSp_agenda (v : Byte) : (s.setSp v).agenda = s.agenda := rfl
@[simp] theorem State.setSp_free (v : Byte) : (s.setSp v).free = s.free := rfl

@[simp] theorem State.setP_a (v : Byte) : (s.setP v).a = s.a := rfl
@[simp] theorem State.setP_x (v : Byte) : (s.setP v).x = s.x := rfl
@[simp] theorem State.setP_y (v : Byte) : (s.setP v).y = s.y := rfl
@[simp] theorem State.setP_sp (v : Byte) : (s.setP v).sp = s.sp := rfl
@[simp] theorem State.setP_p (v : Byte) : (s.setP v).p = v := rfl
@[simp] theorem State.setP_pc (v : Byte) : (s.setP v).pc = s.pc := rfl
@[simp] theorem State.setP_halted (v : Byte) : (s.setP v).halted = s.halted := rfl
@[simp] theorem State.setP_mem (v : Byte) : (s.setP v).mem = s.mem := rfl
@[simp] theorem State.setP_ppu (v : Byte) : (s.setP v).ppu = s.ppu := rfl
@[simp] theorem State.setP_ctl (v : Byte) : (s.setP v).ctl = s.ctl := rfl
@[simp] theorem State.setP_params (v : Byte) : (s.setP v).params = s.params := rfl
@[simp] theorem State.setP_agenda (v : Byte) : (s.setP v).agenda = s.agenda := rfl
@[simp] theorem State.setP_free (v : Byte) : (s.setP v).free = s.free := rfl

@[simp] theorem State.setPc_a (v : Word) : (s.setPc v).a = s.a := rfl
@[simp] theorem State.setPc_x (v : Word) : (s.setPc v).x = s.x := rfl
@[simp] theorem State.setPc_y (v : Word) : (s.setPc v).y = s.y := rfl
@[simp] theorem State.setPc_sp (v : Word) : (s.setPc v).sp = s.sp := rfl
@[simp] theorem State.setPc_p (v : Word) : (s.setPc v).p = s.p := rfl
@[simp] theorem State.setPc_pc (v : Word) : (s.setPc v).pc = v := rfl
@[simp] theorem State.setPc_halted (v : Word) : (s.setPc v).halted = s.halted := rfl
@[simp] theorem State.setPc_mem (v : Word) : (s.setPc v).mem = s.mem := rfl
@[simp] theorem State.setPc_ppu (v : Word) : (s.setPc v).ppu = s.ppu := rfl
@[simp] theorem State.setPc_ctl (v : Word) : (s.setPc v).ctl = s.ctl := rfl
@[simp] theorem State.setPc_params (v : Word) : (s.setPc v).params = s.params := rfl
@[simp] theorem State.setPc_agenda (v : Word) : (s.setPc v).agenda = s.agenda := rfl
@[simp] theorem State.setPc_free (v : Word) : (s.setPc v).free = s.free := rfl

@[simp] theorem State.setHalted_a (v : RunState) : (s.setHalted v).a = s.a := rfl
@[simp] theorem State.setHalted_x (v : RunState) : (s.setHalted v).x = s.x := rfl
@[simp] theorem State.setHalted_y (v : RunState) : (s.setHalted v).y = s.y := rfl
@[simp] theorem State.setHalted_sp (v : RunState) : (s.setHalted v).sp = s.sp := rfl
@[simp] theorem State.setHalted_p (v : RunState) : (s.setHalted v).p = s.p := rfl
@[simp] theorem State.setHalted_pc (v : RunState) : (s.setHalted v).pc = s.pc := rfl
@[simp] theorem State.setHalted_halted (v : RunState) : (s.setHalted v).halted = v := rfl
@[simp] theorem State.setHalted_mem (v : RunState) : (s.setHalted v).mem = s.mem := rfl
@[simp] theorem State.setHalted_ppu (v : RunState) : (s.setHalted v).ppu = s.ppu := rfl
@[simp] theorem State.setHalted_ctl (v : RunState) : (s.setHalted v).ctl = s.ctl := rfl
@[simp] theorem State.setHalted_params (v : RunState) : (s.setHalted v).params = s.params := rfl
@[simp] theorem State.setHalted_agenda (v : RunState) : (s.setHalted v).agenda = s.agenda := rfl
@[simp] theorem State.setHalted_free (v : RunState) : (s.setHalted v).free = s.free := rfl

@[simp] theorem State.setMem_a (v : Memory) : (s.setMem v).a = s.a := rfl
@[simp] theorem State.setMem_x (v : Memory) : (s.setMem v).x = s.x := rfl
@[simp] theorem State.setMem_y (v : Memory) : (s.setMem v).y = s.y := rfl
@[simp] theorem State.setMem_sp (v : Memory) : (s.setMem v).sp = s.sp := rfl
@[simp] theorem State.setMem_p (v : Memory) : (s.setMem v).p = s.p := rfl
@[simp] theorem State.setMem_pc (v : Memory) : (s.setMem v).pc = s.pc := rfl
@[simp] theorem State.setMem_halted (v : Memory) : (s.setMem v).halted = s.halted := rfl
@[simp] theorem State.setMem_mem (v : Memory) : (s.setMem v).mem = v := rfl
@[simp] theorem State.setMem_ppu (v : Memory) : (s.setMem v).ppu = s.ppu := rfl
@[simp] theorem State.setMem_ctl (v : Memory) : (s.setMem v).ctl = s.ctl := rfl
@[simp] theorem State.setMem_params (v : Memory) : (s.setMem v).params = s.params := rfl
@[simp] theorem State.setMem_agenda (v : Memory) : (s.setMem v).agenda = s.agenda := rfl
@[simp] theorem State.setMem_free (v : Memory) : (s.setMem v).free = s.free := rfl

@[simp] theorem State.setPpu_a (v : Ppu) : (s.setPpu v).a = s.a := rfl
@[simp] theorem State.setPpu_x (v : Ppu) : (s.setPpu v).x = s.x := rfl
@[simp] theorem State.setPpu_y (v : Ppu) : (s.setPpu v).y = s.y := rfl
@[simp] theorem State.setPpu_sp (v : Ppu) : (s.setPpu v).sp = s.sp := rfl
@[simp] theorem State.setPpu_p (v : Ppu) : (s.setPpu v).p = s.p := rfl
@[simp] theorem State.setPpu_pc (v : Ppu) : (s.setPpu v).pc = s.pc := rfl
@[simp] theorem State.setPpu_halted (v : Ppu) : (s.setPpu v).halted = s.halted := rfl
@[simp] theorem State.setPpu_mem (v : Ppu) : (s.setPpu v).mem = s.mem := rfl
@[simp] theorem State.setPpu_ppu (v : Ppu) : (s.setPpu v).ppu = v := rfl
@[simp] theorem State.setPpu_ctl (v : Ppu) : (s.setPpu v).ctl = s.ctl := rfl
@[simp] theorem State.setPpu_params (v : Ppu) : (s.setPpu v).params = s.params := rfl
@[simp] theorem State.setPpu_agenda (v : Ppu) : (s.setPpu v).agenda = s.agenda := rfl
@[simp] theorem State.setPpu_free (v : Ppu) : (s.setPpu v).free = s.free := rfl

@[simp] theorem State.setCtl_a (v : Ctl) : (s.setCtl v).a = s.a := rfl
@[simp] theorem State.setCtl_x (v : Ctl) : (s.setCtl v).x = s.x := rfl
@[simp] theorem State.setCtl_y (v : Ctl) : (s.setCtl v).y = s.y := rfl
@[simp] theorem State.setCtl_sp (v : Ctl) : (s.setCtl v).sp = s.sp := rfl
@[simp] theorem State.setCtl_p (v : Ctl) : (s.setCtl v).p = s.p := rfl
@[simp] theorem State.setCtl_pc (v : Ctl) : (s.setCtl v).pc = s.pc := rfl
@[simp] theorem State.setCtl_halted (v : Ctl) : (s.setCtl v).halted = s.halted := rfl
@[simp] theorem State.setCtl_mem (v : Ctl) : (s.setCtl v).mem = s.mem := rfl
@[simp] theorem State.setCtl_ppu (v : Ctl) : (s.setCtl v).ppu = s.ppu := rfl
@[simp] theorem State.setCtl_ctl (v : Ctl) : (s.setCtl v).ctl = v := rfl
@[simp] theorem State.setCtl_params (v : Ctl) : (s.setCtl v).params = s.params := rfl
@[simp] theorem State.setCtl_agenda (v : Ctl) : (s.setCtl v).agenda = s.agenda := rfl
@[simp] theorem State.setCtl_free (v : Ctl) : (s.setCtl v).free = s.free := rfl

@[simp] theorem State.setAgenda_a (v : List Turn) : (s.setAgenda v).a = s.a := rfl
@[simp] theorem State.setAgenda_x (v : List Turn) : (s.setAgenda v).x = s.x := rfl
@[simp] theorem State.setAgenda_y (v : List Turn) : (s.setAgenda v).y = s.y := rfl
@[simp] theorem State.setAgenda_sp (v : List Turn) : (s.setAgenda v).sp = s.sp := rfl
@[simp] theorem State.setAgenda_p (v : List Turn) : (s.setAgenda v).p = s.p := rfl
@[simp] theorem State.setAgenda_pc (v : List Turn) : (s.setAgenda v).pc = s.pc := rfl
@[simp] theorem State.setAgenda_halted (v : List Turn) : (s.setAgenda v).halted = s.halted := rfl
@[simp] theorem State.setAgenda_mem (v : List Turn) : (s.setAgenda v).mem = s.mem := rfl
@[simp] theorem State.setAgenda_ppu (v : List Turn) : (s.setAgenda v).ppu = s.ppu := rfl
@[simp] theorem State.setAgenda_ctl (v : List Turn) : (s.setAgenda v).ctl = s.ctl := rfl
@[simp] theorem State.setAgenda_params (v : List Turn) : (s.setAgenda v).params = s.params := rfl
@[simp] theorem State.setAgenda_agenda (v : List Turn) : (s.setAgenda v).agenda = v := rfl
@[simp] theorem State.setAgenda_free (v : List Turn) : (s.setAgenda v).free = s.free := rfl

@[simp] theorem State.busHalt_mem (c : Cause) : (s.busHalt c).mem = s.mem := rfl
@[simp] theorem State.busHalt_ppu (c : Cause) : (s.busHalt c).ppu = s.ppu := rfl
@[simp] theorem State.busHalt_ctl (c : Cause) : (s.busHalt c).ctl = s.ctl := rfl
@[simp] theorem State.busHalt_params (c : Cause) : (s.busHalt c).params = s.params := rfl
@[simp] theorem State.busHalt_agenda (c : Cause) : (s.busHalt c).agenda = s.agenda := rfl
@[simp] theorem State.busHalt_halted (c : Cause) : (s.busHalt c).halted = .halted c := rfl
@[simp] theorem State.busHalt_free (c : Cause) : (s.busHalt c).free = s.free + 5 := rfl
@[simp] theorem State.busHalt_p (c : Cause) : (s.busHalt c).p = Config.freeByte (s.free + 4) ||| 0x20 := rfl

section Res

variable {α β : Type} (c : Cause)

@[simp] theorem Res.bind_ok (v : α) (f : α → State → Res β) : (Res.ok v s).bind f = f v s := rfl
@[simp] theorem Res.bind_fatal (f : α → State → Res β) : (Res.fatal c s : Res α).bind f = .fatal c s := rfl
@[simp] theorem Res.update_ok (v : α) (f : α → State → State) : (Res.ok v s).update f = .ok () (f v s) := rfl
@[simp] theorem Res.update_fatal (f : α → State → State) : (Res.fatal c s : Res α).update f = .fatal c s := rfl
@[simp] theorem Res.finish_ok (v : Unit) : (Res.ok v s).finish = .next s := rfl
@[simp] theorem Res.finish_fatal : (Res.fatal c s : Res Unit).finish = .next (s.busHalt c) := rfl

/-- What a bind that completes went through. -/
theorem Res.bind_eq_ok {r : Res α} {f : α → State → Res β} {w : β} {t : State} (h : r.bind f = .ok w t) :
    ∃ v s, r = .ok v s ∧ f v s = .ok w t := by
  cases r with
  | ok v s => exact ⟨v, s, rfl, h⟩
  | fatal c s => cases h

/-- An operation always ends in a next state. -/
theorem Res.finish_next (r : Res Unit) : ∃ t, r.finish = .next t := by
  cases r with
  | ok v s => exact ⟨s, rfl⟩
  | fatal c s => exact ⟨s.busHalt c, rfl⟩

end Res

end Sys2Proof.Machine
end

