-- ==== Sys2Proof/Laws/Flags.lean ====
section
/-! SUPPORT. The bits of the status register after each flag computation. -/

namespace Sys2Proof.Machine

/-- Writing one flag writes that bit alone. -/
theorem setFlag_getLsbD {i : Nat} (hi : i < 8) (b : Bool) (p : Byte) (j : Nat) :
    (setFlag i b p).getLsbD j = if j = i then b else p.getLsbD j := by
  by_cases hj : j < 8
  · unfold setFlag
    have h1 : (1#8 <<< i).getLsbD j = decide (j = i) := by
      rw [BitVec.getLsbD_shiftLeft, BitVec.getLsbD_one]
      by_cases h : j = i
      · subst h; simp [hj]
      · by_cases h' : j < i
        · simp [h, h']
        · have : j - i ≠ 0 := by omega
          simp [h, this]
    cases b
    · simp only [Bool.false_eq_true, if_false, BitVec.getLsbD_and, BitVec.getLsbD_not, h1]
      by_cases h : j = i <;> simp [h, hj]
    · simp only [if_true, BitVec.getLsbD_or, h1]
      by_cases h : j = i <;> simp [h]
  · have hj' : ¬ (j = i) := by omega
    simp only [hj', if_false]
    rw [BitVec.getLsbD_of_ge _ _ (by omega), BitVec.getLsbD_of_ge _ _ (by omega)]

/-- The bits after `SetNZ` (40_dispatch_addressing.md R159). -/
theorem setNZ_getLsbD (v p : Byte) (j : Nat) :
    (setNZ v p).getLsbD j = if j = 7 then v.getLsbD 7 else if j = 1 then v == 0 else p.getLsbD j := by
  unfold setNZ
  rw [setFlag_getLsbD (by decide), setFlag_getLsbD (by decide)]
  rfl

/-- The bits after an add or subtract (41_arithmetic_logic_compare.md R170). -/
theorem adderFlags_getLsbD (r : AdderOut) (p : Byte) (j : Nat) :
    (adderFlags r p).getLsbD j =
      if j = 7 then r.sum.getLsbD 7 else if j = 1 then r.sum == 0
      else if j = 6 then r.overflow else if j = 0 then r.carry else p.getLsbD j := by
  unfold adderFlags
  rw [setNZ_getLsbD, setFlag_getLsbD (by decide), setFlag_getLsbD (by decide)]
  rfl

/-- The bits after a shift or rotate (42_shift_rotate_incdec.md R190). -/
theorem shiftFlags_getLsbD (r : ShiftOut) (p : Byte) (j : Nat) :
    (shiftFlags r p).getLsbD j =
      if j = 7 then r.value.getLsbD 7 else if j = 1 then r.value == 0
      else if j = 0 then r.carry else p.getLsbD j := by
  unfold shiftFlags
  rw [setNZ_getLsbD, setFlag_getLsbD (by decide)]
  rfl

/-- The bits after a compare (41_arithmetic_logic_compare.md R176). -/
theorem compareFlags_getLsbD (reg m p : Byte) (j : Nat) :
    (compareFlags reg m p).getLsbD j =
      if j = 7 then (reg - m).getLsbD 7 else if j = 1 then reg - m == 0
      else if j = 0 then decide (m.toNat ≤ reg.toNat) else p.getLsbD j := by
  unfold compareFlags
  rw [setNZ_getLsbD, setFlag_getLsbD (by decide)]
  rfl

/-- The bits after BIT (41_arithmetic_logic_compare.md R175). -/
theorem bitTestFlags_getLsbD (a m p : Byte) (j : Nat) :
    (bitTestFlags a m p).getLsbD j =
      if j = 6 then m.getLsbD 6 else if j = 7 then m.getLsbD 7
      else if j = 1 then a &&& m == 0 else p.getLsbD j := by
  unfold bitTestFlags
  rw [setFlag_getLsbD (by decide), setFlag_getLsbD (by decide), setFlag_getLsbD (by decide)]
  rfl

/-- A pulled status byte keeps every bit but Reserved, which is 1, and Break, which is 0 (44_stack_flags.md R243). -/
theorem pulledStatus_getLsbD (v : Byte) (j : Nat) :
    (pulledStatus v).getLsbD j = if j = 5 then true else if j = 4 then false else v.getLsbD j := by
  by_cases hj : j < 8
  · revert v
    have : j = 0 ∨ j = 1 ∨ j = 2 ∨ j = 3 ∨ j = 4 ∨ j = 5 ∨ j = 6 ∨ j = 7 := by omega
    rcases this with rfl | rfl | rfl | rfl | rfl | rfl | rfl | rfl <;> intro v <;> simp [pulledStatus]
  · have h5 : ¬ j = 5 := by omega
    have h4 : ¬ j = 4 := by omega
    simp only [h5, h4, if_false]
    rw [BitVec.getLsbD_of_ge _ _ (by omega), BitVec.getLsbD_of_ge _ _ (by omega)]

/-- The flag updates of State, by field. -/
@[simp] theorem State.withFlag_p (s : State) (i : Nat) (b : Bool) : (s.withFlag i b).p = setFlag i b s.p := rfl
@[simp] theorem State.loadA_a (s : State) (v : Byte) : (s.loadA v).a = v := rfl
@[simp] theorem State.loadA_p (s : State) (v : Byte) : (s.loadA v).p = setNZ v s.p := rfl
@[simp] theorem State.loadX_x (s : State) (v : Byte) : (s.loadX v).x = v := rfl
@[simp] theorem State.loadX_p (s : State) (v : Byte) : (s.loadX v).p = setNZ v s.p := rfl
@[simp] theorem State.loadY_y (s : State) (v : Byte) : (s.loadY v).y = v := rfl
@[simp] theorem State.loadY_p (s : State) (v : Byte) : (s.loadY v).p = setNZ v s.p := rfl
@[simp] theorem State.addWithCarry_a (s : State) (m : Byte) : (s.addWithCarry m).a = (adder s.a m s.carry).sum := rfl
@[simp] theorem State.addWithCarry_p (s : State) (m : Byte) :
    (s.addWithCarry m).p = adderFlags (adder s.a m s.carry) s.p := rfl
@[simp] theorem State.compareWith_p (s : State) (r m : Byte) : (s.compareWith r m).p = compareFlags r m s.p := rfl

end Sys2Proof.Machine
end

