-- ==== Sys2Proof/Laws/Memory.lean ====
section
/-! SUPPORT. The laws of a memory: read after write, and the canonical form. -/

namespace Sys2Proof.Machine

theorem Memory.read_nil (k : Nat) : Memory.read [] k = Config.unlistedByte := rfl

theorem Memory.read_erase (m : Memory) (k j : Nat) :
    Memory.read (m.erase k) j = if j = k then Config.unlistedByte else m.read j := by
  induction m with
  | nil => simp [Memory.erase, Memory.read]
  | cons c m ih =>
    obtain ⟨i, w⟩ := c
    simp only [Memory.erase] at ih
    by_cases hik : i = k <;> by_cases hij : i = j <;>
      simp_all [Memory.erase, Memory.read]

theorem Memory.read_of_not_mem (m : Memory) (j : Nat) (h : ∀ c ∈ m, c.1 ≠ j) :
    m.read j = Config.unlistedByte := by
  induction m with
  | nil => rfl
  | cons c m ih =>
    obtain ⟨i, w⟩ := c
    have hi : i ≠ j := h _ List.mem_cons_self
    simp [Memory.read, hi, ih fun d hd => h d (List.mem_cons_of_mem _ hd)]

theorem Memory.read_insert (m : Memory) (k : Nat) (v : Byte) (j : Nat) (h : ∀ c ∈ m, c.1 ≠ k) :
    Memory.read (Memory.insert m k v) j = if j = k then v else m.read j := by
  induction m with
  | nil => simp [Memory.insert, Memory.read, eq_comm]
  | cons c m ih =>
    obtain ⟨i, w⟩ := c
    have hi : i ≠ k := h _ List.mem_cons_self
    have ih := ih fun d hd => h d (List.mem_cons_of_mem _ hd)
    by_cases hlt : k < i
    · simp [Memory.insert, hlt, Memory.read, eq_comm]
    · simp only [Memory.insert, hlt, if_false, Memory.read, ih]
      by_cases hij : i = j
      · subst hij; simp [hi]
      · simp [hij]

theorem Memory.erase_ne (m : Memory) (k : Nat) : ∀ c ∈ m.erase k, c.1 ≠ k := by
  intro c hc
  have := (List.mem_filter.1 hc).2
  simpa using this

/-- A read after a write, at the same address and at any other. -/
theorem Memory.read_write (m : Memory) (k : Nat) (v : Byte) (j : Nat) :
    (m.write k v).read j = if j = k then v else m.read j := by
  unfold Memory.write
  split
  · next hv => rw [Memory.read_erase]; simp [hv]
  · rw [Memory.read_insert _ _ _ _ (Memory.erase_ne m k), Memory.read_erase]
    split <;> simp_all

@[simp] theorem Memory.read_write_same (m : Memory) (k : Nat) (v : Byte) : (m.write k v).read k = v := by
  simp [Memory.read_write]

theorem Memory.read_write_other (m : Memory) (k : Nat) (v : Byte) (j : Nat) (h : j ≠ k) :
    (m.write k v).read j = m.read j := by
  simp [Memory.read_write, h]

theorem Memory.mem_insert (m : Memory) (k : Nat) (v : Byte) (c : Host.Cell) :
    c ∈ Memory.insert m k v ↔ c = (k, v) ∨ c ∈ m := by
  induction m with
  | nil => simp [Memory.insert]
  | cons d m ih =>
    obtain ⟨i, w⟩ := d
    by_cases h : k < i
    · simp [Memory.insert, h]
    · simp [Memory.insert, h, ih]; tauto

theorem Memory.mem_write (m : Memory) (k : Nat) (v : Byte) (c : Host.Cell) (h : c ∈ m.write k v) :
    c = (k, v) ∨ c ∈ m := by
  unfold Memory.write at h
  split at h
  · exact .inr (List.mem_filter.1 h).1
  · rcases (Memory.mem_insert _ _ _ _).1 h with h | h
    · exact .inl h
    · exact .inr (List.mem_filter.1 h).1

theorem Memory.erase_wf {m : Memory} (k : Nat) (h : m.wf) : (m.erase k).wf :=
  ⟨h.1.filter _, fun c hc => h.2 c (List.mem_filter.1 hc).1⟩

theorem Memory.insert_wf {m : Memory} {k : Nat} {v : Byte} (h : m.wf) (hv : v ≠ Config.unlistedByte)
    (hk : ∀ c ∈ m, c.1 ≠ k) : (Memory.insert m k v).wf := by
  refine ⟨?_, fun c hc => ?_⟩
  · induction m with
    | nil => simp [Memory.insert]
    | cons d m ih =>
      obtain ⟨i, w⟩ := d
      have hp := List.pairwise_cons.1 h.1
      have hik : i ≠ k := hk _ List.mem_cons_self
      by_cases hlt : k < i
      · simp only [Memory.insert, hlt, if_true]
        refine List.pairwise_cons.2 ⟨fun c hc => ?_, h.1⟩
        rcases List.mem_cons.1 hc with rfl | hc
        · exact hlt
        · exact lt_trans hlt (hp.1 c hc)
      · simp only [Memory.insert, hlt, if_false]
        refine List.pairwise_cons.2 ⟨fun c hc => ?_, ?_⟩
        · rcases (Memory.mem_insert _ _ _ _).1 hc with rfl | hc
          · show i < k
            omega
          · exact hp.1 c hc
        · exact ih ⟨hp.2, fun c hc => h.2 c (List.mem_cons_of_mem _ hc)⟩
            fun c hc => hk c (List.mem_cons_of_mem _ hc)
  · rcases (Memory.mem_insert _ _ _ _).1 hc with rfl | hc
    · exact hv
    · exact h.2 c hc

/-- A write keeps the canonical form. -/
theorem Memory.write_wf {m : Memory} (k : Nat) (v : Byte) (h : m.wf) : (m.write k v).wf := by
  unfold Memory.write
  split
  · exact Memory.erase_wf k h
  · next hv => exact Memory.insert_wf (Memory.erase_wf k h) hv (Memory.erase_ne m k)

theorem Memory.mem_ofBytes {k : Nat} {bytes : List Byte} {c : Host.Cell} (h : c ∈ Memory.ofBytes k bytes) :
    k ≤ c.1 ∧ c.1 < k + bytes.length ∧ c.2 ≠ Config.unlistedByte := by
  induction bytes generalizing k with
  | nil => cases h
  | cons v rest ih =>
    simp only [Memory.ofBytes] at h
    split at h
    · have := ih h
      refine ⟨by omega, by simp only [List.length_cons]; omega, this.2.2⟩
    · next hv =>
      rcases List.mem_cons.1 h with rfl | h
      · simp [hv]
      · have := ih h
        refine ⟨by omega, by simp only [List.length_cons]; omega, this.2.2⟩

/-- Bytes laid out one after the other are in the canonical form. -/
theorem Memory.ofBytes_wf (k : Nat) (bytes : List Byte) : (Memory.ofBytes k bytes).wf := by
  refine ⟨?_, fun c hc => (Memory.mem_ofBytes hc).2.2⟩
  induction bytes generalizing k with
  | nil => simp [Memory.ofBytes]
  | cons v rest ih =>
    simp only [Memory.ofBytes]
    split
    · exact ih (k + 1)
    · exact List.pairwise_cons.2 ⟨fun c hc => (Memory.mem_ofBytes hc).1, ih (k + 1)⟩

/-- In the canonical form, equal contents are equal data. -/
theorem Memory.eq_of_read_eq {m n : Memory} (hm : m.wf) (hn : n.wf) (h : ∀ k, m.read k = n.read k) : m = n := by
  have key : ∀ {m : Memory}, m.wf → ∀ c : Host.Cell, c ∈ m ↔ c.2 ≠ Config.unlistedByte ∧ m.read c.1 = c.2 := by
    intro m hm c
    induction m with
    | nil => simp only [List.not_mem_nil, Memory.read, false_iff]; rintro ⟨h1, h2⟩; exact h1 h2.symm
    | cons d m ih =>
      obtain ⟨i, w⟩ := d
      have hp := List.pairwise_cons.1 hm.1
      have hw : w ≠ Config.unlistedByte := hm.2 _ List.mem_cons_self
      have ih := ih ⟨hp.2, fun c hc => hm.2 c (List.mem_cons_of_mem _ hc)⟩
      rw [List.mem_cons, ih]
      obtain ⟨j, v⟩ := c
      by_cases hij : i = j
      · subst hij
        have hr : Memory.read m i = Config.unlistedByte :=
          Memory.read_of_not_mem m i fun d hd => by have := hp.1 d hd; simp at this; omega
        simp only [Memory.read, if_true, Prod.mk.injEq, true_and, hr]
        constructor
        · rintro (rfl | ⟨h1, h2⟩)
          · exact ⟨hw, rfl⟩
          · exact absurd h2.symm h1
        · rintro ⟨_, rfl⟩; exact .inl rfl
      · simp [Memory.read, hij, Ne.symm hij]
  have hmem : ∀ c, c ∈ m ↔ c ∈ n := fun c => by rw [key hm, key hn, h]
  exact List.Perm.eq_of_pairwise (fun a b _ _ h1 h2 => absurd (lt_trans h1 h2) (lt_irrefl _)) hm.1 hn.1
    ((List.perm_ext_iff_of_nodup
      (hm.1.imp fun h => by rintro rfl; simp at h) (hn.1.imp fun h => by rintro rfl; simp at h)).2 hmem)

/-- Entries of the first list come first. -/
theorem Memory.read_append (m n : Memory) (j : Nat) :
    Memory.read (m ++ n) j = if j ∈ m.map (·.1) then m.read j else n.read j := by
  induction m with
  | nil => simp
  | cons c m ih =>
    obtain ⟨i, w⟩ := c
    simp only [List.cons_append, Memory.read, ih, List.map_cons, List.mem_cons]
    by_cases h : i = j
    · simp [h]
    · simp [h, Ne.symm h]

/-- Leaving out entries at other addresses changes no read. -/
theorem Memory.read_filter (m : Memory) (q : Nat → Bool) (j : Nat) (hq : q j = true) :
    Memory.read (m.filter fun c => q c.1) j = m.read j := by
  induction m with
  | nil => rfl
  | cons c m ih =>
    obtain ⟨i, w⟩ := c
    by_cases hi : q i
    · rw [List.filter_cons_of_pos (by exact hi)]
      simp only [Memory.read, ih]
    · have hne : i ≠ j := fun e => hi (e ▸ hq)
      rw [List.filter_cons_of_neg (by exact hi), ih]
      simp [Memory.read, hne]

end Sys2Proof.Machine
end

