-- ==== Sys2Proof/Laws/Ops.lean ====
section
/-! SUPPORT. What each bus, stack and operand operation can do, said once. -/

namespace Sys2Proof.Machine

theorem BusOnly.refl (s : State) : BusOnly s s := rfl

theorem BusOnly.trans {s t u : State} (h : BusOnly s t) (k : BusOnly t u) : BusOnly s u := by
  unfold BusOnly at *; rw [k, h]

/-- A bus access of the picture unit changes the picture unit alone. -/
theorem ppuRead_ok {a : Word} {s t : State} {v : Byte} (h : ppuRead a s = .ok v t) : ∃ u, t = s.setPpu u := by
  unfold ppuRead at h
  split at h <;> cases h <;> exact ⟨_, rfl⟩

theorem ppuWrite_ok {a : Word} {v : Byte} {s t : State} {w : Unit} (h : ppuWrite a v s = .ok w t) :
    ∃ u, t = s.setPpu u := by
  unfold ppuWrite at h
  split at h <;> cases h <;> exact ⟨_, rfl⟩

/-- A bus access of the I/O region changes the controller port at most, and is never fatal. -/
theorem ioRead_eq (a : Word) (s : State) : ∃ v k, ioRead a s = .ok v (s.setCtl k) := by
  unfold ioRead
  split
  · exact ⟨_, _, rfl⟩
  · exact ⟨_, _, rfl⟩
  · exact ⟨_, s.ctl, rfl⟩

theorem ioWrite_eq (a : Word) (v : Byte) (s : State) : ∃ k, ioWrite a v s = .ok () (s.setCtl k) := by
  unfold ioWrite
  split
  · exact ⟨_, rfl⟩
  · exact ⟨s.ctl, rfl⟩

/-- A bus read changes devices at most. -/
theorem memRead_busOnly {a : Word} {s t : State} {v : Byte} (h : memRead a s = .ok v t) :
    BusOnly s t ∧ t.mem = s.mem := by
  unfold memRead at h
  split at h
  · cases h; exact ⟨rfl, rfl⟩
  · obtain ⟨u, rfl⟩ := ppuRead_ok h; exact ⟨rfl, rfl⟩
  · obtain ⟨w, k, hk⟩ := ioRead_eq a s; rw [hk] at h; cases h; exact ⟨rfl, rfl⟩
  · cases h
  · cases h; exact ⟨rfl, rfl⟩
  · cases h; exact ⟨rfl, rfl⟩

/-- A fatal bus read changes nothing. -/
theorem memRead_fatal {a : Word} {s t : State} {c : Cause} (h : memRead a s = .fatal c t) : t = s := by
  unfold memRead at h
  split at h
  · cases h
  · unfold ppuRead at h; split at h <;> cases h; rfl
  · obtain ⟨w, k, hk⟩ := ioRead_eq a s; rw [hk] at h; cases h
  · cases h; rfl
  · cases h
  · cases h

/-- A bus write changes memory and devices at most. -/
theorem memWrite_busOnly {a : Word} {v : Byte} {s t : State} {w : Unit} (h : memWrite a v s = .ok w t) :
    BusOnly s t := by
  unfold memWrite at h
  split at h
  · cases h; rfl
  · obtain ⟨u, rfl⟩ := ppuWrite_ok h; rfl
  · obtain ⟨k, hk⟩ := ioWrite_eq a v s; rw [hk] at h; cases h; rfl
  · cases h
  · cases h; rfl
  · cases h

/-- A fatal bus write changes nothing. -/
theorem memWrite_fatal {a : Word} {v : Byte} {s t : State} {c : Cause} (h : memWrite a v s = .fatal c t) : t = s := by
  unfold memWrite at h
  split at h
  · cases h
  · unfold ppuWrite at h; split at h <;> cases h; rfl
  · obtain ⟨k, hk⟩ := ioWrite_eq a v s; rw [hk] at h; cases h
  · cases h; rfl
  · cases h
  · cases h; rfl

theorem region_zeroPage (z : Byte) : region (zext16 z) = .ram := by
  revert z; decide

theorem mask_zeroPage (z : Byte) : (zext16 z &&& 0x07FF).toNat = z.toNat := by
  revert z; decide

theorem region_stack (z : Byte) : region (Config.stackPage + zext16 z) = .ram := by
  revert z; decide

theorem mask_stack (z : Byte) : ((Config.stackPage + zext16 z) &&& 0x07FF).toNat = 256 + z.toNat := by
  revert z; decide

/-- A zero-page read. -/
@[simp] theorem memRead_zeroPage (z : Byte) (s : State) : memRead (zext16 z) s = .ok (s.mem.read z.toNat) s := by
  simp only [memRead, region_zeroPage, mask_zeroPage]

/-- A graphics write from 0x3F00 on changes one palette entry alone (20_memory.md R87). -/
theorem gfxWrite_palette {g : GfxAddr} (h : Config.paletteBase.toNat ≤ g.toNat) (s : State) (v : Byte) :
    gfxWrite s g v = { s.ppu with pal := s.ppu.pal.set (paletteIndex g) (v.truncate 6) } := if_pos h

/-- A graphics write below 0x3F00 changes one byte of one store alone (20_memory.md R87). -/
theorem gfxWrite_store {g : GfxAddr} (h : ¬Config.paletteBase.toNat ≤ g.toNat) (s : State) (v : Byte) :
    gfxWrite s g v = { s.ppu with gfx := s.ppu.gfx.write (gfxKey s.params.gfxBank g) v } := if_neg h

/-- The read of a bus address does not depend on PC, and leaves it. -/
theorem memRead_setPc (a : Word) (s : State) (p : Word) :
    memRead a (s.setPc p) =
      match memRead a s with
      | .ok v t => .ok v (t.setPc p)
      | .fatal c t => .fatal c (t.setPc p) := by
  unfold memRead
  split
  · rfl
  · unfold ppuRead
    split <;> rfl
  · unfold ioRead
    split <;> rfl
  · rfl
  · rfl
  · rfl

/-- A fetch whose bus read completes gives the byte and moves PC past it (40_dispatch_addressing.md R158). -/
theorem fetchByte_ok {s t : State} {p : Word} {b : Byte} (h : memRead p s = .ok b t) :
    fetchByte (s.setPc p) = .ok b (t.setPc (p + 1)) := by
  have e : memRead (s.setPc p).pc (s.setPc p) = .ok b (t.setPc p) := by
    rw [memRead_setPc, show (s.setPc p).pc = p from rfl, h]
  rw [fetchByte, e]
  rfl

/-- A fetch whose bus read is fatal is cut there. -/
theorem fetchByte_fatal {s t : State} {p : Word} {c : Cause} (h : memRead p s = .fatal c t) :
    fetchByte (s.setPc p) = .fatal c (t.setPc p) := by
  have e : memRead (s.setPc p).pc (s.setPc p) = .fatal c (t.setPc p) := by
    rw [memRead_setPc, show (s.setPc p).pc = p from rfl, h]
  rw [fetchByte, e]
  rfl

/-- A push always completes (20_memory.md R85). -/
@[simp] theorem push_eq (v : Byte) (s : State) :
    push v s = .ok () ((s.setMem (s.mem.write (256 + s.sp.toNat) v)).setSp (s.sp - 1)) := by
  simp only [push, State.stackSlot, memWrite, region_stack, mask_stack, Res.update_ok, State.setMem_sp]

/-- A pop always completes (20_memory.md R85). -/
@[simp] theorem pop_eq (s : State) :
    pop s = .ok (s.mem.read (256 + (s.sp + 1).toNat)) (s.setSp (s.sp + 1)) := by
  simp only [pop, State.stackSlot, State.setSp_sp, memRead, region_stack, mask_stack, State.setSp_mem]

/-- Both bytes of a pushed word. -/
theorem push16_eq (v : Word) (s : State) :
    push16 v s = .ok () ((s.setMem ((s.mem.write (256 + s.sp.toNat) (hiByte v)).write
      (256 + (s.sp - 1).toNat) (loByte v))).setSp (s.sp - 1 - 1)) := by
  simp only [push16, push_eq, Res.bind_ok]; rfl

/-- Both bytes of a popped word. -/
theorem pop16_eq (s : State) :
    pop16 s = .ok (hiLo (s.mem.read (256 + (s.sp + 1 + 1).toNat)) (s.mem.read (256 + (s.sp + 1).toNat)))
      (s.setSp (s.sp + 1 + 1)) := by
  simp only [pop16, pop_eq, Res.bind_ok]; rfl

/-- A read of a program bank. -/
theorem memRead_program {a : Word} (h : region a = .program) (s : State) :
    memRead a s = .ok (s.mem.read a.toNat) s := by
  simp only [memRead, h]

/-- Taking an interrupt always completes (60_exceptions.md R390): three pushes, P.I, the vector. -/
theorem enterInterrupt_eq (ret : Word) (status : Byte) (vector : Word) (s : State)
    (h1 : region vector = .program) (h2 : region (vector + 1) = .program) :
    ∃ m, m = ((s.mem.write (256 + s.sp.toNat) (hiByte ret)).write (256 + (s.sp - 1).toNat) (loByte ret)).write
        (256 + (s.sp - 1 - 1).toNat) status ∧
      enterInterrupt ret status vector s = .ok () ((((s.setMem m).setSp (s.sp - 1 - 1 - 1)).setP (setFlag bitI true s.p)).setPc
        (hiLo (m.read (vector + 1).toNat) (m.read vector.toNat))) := by
  refine ⟨_, rfl, ?_⟩
  simp only [enterInterrupt, push16_eq, push_eq, Res.bind_ok, memRead16, memRead_program h1, memRead_program h2,
    Res.update_ok]
  rfl

/-- Returning from an interrupt always completes (43_branch_jump_subroutine.md R221). -/
theorem returnFromInterrupt_eq (s : State) :
    returnFromInterrupt s = .ok () (((s.setP (pulledStatus (s.mem.read (256 + (s.sp + 1).toNat)))).setSp
      (s.sp + 1 + 1 + 1)).setPc
      (hiLo (s.mem.read (256 + (s.sp + 1 + 1 + 1).toNat)) (s.mem.read (256 + (s.sp + 1 + 1).toNat)))) := by
  simp only [returnFromInterrupt, pop_eq, Res.bind_ok, pop16_eq, Res.update_ok]
  rfl

/-- The effective address a memory mode names in a state. -/
theorem effectiveAddress_eq (m : MemMode) (s : State) : ∃ ea, effectiveAddress m s = .ok ea s := by
  cases m <;> simp [effectiveAddress, zeroPagePointer]

theorem BusOnly.regs {s t : State} (h : BusOnly s t) : OnlyRegs [] s t := by
  rw [h]; exact ⟨fun r _ => by cases r <;> rfl, rfl, rfl, rfl, rfl⟩

/-- Reading an operand changes devices at most. -/
theorem readSource_busOnly {o : Source} {s t : State} {v : Byte} (h : readSource o s = .ok v t) :
    BusOnly s t ∧ t.mem = s.mem := by
  cases o with
  | imm w => cases h; exact ⟨rfl, rfl⟩
  | mem m =>
    obtain ⟨ea, he⟩ := effectiveAddress_eq m s
    simp only [readSource, readMem, he, Res.bind_ok] at h
    exact memRead_busOnly h

theorem readMem_eq {m : MemMode} {s : State} {ea : Word} (h : effectiveAddress m s = .ok ea s) :
    readMem m s = memRead ea s := by
  simp only [readMem, h, Res.bind_ok]

end Sys2Proof.Machine
end

