-- ==== Sys2Proof/Laws/Address.lean ====
section
/-! SUPPORT. Bytes of words, and the address map as ranges of numbers. -/

namespace Sys2Proof.Machine

/-- The word of two bytes, as a number. -/
theorem hiLo_eq_ofNat (h l : Byte) : hiLo h l = BitVec.ofNat 16 (l.toNat + 256 * h.toNat) := by
  apply BitVec.eq_of_toNat_eq
  have := h.isLt
  have := l.isLt
  simp only [hiLo, BitVec.toNat_append, BitVec.toNat_ofNat]
  rw [← Nat.shiftLeft_add_eq_or_of_lt (by omega), Nat.shiftLeft_eq]
  omega

theorem loByte_eq_ofNat (a : Word) : loByte a = BitVec.ofNat 8 (a.toNat % 256) := by
  apply BitVec.eq_of_toNat_eq
  simp [loByte]

theorem hiByte_eq_ofNat (a : Word) : hiByte a = BitVec.ofNat 8 (a.toNat / 256) := by
  apply BitVec.eq_of_toNat_eq
  simp [hiByte, Nat.shiftRight_eq_div_pow]

/-- The bytes of a word make the word. -/
@[simp] theorem hiLo_hiByte_loByte (a : Word) : hiLo (hiByte a) (loByte a) = a := by
  unfold hiLo hiByte loByte
  exact (BitVec.extractLsb'_append_extractLsb'_eq_extractLsb' (by decide)).trans (by simp)

@[simp] theorem loByte_hiLo (h l : Byte) : loByte (hiLo h l) = l := by
  unfold loByte hiLo
  exact BitVec.extractLsb'_append_eq_right

@[simp] theorem hiByte_hiLo (h l : Byte) : hiByte (hiLo h l) = h := by
  unfold hiByte hiLo
  exact BitVec.extractLsb'_append_eq_left

theorem zext16_eq_ofNat (b : Byte) : zext16 b = BitVec.ofNat 16 b.toNat := by
  revert b; decide

/-- The second pointer byte of an indirect jump comes from the same page (40_dispatch_addressing.md R154). -/
theorem indirectHigh_eq_ofNat (p : Word) :
    indirectHigh p = BitVec.ofNat 16 (p.toNat / 256 * 256 + (p.toNat + 1) % 256) := by
  have hp := p.isLt
  apply BitVec.eq_of_toNat_eq
  unfold indirectHigh
  have e1 : (p &&& 0xFF00).toNat = p.toNat / 256 * 256 := by
    have : (p &&& 0xFF00) = (p >>> 8) <<< 8 := by
      ext i hi
      simp only [BitVec.getElem_and, BitVec.getElem_shiftLeft]
      have : i = 0 ∨ i = 1 ∨ i = 2 ∨ i = 3 ∨ i = 4 ∨ i = 5 ∨ i = 6 ∨ i = 7 ∨ i = 8 ∨ i = 9 ∨ i = 10 ∨ i = 11 ∨
          i = 12 ∨ i = 13 ∨ i = 14 ∨ i = 15 := by omega
      rcases this with rfl | rfl | rfl | rfl | rfl | rfl | rfl | rfl | rfl | rfl | rfl | rfl | rfl | rfl | rfl | rfl <;>
        simp
    refine (congrArg BitVec.toNat this).trans ?_
    simp [Nat.shiftLeft_eq, Nat.shiftRight_eq_div_pow]
    omega
  have e2 : ((p + 1) &&& 0x00FF).toNat = (p.toNat + 1) % 256 := by
    rw [BitVec.toNat_and]
    show ((p + 1).toNat &&& (2 ^ 8 - 1)) = _
    rw [Nat.and_two_pow_sub_one_eq_mod]
    simp
  rw [BitVec.toNat_or, e1, e2, show p.toNat / 256 * 256 = (p.toNat / 256) <<< 8 by rw [Nat.shiftLeft_eq],
    ← Nat.shiftLeft_add_eq_or_of_lt (by omega), Nat.shiftLeft_eq, BitVec.toNat_ofNat]
  omega

/-- The address map (20_memory.md R71) as ranges. -/
theorem region_eq_ranges (a : Word) :
    region a =
      if a.toNat < 0x2000 then .ram else if a.toNat < 0x4000 then .ppu
      else if a.toNat < 0x4020 then .io else if a.toNat < 0x6000 then .expansion
      else if a.toNat < 0x8000 then .sram else .program := by
  have hlt := a.isLt
  have h : (a >>> 13).toNat = a.toNat / 8192 := by simp [Nat.shiftRight_eq_div_pow]
  unfold region
  rw [h]
  have he : Config.expansionBase.toNat = 0x4020 := rfl
  rw [he]
  have hc : a.toNat / 8192 = 0 ∨ a.toNat / 8192 = 1 ∨ a.toNat / 8192 = 2 ∨ a.toNat / 8192 = 3 ∨
      a.toNat / 8192 = 4 ∨ a.toNat / 8192 = 5 ∨ a.toNat / 8192 = 6 ∨ a.toNat / 8192 = 7 := by omega
  rcases hc with h | h | h | h | h | h | h | h <;> rw [h]
  · show Region.ram = _
    rw [if_pos (by omega)]
  · show Region.ppu = _
    rw [if_neg (by omega), if_pos (by omega)]
  · show (if a.toNat < 0x4020 then Region.io else Region.expansion) = _
    rw [if_neg (by omega : ¬ a.toNat < 0x2000), if_neg (by omega : ¬ a.toNat < 0x4000)]
    split
    · rfl
    · rw [if_pos (by omega)]
  · show Region.sram = _
    rw [if_neg (by omega), if_neg (by omega), if_neg (by omega), if_neg (by omega), if_pos (by omega)]
  all_goals
    show Region.program = _
    rw [if_neg (by omega), if_neg (by omega), if_neg (by omega), if_neg (by omega), if_neg (by omega)]

theorem mask_ram (a : Word) : (a &&& 0x07FF).toNat = a.toNat % 0x0800 := by
  rw [BitVec.toNat_and]
  exact Nat.and_two_pow_sub_one_eq_mod a.toNat 11

theorem mask_ppu (a : Word) : (a &&& 7).toNat = a.toNat % 8 := by
  rw [BitVec.toNat_and]
  exact Nat.and_two_pow_sub_one_eq_mod a.toNat 3

theorem mask_io (a : Word) : (a &&& 0x1F).toNat = a.toNat % 32 := by
  rw [BitVec.toNat_and]
  exact Nat.and_two_pow_sub_one_eq_mod a.toNat 5

theorem memKey_ram {a : Word} (h : a.toNat < 0x2000) : memKey a = some (a.toNat % 0x0800) := by
  unfold memKey
  rw [region_eq_ranges, if_pos h, mask_ram]

theorem memKey_upper {a : Word} (h : 0x6000 ≤ a.toNat) : memKey a = some a.toNat := by
  unfold memKey
  rw [region_eq_ranges, if_neg (by omega), if_neg (by omega), if_neg (by omega), if_neg (by omega)]
  by_cases k : a.toNat < 0x8000
  · rw [if_pos k]
  · rw [if_neg k]

theorem memKey_device {a : Word} (h : 0x2000 ≤ a.toNat) (k : a.toNat < 0x6000) : memKey a = none := by
  unfold memKey
  rw [region_eq_ranges, if_neg (by omega)]
  by_cases h1 : a.toNat < 0x4000
  · rw [if_pos h1]
  · rw [if_neg h1]
    by_cases h2 : a.toNat < 0x4020
    · rw [if_pos h2]
    · rw [if_neg h2, if_pos k]

theorem region_program {a : Word} (h : 0x8000 ≤ a.toNat) : region a = .program := by
  rw [region_eq_ranges, if_neg (by omega), if_neg (by omega), if_neg (by omega), if_neg (by omega), if_neg (by omega)]

/-- A read where the bus holds a byte of memory. -/
theorem memRead_of_peek {a : Word} {s : State} {b : Byte} (h : s.peek a = some b) : memRead a s = .ok b s := by
  unfold State.peek memKey at h
  unfold memRead
  split at h <;> simp_all

theorem memKey_stackAt (i : Byte) : memKey (stackAt i) = some (256 + i.toNat) := by
  revert i; decide

theorem peek_stackAt (s : State) (i : Byte) : s.peek (stackAt i) = some (s.mem.read (256 + i.toNat)) := by
  rw [State.peek, memKey_stackAt]
  rfl

theorem peek_of_mem_eq {s t : State} (h : t.mem = s.mem) (a : Word) : t.peek a = s.peek a := by
  simp [State.peek, h]

/-- A bus write that completes stores that byte and no other byte of memory. -/
theorem memWrite_storesOnly {ea : Word} {v : Byte} {s t : State} {w : Unit} (h : memWrite ea v s = .ok w t) :
    StoresOnly ea v s t := by
  intro a
  unfold memWrite at h
  unfold State.peek
  have hk : memKey ea = match region ea with
    | .ram => some (ea &&& 0x07FF).toNat
    | .sram | .program => some ea.toNat
    | .ppu | .io | .expansion => none := rfl
  split at h <;> rename_i hr <;> rw [hr] at hk
  · cases h
    simp only [hk, State.setMem_mem]
    cases hka : memKey a <;> simp [Memory.read_write]
    split <;> rfl
  · obtain ⟨u, rfl⟩ := ppuWrite_ok h
    simp [hk]
  · obtain ⟨k, hk'⟩ := ioWrite_eq ea v s
    rw [hk'] at h
    cases h
    simp [hk]
  · cases h
  · cases h
    simp only [hk, State.setMem_mem]
    cases hka : memKey a <;> simp [Memory.read_write]
    split <;> rfl
  · cases h

end Sys2Proof.Machine
end

