-- ==== Sys2Proof/Laws/Cartridge.lean ====
section
/-! SUPPORT. Binding a cartridge keeps the canonical form of both memories, and what a bound window reads as. -/

namespace Sys2Proof.Machine

theorem Memory.filter_wf {m : Memory} (q : Host.Cell → Bool) (h : m.wf) : Memory.wf (m.filter q) :=
  ⟨h.1.filter _, fun c hc => h.2 c (List.mem_filter.1 hc).1⟩

/-- Two memories in canonical form, one below an address and one from it on. -/
theorem Memory.append_wf {m n : Memory} (hm : m.wf) (hn : n.wf) (b : Nat) (h1 : ∀ c ∈ m, c.1 < b)
    (h2 : ∀ c ∈ n, b ≤ c.1) : Memory.wf (m ++ n) := by
  refine ⟨List.pairwise_append.2 ⟨hm.1, hn.1, fun c hc d hd => lt_of_lt_of_le (h1 c hc) (h2 d hd)⟩, fun c hc => ?_⟩
  rcases List.mem_append.1 hc with h | h
  · exact hm.2 c h
  · exact hn.2 c h

theorem bindProgram_wf (bytes : List Byte) {m : Memory} (h : m.wf) : (bindProgram bytes m).wf :=
  Memory.append_wf (Memory.filter_wf _ h) (Memory.ofBytes_wf _ _) 0x8000
    (fun _ hc => by simpa using (List.mem_filter.1 hc).2) fun _ hc => (Memory.mem_ofBytes hc).1

theorem bindGraphics_wf (bytes : List Byte) {m : Memory} (h : m.wf) : (bindGraphics bytes m).wf := by
  refine Memory.append_wf (Memory.ofBytes_wf _ _) (Memory.filter_wf _ h) 8192 (fun c hc => ?_)
    fun _ hc => by simpa using (List.mem_filter.1 hc).2
  have := Memory.mem_ofBytes hc
  have : (List.take 8192 bytes).length ≤ 8192 := by simp
  omega

/-- The memory on the bus after reset is in the canonical form: it lists nothing. -/
theorem reset_mem_wf : State.reset.mem.wf := ⟨List.Pairwise.nil, fun _ hc => by cases hc⟩

/-- What consecutive bytes read as. -/
theorem Memory.read_ofBytes (k : Nat) (bytes : List Byte) (j : Nat) :
    (Memory.ofBytes k bytes).read j =
      if k ≤ j then (bytes[j - k]?).getD Config.unlistedByte else Config.unlistedByte := by
  induction bytes generalizing k with
  | nil => simp [Memory.ofBytes, Memory.read]
  | cons v rest ih =>
    simp only [Memory.ofBytes]
    by_cases hj : k = j
    · subst hj
      simp only [Nat.le_refl, if_true, Nat.sub_self, List.getElem?_cons_zero, Option.getD_some]
      split
      · rename_i hv
        rw [ih, if_neg (by omega), hv]
      · simp [Memory.read]
    · have step : (if k + 1 ≤ j then (rest[j - (k + 1)]?).getD Config.unlistedByte else Config.unlistedByte) =
          if k ≤ j then ((v :: rest)[j - k]?).getD Config.unlistedByte else Config.unlistedByte := by
        by_cases h : k ≤ j
        · rw [if_pos (by omega), if_pos h]
          obtain ⟨d, hd⟩ : ∃ d, j - k = d + 1 := ⟨j - k - 1, by omega⟩
          rw [hd, show j - (k + 1) = d by omega]; rfl
        · rw [if_neg (by omega), if_neg h]
      split
      · rw [ih, step]
      · rw [Memory.read, if_neg hj, ih, step]

/-- What the memory reads as once the program windows are bound: the bytes from 0x8000 on, the launch contents below. -/
theorem bindProgram_read (bytes : List Byte) (m : Memory) (j : Nat) :
    (bindProgram bytes m).read j =
      if 0x8000 ≤ j then (bytes[j - 0x8000]?).getD Config.unlistedByte else m.read j := by
  unfold bindProgram
  by_cases h : 0x8000 ≤ j
  · have hn : j ∉ (m.filter fun c => decide (c.1 < 0x8000)).map (·.1) := fun hj => by
      obtain ⟨c, hc, rfl⟩ := List.mem_map.1 hj
      have := (List.mem_filter.1 hc).2
      simp only [decide_eq_true_eq] at this
      omega
    rw [Memory.read_append, if_neg hn, Memory.read_ofBytes, if_pos h, if_pos h]
  · have hf := Memory.read_filter m (fun k => decide (k < 0x8000)) j (by simpa using h)
    rw [Memory.read_append, Memory.read_ofBytes, if_neg h, if_neg h]
    split
    · exact hf
    · rename_i hn
      rw [← hf]
      exact (Memory.read_of_not_mem _ _ fun c hc e => hn (List.mem_map.2 ⟨c, hc, e⟩)).symm

/-- What the graphics stores read as once the cartridge's data is bound: stores 0 to 7 the data, the others the launch
contents. -/
theorem bindGraphics_read (bytes : List Byte) (m : Memory) (j : Nat) :
    (bindGraphics bytes m).read j =
      if j < 8192 then (bytes[j]?).getD Config.unlistedByte else m.read j := by
  unfold bindGraphics
  rw [Memory.read_append]
  by_cases h : j < 8192
  · rw [if_pos h]
    have ho : (Memory.ofBytes 0 (bytes.take 8192)).read j = (bytes[j]?).getD Config.unlistedByte := by
      rw [Memory.read_ofBytes, if_pos (Nat.zero_le j), Nat.sub_zero, List.getElem?_take, if_pos h]
    split
    · exact ho
    · rename_i hn
      rw [← ho, Memory.read_of_not_mem _ _ fun c hc e => hn (List.mem_map.2 ⟨c, hc, e⟩)]
      refine Memory.read_of_not_mem _ _ fun c hc e => ?_
      have := (List.mem_filter.1 hc).2
      simp only [decide_eq_true_eq] at this
      omega
  · rw [if_neg h, if_neg, Memory.read_filter m (fun k => decide (8192 ≤ k)) j (by simpa using h)]
    intro hj
    obtain ⟨c, hc, rfl⟩ := List.mem_map.1 hj
    have := Memory.mem_ofBytes hc
    have : (List.take 8192 bytes).length ≤ 8192 := by simp
    omega

/-- The store each window shows: 0 to 7 in order, then the two name-table stores, arranged by bit 0 of flag byte 1. -/
theorem windowsOf_get (h : Header) (w : Fin 16) :
    (windowsOf h).get w =
      if w.val < 8 then w.val else 8 + (if h.flag1.getLsbD 0 then w.val % 2 else w.val / 2 % 2) := by
  unfold windowsOf
  cases h.flag1.getLsbD 0 <;> revert w <;> decide

end Sys2Proof.Machine
end

