-- ==== Sys2Proof/Laws/Exec.lean ====
section
/-! SUPPORT. What any instruction and any CPU step can do, said once: a property kept by each register update, each
bus access and each way to halt is kept by every instruction. -/

namespace Sys2Proof.Machine

/-- However the operation ends, its state has the property. -/
def Res.Sat {α : Type} (r : Res α) (Q : State → Prop) : Prop :=
  match r with
  | .ok _ s => Q s
  | .fatal _ s => Q s

theorem Res.Sat.bind {α β : Type} {r : Res α} {f : α → State → Res β} {Q : State → Prop}
    (h : r.Sat Q) (k : ∀ v s, Q s → (f v s).Sat Q) : (r.bind f).Sat Q := by
  cases r with
  | ok v s => exact k v s h
  | fatal c s => exact h

theorem Res.Sat.update {α : Type} {r : Res α} {f : α → State → State} {Q : State → Prop}
    (h : r.Sat Q) (k : ∀ v s, Q s → Q (f v s)) : (r.update f).Sat Q := by
  cases r with
  | ok v s => exact k v s h
  | fatal c s => exact h

/-- A property that every elementary update of a CPU step keeps. -/
structure Closed (Q : State → Prop) : Prop where
  setA : ∀ s v, Q s → Q (s.setA v)
  setX : ∀ s v, Q s → Q (s.setX v)
  setY : ∀ s v, Q s → Q (s.setY v)
  setSp : ∀ s v, Q s → Q (s.setSp v)
  setPc : ∀ s v, Q s → Q (s.setPc v)
  /-- A flag computation leaves Reserved and Break alone (10_state.md R26, R31). -/
  setP : ∀ s p, p.getLsbD 5 = s.p.getLsbD 5 → p.getLsbD 4 = s.p.getLsbD 4 → Q s → Q (s.setP p)
  pull : ∀ s v, Q s → Q (s.setP (pulledStatus v))
  read : ∀ a s, Q s → (memRead a s).Sat Q
  write : ∀ a v s, Q s → (memWrite a v s).Sat Q
  halt : ∀ s c, Q s → Q (s.setHalted (.halted c))
  busHalt : ∀ s c, Q s → Q (s.busHalt c)

namespace Closed

variable {Q : State → Prop} (C : Closed Q)

include C

theorem finish {r : Res Unit} {t : State} (h : r.Sat Q) (e : r.finish = .next t) : Q t := by
  cases r with
  | ok v s => cases e; exact h
  | fatal c s => cases e; exact C.busHalt _ _ h

theorem flag {s : State} {i : Nat} {b : Bool} (hi : i = 0 ∨ i = 1 ∨ i = 2 ∨ i = 3 ∨ i = 6 ∨ i = 7) (h : Q s) :
    Q (s.withFlag i b) := by
  refine C.setP _ _ ?_ ?_ h
  · exact (setFlag_getLsbD (by omega) _ _ _).trans (if_neg (by omega))
  · exact (setFlag_getLsbD (by omega) _ _ _).trans (if_neg (by omega))

theorem nz {s : State} (v : Byte) (h : Q s) : Q (s.setP (setNZ v s.p)) :=
  C.setP _ _ (setNZ_getLsbD _ _ _) (setNZ_getLsbD _ _ _) h

theorem loadA {s : State} (v : Byte) (h : Q s) : Q (s.loadA v) :=
  C.nz (s := s.setA v) v (C.setA _ _ h)

theorem loadX {s : State} (v : Byte) (h : Q s) : Q (s.loadX v) :=
  C.nz (s := s.setX v) v (C.setX _ _ h)

theorem loadY {s : State} (v : Byte) (h : Q s) : Q (s.loadY v) :=
  C.nz (s := s.setY v) v (C.setY _ _ h)

theorem addWithCarry {s : State} (m : Byte) (h : Q s) : Q (s.addWithCarry m) :=
  C.setP (s.setA _) _ (adderFlags_getLsbD _ _ _) (adderFlags_getLsbD _ _ _) (C.setA _ _ h)

theorem compareWith {s : State} (r m : Byte) (h : Q s) : Q (s.compareWith r m) :=
  C.setP _ _ (compareFlags_getLsbD _ _ _ _) (compareFlags_getLsbD _ _ _ _) h

theorem shifted {s : State} (r : ShiftOut) (h : Q s) : Q (s.setP (shiftFlags r s.p)) :=
  C.setP _ _ (shiftFlags_getLsbD _ _ _) (shiftFlags_getLsbD _ _ _) h

theorem branchIf {s : State} (b : Bool) (o : Byte) (h : Q s) : Q (s.branchIf b o) := by
  unfold State.branchIf
  split
  · exact C.setPc _ _ h
  · exact h

omit C in
theorem effectiveAddress {s : State} (m : MemMode) (h : Q s) : (effectiveAddress m s).Sat Q := by
  obtain ⟨ea, he⟩ := effectiveAddress_eq m s
  rw [he]; exact h

theorem readMem {s : State} (m : MemMode) (h : Q s) : (readMem m s).Sat Q :=
  (Closed.effectiveAddress m h).bind fun _ _ h => C.read _ _ h

theorem readSource {s : State} (o : Source) (h : Q s) : (readSource o s).Sat Q := by
  cases o with
  | imm v => exact h
  | mem m => exact C.readMem m h

theorem storeMem {s : State} (m : MemMode) (v : Byte) (h : Q s) : (storeMem m v s).Sat Q :=
  (Closed.effectiveAddress m h).bind fun _ _ h => C.write _ _ _ h

theorem modifyMem {s : State} (m : MemMode) {new : Byte → Byte} {after : Byte → State → State}
    (k : ∀ v t, Q t → Q (after v t)) (h : Q s) : (modifyMem m new after s).Sat Q :=
  (Closed.effectiveAddress m h).bind fun _ _ h => (C.read _ _ h).bind fun _ _ h => (C.write _ _ _ h).update fun _ _ h => k _ _ h

theorem shiftOperand {s : State} (t : ShiftTarget) (f : Byte → ShiftOut) (h : Q s) : (shiftOperand t f s).Sat Q := by
  cases t with
  | acc => exact C.shifted (s := s.setA _) _ (C.setA _ _ h)
  | mem m => exact C.modifyMem m (fun v t h => C.shifted _ h) h

theorem push {s : State} (v : Byte) (h : Q s) : (push v s).Sat Q :=
  (C.write _ _ _ h).update fun _ _ h => C.setSp _ _ h

theorem pop {s : State} (h : Q s) : (pop s).Sat Q := C.read _ _ (C.setSp _ _ h)

theorem push16 {s : State} (v : Word) (h : Q s) : (push16 v s).Sat Q :=
  (C.push _ h).bind fun _ _ h => C.push _ h

theorem pop16 {s : State} (h : Q s) : (pop16 s).Sat Q :=
  (C.pop h).bind fun _ _ h => (C.pop h).bind fun _ _ h => h

theorem memRead16 {s : State} (a : Word) (h : Q s) : (memRead16 a s).Sat Q :=
  (C.read _ _ h).bind fun _ _ h => (C.read _ _ h).bind fun _ _ h => h

theorem enterInterrupt {s : State} (ret : Word) (st : Byte) (vec : Word) (h : Q s) :
    (enterInterrupt ret st vec s).Sat Q :=
  (C.push16 _ h).bind fun _ _ h => (C.push _ h).bind fun _ _ h =>
    (C.memRead16 _ (C.flag (by decide) h)).update fun _ _ h => C.setPc _ _ h

theorem returnFromInterrupt {s : State} (h : Q s) : (returnFromInterrupt s).Sat Q :=
  (C.pop h).bind fun _ _ h => (C.pop16 (C.pull _ _ h)).update fun _ _ h => C.setPc _ _ h

theorem jumpAddress {s : State} (t : JumpTarget) (h : Q s) : (jumpAddress t s).Sat Q := by
  cases t with
  | abs a => exact h
  | ind p => exact (C.read _ _ h).bind fun _ _ h => (C.read _ _ h).bind fun _ _ h => h

/-- Every instruction keeps the property. -/
theorem exec {s t : State} {i : Instr} (h : Q s) (e : exec i s = .next t) : Q t := by
  cases i with
  | adc o => exact C.finish ((C.readSource o h).update fun v _ h => C.addWithCarry v h) e
  | sbc o => exact C.finish ((C.readSource o h).update fun v _ h => C.addWithCarry _ h) e
  | and o => exact C.finish ((C.readSource o h).update fun v _ h => C.loadA _ h) e
  | ora o => exact C.finish ((C.readSource o h).update fun v _ h => C.loadA _ h) e
  | eor o => exact C.finish ((C.readSource o h).update fun v _ h => C.loadA _ h) e
  | bit m =>
    exact C.finish ((C.readMem m h).update fun v _ h =>
      C.setP _ _ (bitTestFlags_getLsbD _ _ _ _) (bitTestFlags_getLsbD _ _ _ _) h) e
  | cmp o => exact C.finish ((C.readSource o h).update fun v _ h => C.compareWith _ _ h) e
  | cpx o => exact C.finish ((C.readSource o h).update fun v _ h => C.compareWith _ _ h) e
  | cpy o => exact C.finish ((C.readSource o h).update fun v _ h => C.compareWith _ _ h) e
  | asl t => exact C.finish (C.shiftOperand t _ h) e
  | lsr t => exact C.finish (C.shiftOperand t _ h) e
  | rol t => exact C.finish (C.shiftOperand t _ h) e
  | ror t => exact C.finish (C.shiftOperand t _ h) e
  | inc m => exact C.finish (C.modifyMem m (fun v _ h => C.nz _ h) h) e
  | dec m => exact C.finish (C.modifyMem m (fun v _ h => C.nz _ h) h) e
  | inx => cases e; exact C.loadX _ h
  | iny => cases e; exact C.loadY _ h
  | dex => cases e; exact C.loadX _ h
  | dey => cases e; exact C.loadY _ h
  | bpl o => cases e; exact C.branchIf _ _ h
  | bmi o => cases e; exact C.branchIf _ _ h
  | bvc o => cases e; exact C.branchIf _ _ h
  | bvs o => cases e; exact C.branchIf _ _ h
  | bcc o => cases e; exact C.branchIf _ _ h
  | bcs o => cases e; exact C.branchIf _ _ h
  | bne o => cases e; exact C.branchIf _ _ h
  | beq o => cases e; exact C.branchIf _ _ h
  | jmp t => exact C.finish ((C.jumpAddress t h).update fun _ _ h => C.setPc _ _ h) e
  | jsr a => exact C.finish ((C.push16 _ h).update fun _ _ h => C.setPc _ _ h) e
  | rts => exact C.finish ((C.pop16 h).update fun _ _ h => C.setPc _ _ h) e
  | rti => exact C.finish (C.returnFromInterrupt h) e
  | brk => exact C.finish (C.enterInterrupt _ _ _ h) e
  | nop => cases e; exact h
  | pha => exact C.finish (C.push _ h) e
  | pla => exact C.finish ((C.pop h).update fun v _ h => C.loadA v h) e
  | php => exact C.finish (C.push _ h) e
  | plp => exact C.finish ((C.pop h).update fun v _ h => C.pull _ v h) e
  | clc => cases e; exact C.flag (by decide) h
  | sec => cases e; exact C.flag (by decide) h
  | cli => cases e; exact C.flag (by decide) h
  | sei => cases e; exact C.flag (by decide) h
  | clv => cases e; exact C.flag (by decide) h
  | cld => cases e; exact C.flag (by decide) h
  | sed => cases e; exact C.flag (by decide) h
  | lda o => exact C.finish ((C.readSource o h).update fun v _ h => C.loadA v h) e
  | ldx o => exact C.finish ((C.readSource o h).update fun v _ h => C.loadX v h) e
  | ldy o => exact C.finish ((C.readSource o h).update fun v _ h => C.loadY v h) e
  | sta m => exact C.finish (C.storeMem m _ h) e
  | stx m => exact C.finish (C.storeMem m _ h) e
  | sty m => exact C.finish (C.storeMem m _ h) e
  | tax => cases e; exact C.loadX _ h
  | tay => cases e; exact C.loadY _ h
  | txa => cases e; exact C.loadA _ h
  | tya => cases e; exact C.loadA _ h
  | tsx => cases e; exact C.loadX _ h
  | txs => cases e; exact C.setSp _ _ h
  | slo m => exact C.finish (C.modifyMem m (fun v _ h => C.loadA _ (C.flag (by decide) h)) h) e
  | rla m => exact C.finish (C.modifyMem m (fun v _ h => C.loadA _ (C.flag (by decide) h)) h) e
  | sre m => exact C.finish (C.modifyMem m (fun v _ h => C.loadA _ (C.flag (by decide) h)) h) e
  | rra m => exact C.finish (C.modifyMem m (fun v _ h => C.addWithCarry _ (C.flag (by decide) h)) h) e
  | sax m => exact C.finish (C.storeMem m _ h) e
  | lax m => exact C.finish ((C.readMem m h).update fun v _ h => C.setX _ _ (C.loadA v h)) e
  | dcp m => exact C.finish (C.modifyMem m (fun v _ h => C.compareWith _ _ h) h) e
  | isb m => exact C.finish (C.modifyMem m (fun v _ h => C.addWithCarry _ h) h) e
  | nopU op o => cases e; exact h
  | sbcU v => cases e; exact C.addWithCarry _ h
  | hlt op => cases e; exact C.halt _ _ h

theorem fetchByte {s : State} (h : Q s) : (fetchByte s).Sat Q :=
  (C.read _ _ h).bind fun _ _ h => C.setPc _ _ h

theorem fetchOperands {s : State} (op : Byte) (h : Q s) : (fetchOperands op s).Sat Q := by
  unfold Machine.fetchOperands
  split
  · exact C.setPc _ _ h
  · split
    · exact h
    · exact (C.fetchByte h).bind fun _ _ h => h
    · exact (C.fetchByte h).bind fun _ _ h => (C.fetchByte h).bind fun _ _ h => h

theorem fetchInstr {s : State} (h : Q s) : (fetchInstr s).Sat Q := by
  refine (C.fetchByte h).bind fun op t k => ?_
  split
  · exact C.setPc _ _ h
  · exact C.fetchOperands op k

/-- Every CPU step keeps the property. -/
theorem cpuStep {s t : State} (h : Q s) (e : cpuStep s = .next t) : Q t := by
  unfold Machine.cpuStep at e
  split at e
  · cases e
  · have k := C.fetchInstr h
    cases hf : Machine.fetchInstr s with
    | ok i u => rw [hf] at k e; exact C.exec k e
    | fatal c u => rw [hf] at k e; cases e; exact C.busHalt _ _ k

end Closed

/-- Only bus accesses that complete lead a CPU step from one memory and device state to another. -/
theorem Accesses.closed (s : State) : Closed (fun t => ∃ l, Accesses s l t) where
  setA _ _ h := h.imp fun _ k => k.keep rfl rfl rfl rfl
  setX _ _ h := h.imp fun _ k => k.keep rfl rfl rfl rfl
  setY _ _ h := h.imp fun _ k => k.keep rfl rfl rfl rfl
  setSp _ _ h := h.imp fun _ k => k.keep rfl rfl rfl rfl
  setPc _ _ h := h.imp fun _ k => k.keep rfl rfl rfl rfl
  setP _ _ _ _ h := h.imp fun _ k => k.keep rfl rfl rfl rfl
  pull _ _ h := h.imp fun _ k => k.keep rfl rfl rfl rfl
  halt _ _ h := h.imp fun _ k => k.keep rfl rfl rfl rfl
  busHalt _ _ h := h.imp fun _ k => k.keep rfl rfl rfl rfl
  read a u h := by
    obtain ⟨l, k⟩ := h
    cases e : memRead a u with
    | ok v t => exact ⟨_, k.read e⟩
    | fatal c t => exact ⟨l, memRead_fatal e ▸ k⟩
  write a v u h := by
    obtain ⟨l, k⟩ := h
    cases e : memWrite a v u with
    | ok w t => exact ⟨_, k.write e⟩
    | fatal c t => exact ⟨l, memWrite_fatal e ▸ k⟩

/-- A halting byte leaves PC past it and nothing else changed, wherever it is fetched from (60_exceptions.md R387). -/
theorem fetchInstr_halting {s t : State} {op b : Byte} (h : memRead s.pc s = .ok op t)
    (e : tableEntry op 0 0 = .hlt b) : fetchInstr s = .ok (.hlt b) (s.setPc (s.pc + 1)) := by
  simp only [fetchInstr, fetchByte, h, Res.bind_ok, e]

/-- Where the opcode fetch has no side effect, the operand bytes are fetched from PC past the opcode. -/
theorem fetchInstr_memory {s : State} {op : Byte} (h : memRead s.pc s = .ok op s) :
    fetchInstr s = fetchOperands op (s.setPc (s.pc + 1)) := by
  simp only [fetchInstr, fetchByte, h, Res.bind_ok]
  split
  · rename_i b e
    simp only [fetchOperands, e, Instr.operandSize]
  · rfl

/-- No instruction ends in a fault or a refusal. -/
theorem exec_next (i : Instr) (s : State) : ∃ t, exec i s = .next t := by
  cases i <;> first | exact Res.finish_next _ | exact ⟨_, rfl⟩

/-- While the machine runs, a CPU step ends in a next state. -/
theorem cpuStep_next {s : State} (h : s.halted = .running) : ∃ t, cpuStep s = .next t := by
  unfold cpuStep
  rw [h]
  cases fetchInstr s with
  | ok i u => exact exec_next i u
  | fatal c u => exact ⟨_, rfl⟩

/-- A CPU turn is a CPU step. -/
theorem takes_cpu {s t : State} : Takes .cpu s t ↔ cpuStep s = .next t := Iff.rfl

/-- A turn of the frame sequencer is its operation. -/
theorem takes_host {op : HostOp} {s t : State} : Takes (.host op) s t ↔ runHost op s = .next t := Iff.rfl

end Sys2Proof.Machine
end

