-- ==== Sys2Proof/Laws/PerInstr.lean ====
section
/-! SUPPORT. What holds of every instruction as syntax, one lemma per constructor: a well-formed instruction has an
encoding, of the length its addressing-mode tag gives it (30_encoding.md R111, R112). -/

namespace Sys2Proof.Laws

/-- A well-formed instruction is encoded in as many bytes as its length says, at most three (R112). -/
def EncodingLength.Statement (i : Instr) : Prop :=
  i.wellFormed = true → ∃ bs, encode i = some bs ∧ bs.length = i.length ∧ bs.length ≤ 3

theorem EncodingLength.adc (o : Source) : EncodingLength.Statement (.adc o) := by
  intro h
  cases o with
  | imm v => exact ⟨_, rfl, rfl, Nat.le_of_ble_eq_true rfl⟩
  | mem m => cases m <;> first | exact ⟨_, rfl, rfl, Nat.le_of_ble_eq_true rfl⟩ | exact Bool.noConfusion h

theorem EncodingLength.sbc (o : Source) : EncodingLength.Statement (.sbc o) := by
  intro h
  cases o with
  | imm v => exact ⟨_, rfl, rfl, Nat.le_of_ble_eq_true rfl⟩
  | mem m => cases m <;> first | exact ⟨_, rfl, rfl, Nat.le_of_ble_eq_true rfl⟩ | exact Bool.noConfusion h

theorem EncodingLength.and (o : Source) : EncodingLength.Statement (.and o) := by
  intro h
  cases o with
  | imm v => exact ⟨_, rfl, rfl, Nat.le_of_ble_eq_true rfl⟩
  | mem m => cases m <;> first | exact ⟨_, rfl, rfl, Nat.le_of_ble_eq_true rfl⟩ | exact Bool.noConfusion h

theorem EncodingLength.ora (o : Source) : EncodingLength.Statement (.ora o) := by
  intro h
  cases o with
  | imm v => exact ⟨_, rfl, rfl, Nat.le_of_ble_eq_true rfl⟩
  | mem m => cases m <;> first | exact ⟨_, rfl, rfl, Nat.le_of_ble_eq_true rfl⟩ | exact Bool.noConfusion h

theorem EncodingLength.eor (o : Source) : EncodingLength.Statement (.eor o) := by
  intro h
  cases o with
  | imm v => exact ⟨_, rfl, rfl, Nat.le_of_ble_eq_true rfl⟩
  | mem m => cases m <;> first | exact ⟨_, rfl, rfl, Nat.le_of_ble_eq_true rfl⟩ | exact Bool.noConfusion h

theorem EncodingLength.bit (m : MemMode) : EncodingLength.Statement (.bit m) := by
  intro h
  cases m <;> first | exact ⟨_, rfl, rfl, Nat.le_of_ble_eq_true rfl⟩ | exact Bool.noConfusion h

theorem EncodingLength.cmp (o : Source) : EncodingLength.Statement (.cmp o) := by
  intro h
  cases o with
  | imm v => exact ⟨_, rfl, rfl, Nat.le_of_ble_eq_true rfl⟩
  | mem m => cases m <;> first | exact ⟨_, rfl, rfl, Nat.le_of_ble_eq_true rfl⟩ | exact Bool.noConfusion h

theorem EncodingLength.cpx (o : Source) : EncodingLength.Statement (.cpx o) := by
  intro h
  cases o with
  | imm v => exact ⟨_, rfl, rfl, Nat.le_of_ble_eq_true rfl⟩
  | mem m => cases m <;> first | exact ⟨_, rfl, rfl, Nat.le_of_ble_eq_true rfl⟩ | exact Bool.noConfusion h

theorem EncodingLength.cpy (o : Source) : EncodingLength.Statement (.cpy o) := by
  intro h
  cases o with
  | imm v => exact ⟨_, rfl, rfl, Nat.le_of_ble_eq_true rfl⟩
  | mem m => cases m <;> first | exact ⟨_, rfl, rfl, Nat.le_of_ble_eq_true rfl⟩ | exact Bool.noConfusion h

theorem EncodingLength.asl (t : ShiftTarget) : EncodingLength.Statement (.asl t) := by
  intro h
  cases t with
  | acc => exact ⟨_, rfl, rfl, Nat.le_of_ble_eq_true rfl⟩
  | mem m => cases m <;> first | exact ⟨_, rfl, rfl, Nat.le_of_ble_eq_true rfl⟩ | exact Bool.noConfusion h

theorem EncodingLength.lsr (t : ShiftTarget) : EncodingLength.Statement (.lsr t) := by
  intro h
  cases t with
  | acc => exact ⟨_, rfl, rfl, Nat.le_of_ble_eq_true rfl⟩
  | mem m => cases m <;> first | exact ⟨_, rfl, rfl, Nat.le_of_ble_eq_true rfl⟩ | exact Bool.noConfusion h

theorem EncodingLength.rol (t : ShiftTarget) : EncodingLength.Statement (.rol t) := by
  intro h
  cases t with
  | acc => exact ⟨_, rfl, rfl, Nat.le_of_ble_eq_true rfl⟩
  | mem m => cases m <;> first | exact ⟨_, rfl, rfl, Nat.le_of_ble_eq_true rfl⟩ | exact Bool.noConfusion h

theorem EncodingLength.ror (t : ShiftTarget) : EncodingLength.Statement (.ror t) := by
  intro h
  cases t with
  | acc => exact ⟨_, rfl, rfl, Nat.le_of_ble_eq_true rfl⟩
  | mem m => cases m <;> first | exact ⟨_, rfl, rfl, Nat.le_of_ble_eq_true rfl⟩ | exact Bool.noConfusion h

theorem EncodingLength.inc (m : MemMode) : EncodingLength.Statement (.inc m) := by
  intro h
  cases m <;> first | exact ⟨_, rfl, rfl, Nat.le_of_ble_eq_true rfl⟩ | exact Bool.noConfusion h

theorem EncodingLength.dec (m : MemMode) : EncodingLength.Statement (.dec m) := by
  intro h
  cases m <;> first | exact ⟨_, rfl, rfl, Nat.le_of_ble_eq_true rfl⟩ | exact Bool.noConfusion h

theorem EncodingLength.inx : EncodingLength.Statement .inx := fun _ => ⟨_, rfl, rfl, Nat.le_of_ble_eq_true rfl⟩

theorem EncodingLength.iny : EncodingLength.Statement .iny := fun _ => ⟨_, rfl, rfl, Nat.le_of_ble_eq_true rfl⟩

theorem EncodingLength.dex : EncodingLength.Statement .dex := fun _ => ⟨_, rfl, rfl, Nat.le_of_ble_eq_true rfl⟩

theorem EncodingLength.dey : EncodingLength.Statement .dey := fun _ => ⟨_, rfl, rfl, Nat.le_of_ble_eq_true rfl⟩

theorem EncodingLength.bpl (o : Byte) : EncodingLength.Statement (.bpl o) := fun _ => ⟨_, rfl, rfl, Nat.le_of_ble_eq_true rfl⟩

theorem EncodingLength.bmi (o : Byte) : EncodingLength.Statement (.bmi o) := fun _ => ⟨_, rfl, rfl, Nat.le_of_ble_eq_true rfl⟩

theorem EncodingLength.bvc (o : Byte) : EncodingLength.Statement (.bvc o) := fun _ => ⟨_, rfl, rfl, Nat.le_of_ble_eq_true rfl⟩

theorem EncodingLength.bvs (o : Byte) : EncodingLength.Statement (.bvs o) := fun _ => ⟨_, rfl, rfl, Nat.le_of_ble_eq_true rfl⟩

theorem EncodingLength.bcc (o : Byte) : EncodingLength.Statement (.bcc o) := fun _ => ⟨_, rfl, rfl, Nat.le_of_ble_eq_true rfl⟩

theorem EncodingLength.bcs (o : Byte) : EncodingLength.Statement (.bcs o) := fun _ => ⟨_, rfl, rfl, Nat.le_of_ble_eq_true rfl⟩

theorem EncodingLength.bne (o : Byte) : EncodingLength.Statement (.bne o) := fun _ => ⟨_, rfl, rfl, Nat.le_of_ble_eq_true rfl⟩

theorem EncodingLength.beq (o : Byte) : EncodingLength.Statement (.beq o) := fun _ => ⟨_, rfl, rfl, Nat.le_of_ble_eq_true rfl⟩

theorem EncodingLength.jmp (t : JumpTarget) : EncodingLength.Statement (.jmp t) := by
  intro _
  cases t <;> exact ⟨_, rfl, rfl, Nat.le_of_ble_eq_true rfl⟩

theorem EncodingLength.jsr (a : Word) : EncodingLength.Statement (.jsr a) := fun _ => ⟨_, rfl, rfl, Nat.le_of_ble_eq_true rfl⟩

theorem EncodingLength.rts : EncodingLength.Statement .rts := fun _ => ⟨_, rfl, rfl, Nat.le_of_ble_eq_true rfl⟩

theorem EncodingLength.rti : EncodingLength.Statement .rti := fun _ => ⟨_, rfl, rfl, Nat.le_of_ble_eq_true rfl⟩

theorem EncodingLength.brk : EncodingLength.Statement .brk := fun _ => ⟨_, rfl, rfl, Nat.le_of_ble_eq_true rfl⟩

theorem EncodingLength.nop : EncodingLength.Statement .nop := fun _ => ⟨_, rfl, rfl, Nat.le_of_ble_eq_true rfl⟩

theorem EncodingLength.pha : EncodingLength.Statement .pha := fun _ => ⟨_, rfl, rfl, Nat.le_of_ble_eq_true rfl⟩

theorem EncodingLength.pla : EncodingLength.Statement .pla := fun _ => ⟨_, rfl, rfl, Nat.le_of_ble_eq_true rfl⟩

theorem EncodingLength.php : EncodingLength.Statement .php := fun _ => ⟨_, rfl, rfl, Nat.le_of_ble_eq_true rfl⟩

theorem EncodingLength.plp : EncodingLength.Statement .plp := fun _ => ⟨_, rfl, rfl, Nat.le_of_ble_eq_true rfl⟩

theorem EncodingLength.clc : EncodingLength.Statement .clc := fun _ => ⟨_, rfl, rfl, Nat.le_of_ble_eq_true rfl⟩

theorem EncodingLength.sec : EncodingLength.Statement .sec := fun _ => ⟨_, rfl, rfl, Nat.le_of_ble_eq_true rfl⟩

theorem EncodingLength.cli : EncodingLength.Statement .cli := fun _ => ⟨_, rfl, rfl, Nat.le_of_ble_eq_true rfl⟩

theorem EncodingLength.sei : EncodingLength.Statement .sei := fun _ => ⟨_, rfl, rfl, Nat.le_of_ble_eq_true rfl⟩

theorem EncodingLength.clv : EncodingLength.Statement .clv := fun _ => ⟨_, rfl, rfl, Nat.le_of_ble_eq_true rfl⟩

theorem EncodingLength.cld : EncodingLength.Statement .cld := fun _ => ⟨_, rfl, rfl, Nat.le_of_ble_eq_true rfl⟩

theorem EncodingLength.sed : EncodingLength.Statement .sed := fun _ => ⟨_, rfl, rfl, Nat.le_of_ble_eq_true rfl⟩

theorem EncodingLength.lda (o : Source) : EncodingLength.Statement (.lda o) := by
  intro h
  cases o with
  | imm v => exact ⟨_, rfl, rfl, Nat.le_of_ble_eq_true rfl⟩
  | mem m => cases m <;> first | exact ⟨_, rfl, rfl, Nat.le_of_ble_eq_true rfl⟩ | exact Bool.noConfusion h

theorem EncodingLength.ldx (o : Source) : EncodingLength.Statement (.ldx o) := by
  intro h
  cases o with
  | imm v => exact ⟨_, rfl, rfl, Nat.le_of_ble_eq_true rfl⟩
  | mem m => cases m <;> first | exact ⟨_, rfl, rfl, Nat.le_of_ble_eq_true rfl⟩ | exact Bool.noConfusion h

theorem EncodingLength.ldy (o : Source) : EncodingLength.Statement (.ldy o) := by
  intro h
  cases o with
  | imm v => exact ⟨_, rfl, rfl, Nat.le_of_ble_eq_true rfl⟩
  | mem m => cases m <;> first | exact ⟨_, rfl, rfl, Nat.le_of_ble_eq_true rfl⟩ | exact Bool.noConfusion h

theorem EncodingLength.sta (m : MemMode) : EncodingLength.Statement (.sta m) := by
  intro h
  cases m <;> first | exact ⟨_, rfl, rfl, Nat.le_of_ble_eq_true rfl⟩ | exact Bool.noConfusion h

theorem EncodingLength.stx (m : MemMode) : EncodingLength.Statement (.stx m) := by
  intro h
  cases m <;> first | exact ⟨_, rfl, rfl, Nat.le_of_ble_eq_true rfl⟩ | exact Bool.noConfusion h

theorem EncodingLength.sty (m : MemMode) : EncodingLength.Statement (.sty m) := by
  intro h
  cases m <;> first | exact ⟨_, rfl, rfl, Nat.le_of_ble_eq_true rfl⟩ | exact Bool.noConfusion h

theorem EncodingLength.tax : EncodingLength.Statement .tax := fun _ => ⟨_, rfl, rfl, Nat.le_of_ble_eq_true rfl⟩

theorem EncodingLength.tay : EncodingLength.Statement .tay := fun _ => ⟨_, rfl, rfl, Nat.le_of_ble_eq_true rfl⟩

theorem EncodingLength.txa : EncodingLength.Statement .txa := fun _ => ⟨_, rfl, rfl, Nat.le_of_ble_eq_true rfl⟩

theorem EncodingLength.tya : EncodingLength.Statement .tya := fun _ => ⟨_, rfl, rfl, Nat.le_of_ble_eq_true rfl⟩

theorem EncodingLength.tsx : EncodingLength.Statement .tsx := fun _ => ⟨_, rfl, rfl, Nat.le_of_ble_eq_true rfl⟩

theorem EncodingLength.txs : EncodingLength.Statement .txs := fun _ => ⟨_, rfl, rfl, Nat.le_of_ble_eq_true rfl⟩

theorem EncodingLength.slo (m : MemMode) : EncodingLength.Statement (.slo m) := by
  intro h
  cases m <;> first | exact ⟨_, rfl, rfl, Nat.le_of_ble_eq_true rfl⟩ | exact Bool.noConfusion h

theorem EncodingLength.rla (m : MemMode) : EncodingLength.Statement (.rla m) := by
  intro h
  cases m <;> first | exact ⟨_, rfl, rfl, Nat.le_of_ble_eq_true rfl⟩ | exact Bool.noConfusion h

theorem EncodingLength.sre (m : MemMode) : EncodingLength.Statement (.sre m) := by
  intro h
  cases m <;> first | exact ⟨_, rfl, rfl, Nat.le_of_ble_eq_true rfl⟩ | exact Bool.noConfusion h

theorem EncodingLength.rra (m : MemMode) : EncodingLength.Statement (.rra m) := by
  intro h
  cases m <;> first | exact ⟨_, rfl, rfl, Nat.le_of_ble_eq_true rfl⟩ | exact Bool.noConfusion h

theorem EncodingLength.sax (m : MemMode) : EncodingLength.Statement (.sax m) := by
  intro h
  cases m <;> first | exact ⟨_, rfl, rfl, Nat.le_of_ble_eq_true rfl⟩ | exact Bool.noConfusion h

theorem EncodingLength.lax (m : MemMode) : EncodingLength.Statement (.lax m) := by
  intro h
  cases m <;> first | exact ⟨_, rfl, rfl, Nat.le_of_ble_eq_true rfl⟩ | exact Bool.noConfusion h

theorem EncodingLength.dcp (m : MemMode) : EncodingLength.Statement (.dcp m) := by
  intro h
  cases m <;> first | exact ⟨_, rfl, rfl, Nat.le_of_ble_eq_true rfl⟩ | exact Bool.noConfusion h

theorem EncodingLength.isb (m : MemMode) : EncodingLength.Statement (.isb m) := by
  intro h
  cases m <;> first | exact ⟨_, rfl, rfl, Nat.le_of_ble_eq_true rfl⟩ | exact Bool.noConfusion h

theorem EncodingLength.nopU (op : Byte) (o : NopOperand) : EncodingLength.Statement (.nopU op o) := by
  intro h
  refine ⟨op :: nopOperandBytes o, if_pos h, ?_⟩
  cases o with
  | imp => exact ⟨rfl, Nat.le_of_ble_eq_true rfl⟩
  | imm v => exact ⟨rfl, Nat.le_of_ble_eq_true rfl⟩
  | mem m => cases m <;> exact ⟨rfl, Nat.le_of_ble_eq_true rfl⟩

theorem EncodingLength.sbcU (v : Byte) : EncodingLength.Statement (.sbcU v) := fun _ => ⟨_, rfl, rfl, Nat.le_of_ble_eq_true rfl⟩

theorem EncodingLength.hlt (op : Byte) : EncodingLength.Statement (.hlt op) := fun h =>
  ⟨[op], if_pos h, rfl, Nat.le_of_ble_eq_true rfl⟩

end Sys2Proof.Laws
end

