-- ==== Sys2Proof/Laws/Results.lean ====
section
/-! SUPPORT. What the shared arithmetic, shift, read-modify-write, store and interrupt-entry operations leave, in the
words of `Safety.lean`. -/

namespace Sys2Proof.Machine

theorem getLsbD_seven (r : Byte) : r.getLsbD 7 = decide (128 ≤ r.toNat) := by
  revert r; decide

theorem beq_zero (r : Byte) : (r == 0) = decide (r = 0) := by
  revert r; decide

theorem complement_toNat (m : Byte) : (m ^^^ 0xFF).toNat = 255 - m.toNat := by
  revert m; decide

/-- A bus access before an update of registers leaves the frame of the update. -/
theorem OnlyRegs.of_busOnly {rs : List Reg} {s u t : State} (h : BusOnly s u) (k : OnlyRegs rs u t) :
    OnlyRegs rs s t := by
  rw [h] at k
  obtain ⟨k1, k2⟩ := k
  exact ⟨fun r hr => by rw [k1 r hr]; cases r <;> rfl, k2⟩

theorem SameMemory.of_mem_eq {s t : State} (h : t.mem = s.mem) : SameMemory s t := fun a => peek_of_mem_eq h a

/-- Overflow, as the rules write it: equal signs in, another sign out (41_arithmetic_logic_compare.md R170). -/
theorem overflow_eq (a m r : Byte) :
    (a.getLsbD 7 == m.getLsbD 7 && r.getLsbD 7 != a.getLsbD 7) = (~~~(a ^^^ m) &&& (a ^^^ r)).getLsbD 7 := by
  simp only [BitVec.getLsbD_and, BitVec.getLsbD_not, BitVec.getLsbD_xor]
  cases a.getLsbD 7 <;> cases m.getLsbD 7 <;> cases r.getLsbD 7 <;> rfl

/-- After `SetNZ`. -/
theorem setNZ_shows (u : State) (r : Byte) : ShowsNZ r (u.setP (setNZ r u.p)) :=
  ⟨by rw [State.setP_p, setNZ_getLsbD]; exact beq_zero _, by rw [State.setP_p, setNZ_getLsbD]; exact getLsbD_seven _⟩

theorem setNZ_onlyFlags {s u : State} (r : Byte) (h : u.p = s.p) : OnlyFlags [1, 7] s (u.setP (setNZ r u.p)) := by
  intro i hi
  have : i ≠ 1 ∧ i ≠ 7 := by simpa using hi
  rw [State.setP_p, setNZ_getLsbD, h]
  simp [this]

/-- The add, after bus accesses that leave memory as it was (41_arithmetic_logic_compare.md R170). -/
theorem addWithCarry_spec {s u : State} (m : Byte) (h : BusOnly s u) :
    let sum := s.a.toNat + m.toNat + (s.p.getLsbD 0).toNat
    let r : Byte := BitVec.ofNat 8 sum
    let t := u.addWithCarry m
    t.a = r ∧ ShowsNZ r t ∧ t.p.getLsbD 0 = decide (256 ≤ sum) ∧
      t.p.getLsbD 6 = (~~~(s.a ^^^ m) &&& (s.a ^^^ r)).getLsbD 7 ∧
      OnlyFlags [0, 1, 6, 7] s t ∧ OnlyRegs [.a, .p] s t ∧ t.mem = u.mem ∧ SameDevices u t := by
  have ha : u.a = s.a := by rw [h]
  have hp : u.p = s.p := by rw [h]
  intro sum r t
  have hr : (adder u.a m u.carry).sum = r := by
    show BitVec.ofNat 8 _ = _
    rw [ha, State.carry, hp]; rfl
  have ht : t.p = adderFlags (adder u.a m u.carry) u.p := rfl
  refine ⟨hr, ⟨?_, ?_⟩, ?_, ?_, ?_, ?_, rfl, rfl, rfl⟩
  · rw [ht, adderFlags_getLsbD, hr]; exact beq_zero _
  · rw [ht, adderFlags_getLsbD, hr]; exact getLsbD_seven _
  · rw [ht, adderFlags_getLsbD]
    show decide _ = _
    rw [ha, State.carry, hp]; rfl
  · rw [ht, adderFlags_getLsbD]
    show (u.a.getLsbD 7 == m.getLsbD 7 && (adder u.a m u.carry).sum.getLsbD 7 != u.a.getLsbD 7) = _
    rw [hr, ha]; exact overflow_eq _ _ _
  · intro i hi
    have : i ≠ 0 ∧ i ≠ 1 ∧ i ≠ 6 ∧ i ≠ 7 := by simpa using hi
    rw [ht, adderFlags_getLsbD, hp]
    simp [this]
  · exact OnlyRegs.of_busOnly h ⟨fun g hg => by cases g <;> first | rfl | simp at hg, rfl, rfl, rfl, rfl⟩

/-- The subtract (41_arithmetic_logic_compare.md R171). -/
theorem subWithCarry_spec {s u : State} (m : Byte) (h : BusOnly s u) :
    let borrow := 1 - (s.p.getLsbD 0).toNat
    let r : Byte := s.a - m - BitVec.ofNat 8 borrow
    let t := u.subWithCarry m
    t.a = r ∧ ShowsNZ r t ∧ t.p.getLsbD 0 = decide (m.toNat + borrow ≤ s.a.toNat) ∧
      t.p.getLsbD 6 = ((s.a ^^^ m) &&& (s.a ^^^ r)).getLsbD 7 ∧
      OnlyFlags [0, 1, 6, 7] s t ∧ OnlyRegs [.a, .p] s t ∧ t.mem = u.mem ∧ SameDevices u t := by
  intro borrow r t
  have := addWithCarry_spec (m ^^^ 0xFF) h
  have hx := complement_toNat m
  have hm := m.isLt
  have ha := s.a.isLt
  have hc : (s.p.getLsbD 0).toNat ≤ 1 := by cases s.p.getLsbD 0 <;> decide
  have hr : BitVec.ofNat 8 (s.a.toNat + (m ^^^ 0xFF).toNat + (s.p.getLsbD 0).toNat) = r := by
    apply BitVec.eq_of_toNat_eq
    simp only [r, borrow, BitVec.toNat_ofNat, BitVec.toNat_sub, hx]
    omega
  simp only [hr] at this
  obtain ⟨h1, h2, h3, h4, h5⟩ := this
  refine ⟨h1, h2, ?_, ?_, h5⟩
  · show (u.addWithCarry _).p.getLsbD 0 = _
    rw [h3, hx]
    simp only [borrow]
    congr 1
    apply propext
    omega
  · show (u.addWithCarry _).p.getLsbD 6 = _
    rw [h4]
    congr 2
    rw [show (0xFF : Byte) = BitVec.allOnes 8 from rfl, ← BitVec.xor_assoc, BitVec.xor_allOnes, BitVec.not_not]

/-- The compare (41_arithmetic_logic_compare.md R176). -/
theorem compareWith_spec {s u : State} (reg m : Byte) (h : BusOnly s u) :
    let t := u.compareWith reg m
    t.p.getLsbD 0 = decide (m.toNat ≤ reg.toNat) ∧ t.p.getLsbD 1 = decide (reg = m) ∧
      t.p.getLsbD 7 = (reg - m).getLsbD 7 ∧
      OnlyFlags [0, 1, 7] s t ∧ OnlyRegs [.p] s t ∧ t.mem = u.mem ∧ SameDevices u t := by
  have hp : u.p = s.p := by rw [h]
  intro t
  have ht : t.p = compareFlags reg m u.p := rfl
  refine ⟨?_, ?_, ?_, ?_, ?_, rfl, rfl, rfl⟩
  · rw [ht, compareFlags_getLsbD]; rfl
  · rw [ht, compareFlags_getLsbD]
    show (reg - m == 0) = _
    rw [beq_zero]
    congr 1
    apply propext
    bv_omega
  · rw [ht, compareFlags_getLsbD]; rfl
  · intro i hi
    have : i ≠ 0 ∧ i ≠ 1 ∧ i ≠ 7 := by simpa using hi
    rw [ht, compareFlags_getLsbD, hp]
    simp [this]
  · exact OnlyRegs.of_busOnly h ⟨fun g hg => by cases g <;> first | rfl | simp at hg, rfl, rfl, rfl, rfl⟩

/-- The flags after a shift or rotate (42_shift_rotate_incdec.md R190). -/
theorem shiftFlags_spec {s w : State} (x : ShiftOut) (h : w.p = s.p) :
    let t := w.setP (shiftFlags x w.p)
    t.p.getLsbD 0 = x.carry ∧ ShowsNZ x.value t ∧ OnlyFlags [0, 1, 7] s t := by
  refine ⟨?_, ⟨?_, ?_⟩, ?_⟩
  · rw [State.setP_p, shiftFlags_getLsbD]; rfl
  · rw [State.setP_p, shiftFlags_getLsbD]; exact beq_zero _
  · rw [State.setP_p, shiftFlags_getLsbD]; exact getLsbD_seven _
  · intro i hi
    have : i ≠ 0 ∧ i ≠ 1 ∧ i ≠ 7 := by simpa using hi
    rw [State.setP_p, shiftFlags_getLsbD, h]
    simp [this]

theorem shiftLeft_value (b : Byte) : (shiftLeft b).value = BitVec.ofNat 8 (2 * b.toNat) := by
  revert b; decide

theorem shiftRight_value (b : Byte) : (shiftRight b).value = BitVec.ofNat 8 (b.toNat / 2) := by
  revert b; decide

theorem rotateLeft_value (b : Byte) (c : Bool) :
    (rotateLeft b c).value = BitVec.ofNat 8 (2 * b.toNat + c.toNat) := by
  revert b c; decide

theorem rotateRight_value (b : Byte) (c : Bool) :
    (rotateRight b c).value = BitVec.ofNat 8 (b.toNat / 2 + 128 * c.toNat) := by
  revert b c; decide

/-- A read-modify-write whose accesses complete (42_shift_rotate_incdec.md R200). -/
theorem modifyMem_spec {m : MemMode} {s u w : State} {ea : Word} {v r : Byte}
    (he : effectiveAddress m s = .ok ea s) (hr : memRead ea s = .ok v u) (hw : memWrite ea r u = .ok () w)
    (new : Byte → Byte) (hn : new v = r) (after : Byte → State → State) :
    (modifyMem m new after s).finish = .next (after v w) ∧ BusOnly s w ∧ StoresOnly ea r s w := by
  obtain ⟨h1, h2⟩ := memRead_busOnly hr
  refine ⟨?_, h1.trans (memWrite_busOnly hw), fun a => ?_⟩
  · simp only [modifyMem, he, hr, hn, hw, Res.bind_ok, Res.update_ok, Res.finish_ok]
  · rw [memWrite_storesOnly hw a, peek_of_mem_eq h2]

/-- Two bytes pushed, read back. -/
theorem read_two (m : Memory) {i j : Nat} (h : i ≠ j) (v w : Byte) :
    ((m.write (256 + i) v).write (256 + j) w).read (256 + i) = v ∧
    ((m.write (256 + i) v).write (256 + j) w).read (256 + j) = w := by
  simp [Memory.read_write, h]

/-- Three bytes pushed, read back. -/
theorem read_three (m : Memory) {i j k : Nat} (h : i ≠ j ∧ i ≠ k ∧ j ≠ k) (v w x : Byte) :
    (((m.write (256 + i) v).write (256 + j) w).write (256 + k) x).read (256 + i) = v ∧
    (((m.write (256 + i) v).write (256 + j) w).write (256 + k) x).read (256 + j) = w ∧
    (((m.write (256 + i) v).write (256 + j) w).write (256 + k) x).read (256 + k) = x := by
  simp [Memory.read_write, h]

/-- The slots of three pushes differ, whatever the stack pointer. -/
theorem stackSlots_ne (i : Byte) :
    i.toNat ≠ (i - 1).toNat ∧ i.toNat ≠ (i - 1 - 1).toNat ∧ (i - 1).toNat ≠ (i - 1 - 1).toNat := by
  revert i; decide

theorem stackSlots_eq (i : Byte) :
    i - 2 = i - 1 - 1 ∧ i - 1 - 1 = BitVec.ofNat 8 (i.toNat + 254) ∧
    i - 1 - 1 - 1 = BitVec.ofNat 8 (i.toNat + 253) ∧ i + 2 = i + 1 + 1 ∧ i + 3 = i + 1 + 1 + 1 ∧
    i + 1 + 1 = BitVec.ofNat 8 (i.toNat + 2) ∧ i + 1 + 1 + 1 = BitVec.ofNat 8 (i.toNat + 3) := by
  revert i; decide

/-- Memory outside the slots of three pushes. -/
theorem peek_frame_three {i j k : Byte} {v w x : Byte} {s t : State}
    (h : t.mem = ((s.mem.write (256 + i.toNat) v).write (256 + j.toNat) w).write (256 + k.toNat) x) (b : Word)
    (h1 : memKey b ≠ memKey (stackAt i)) (h2 : memKey b ≠ memKey (stackAt j)) (h3 : memKey b ≠ memKey (stackAt k)) :
    t.peek b = s.peek b := by
  rw [memKey_stackAt] at h1 h2 h3
  unfold State.peek
  rw [h]
  cases hb : memKey b with
  | none => rfl
  | some q =>
    rw [hb] at h1 h2 h3
    have h1 : q ≠ 256 + i.toNat := fun h => h1 (by rw [h])
    have h2 : q ≠ 256 + j.toNat := fun h => h2 (by rw [h])
    have h3 : q ≠ 256 + k.toNat := fun h => h3 (by rw [h])
    simp [Memory.read_write, h1, h2, h3]

/-- Memory outside the slots of two pushes. -/
theorem peek_frame_two {i j : Byte} {v w : Byte} {s t : State}
    (h : t.mem = (s.mem.write (256 + i.toNat) v).write (256 + j.toNat) w) (b : Word)
    (h1 : memKey b ≠ memKey (stackAt i)) (h2 : memKey b ≠ memKey (stackAt j)) : t.peek b = s.peek b := by
  rw [memKey_stackAt] at h1 h2
  unfold State.peek
  rw [h]
  cases hb : memKey b with
  | none => rfl
  | some q =>
    rw [hb] at h1 h2
    have h1 : q ≠ 256 + i.toNat := fun h => h1 (by rw [h])
    have h2 : q ≠ 256 + j.toNat := fun h => h2 (by rw [h])
    simp [Memory.read_write, h1, h2]

/-- An interrupt entry through a vector in the program banks (60_exceptions.md R390). -/
theorem enterInterrupt_spec (s : State) (ret : Word) (st : Byte) (vec : Word) (lo hi : Byte)
    (hv : 0x8000 ≤ vec.toNat) (hv' : vec.toNat + 1 < 65536) (h1 : s.peek vec = some lo)
    (h2 : s.peek (vec + 1) = some hi) :
    ∃ t, enterInterrupt ret st vec s = .ok () t ∧
      t.peek (stackAt s.sp) = some (BitVec.ofNat 8 (ret.toNat / 256)) ∧
      t.peek (stackAt (s.sp - 1)) = some (BitVec.ofNat 8 (ret.toNat % 256)) ∧
      t.peek (stackAt (s.sp - 2)) = some st ∧
      (∀ b, memKey b ≠ memKey (stackAt s.sp) → memKey b ≠ memKey (stackAt (s.sp - 1)) →
        memKey b ≠ memKey (stackAt (s.sp - 2)) → t.peek b = s.peek b) ∧
      t.sp = BitVec.ofNat 8 (s.sp.toNat + 253) ∧ t.pc = BitVec.ofNat 16 (lo.toNat + 256 * hi.toNat) ∧
      t.p.getLsbD 2 = true ∧ OnlyFlags [2] s t ∧ OnlyRegs [.pc, .sp, .p] s t ∧ SameDevices s t := by
  have hv3 : (vec + 1).toNat = vec.toNat + 1 := by
    rw [BitVec.toNat_add, show (1 : Word).toNat = 1 from rfl]
    omega
  obtain ⟨m, hm, he⟩ := enterInterrupt_eq ret st vec s (region_program hv) (region_program (by omega))
  have q : ∀ i : Byte, ∀ n : Nat, 0x8000 ≤ n → n ≠ 256 + i.toNat := by
    intro i n h
    have := i.isLt
    omega
  have hb : m.read (vec + 1).toNat = hi ∧ m.read vec.toNat = lo := by
    unfold State.peek at h1 h2
    rw [memKey_upper (by omega)] at h1 h2
    simp only [Option.map_some, Option.some.injEq] at h1 h2
    rw [hm]
    simp only [Memory.read_write, q _ _ hv, q _ (vec + 1).toNat (by omega), if_false, h1, h2, and_self]
  have r := read_three s.mem (stackSlots_ne s.sp) (hiByte ret) (loByte ret) st
  obtain ⟨e2, _, e3, _⟩ := stackSlots_eq s.sp
  rw [hb.1, hb.2] at he
  refine ⟨_, he, ?_, ?_, ?_, ?_, e3, by rw [← hiLo_eq_ofNat]; rfl, ?_, ?_, ?_, rfl, rfl⟩
  · rw [peek_stackAt]
    show some (m.read _) = _
    rw [hm, r.1, hiByte_eq_ofNat]
  · rw [peek_stackAt]
    show some (m.read _) = _
    rw [hm, r.2.1, loByte_eq_ofNat]
  · rw [peek_stackAt, e2]
    show some (m.read _) = _
    rw [hm, r.2.2]
  · rw [e2]
    exact peek_frame_three hm
  · show (setFlag bitI true s.p).getLsbD 2 = true
    rw [setFlag_getLsbD (by decide)]; rfl
  · intro i hi
    show (setFlag bitI true s.p).getLsbD i = _
    rw [setFlag_getLsbD (by decide)]
    simp only [List.mem_singleton] at hi
    simp [bitI, hi]
  · exact ⟨fun g hg => by cases g <;> first | rfl | simp at hg, rfl, rfl, rfl, rfl⟩

end Sys2Proof.Machine
end

