-- ==== Sys2Proof/Tests/Slice0.lean ====
section
/-! SUPPORT. Tests: ill-formed instructions, words from the encoding tables, one step of each instruction against the
vectors of spec/95_test_vectors.md (each test's name ends in its vector's id), devices, and a witness for the
hypotheses of every statement. -/

open Sys2Proof Sys2Proof.Machine

namespace Sys2Proof.Tests

-- One ill-formed instruction for each check of WellFormed.

theorem test_refuses_general : (Instr.wellFormed (.sta (.zpy 0x10))) = false ∧ encode (.sta (.zpy 0x10)) = none := by decide
theorem test_refuses_plain : (Instr.wellFormed (.bit (.zpx 0x10))) = false ∧ encode (.bit (.zpx 0x10)) = none := by decide
theorem test_refuses_xIndexed : (Instr.wellFormed (.inc (.aby 0x1234))) = false ∧ encode (.inc (.aby 0x1234)) = none := by decide
theorem test_refuses_yIndexed : (Instr.wellFormed (.ldx (.mem (.zpx 0x10)))) = false ∧ encode (.ldx (.mem (.zpx 0x10))) = none := by decide
theorem test_refuses_stx : (Instr.wellFormed (.stx (.zpx 0x10))) = false ∧ encode (.stx (.zpx 0x10)) = none := by decide
theorem test_refuses_sty : (Instr.wellFormed (.sty (.zpy 0x10))) = false ∧ encode (.sty (.zpy 0x10)) = none := by decide
theorem test_refuses_sax : (Instr.wellFormed (.sax (.izy 0x10))) = false ∧ encode (.sax (.izy 0x10)) = none := by decide
theorem test_refuses_lax : (Instr.wellFormed (.lax (.zpx 0x10))) = false ∧ encode (.lax (.zpx 0x10)) = none := by decide
theorem test_refuses_source : (Instr.wellFormed (.lda (.mem (.zpy 0x10)))) = false ∧ encode (.lda (.mem (.zpy 0x10))) = none := by decide
theorem test_refuses_shiftTarget : (Instr.wellFormed (.asl (.mem (.izx 0x10)))) = false ∧ encode (.asl (.mem (.izx 0x10))) = none := by decide
theorem test_refuses_nop : (Instr.wellFormed (.nopU 0xEA .imp)) = false ∧ encode (.nopU 0xEA .imp) = none := by decide
theorem test_refuses_halt : (Instr.wellFormed (.hlt 0xEA)) = false ∧ encode (.hlt 0xEA) = none := by decide

/-- Each list of bytes decodes to its instruction, with nothing left over. -/
def readsAs (rows : List (Instr × List Byte)) : Bool :=
  rows.all fun r => match decode r.2 with
    | .ok (i, rest) => i == r.1 && rest.isEmpty
    | .error _ => false

-- Words written out from 30_encoding.md R114 to R116, one for each constructor.

theorem test_decode_arithmetic :
    readsAs [
      (.adc (.imm 0x05), [0x69, 0x05]), (.sbc (.mem (.izy 0x20)), [0xF1, 0x20]),
      (.and (.mem (.abx 0x1234)), [0x3D, 0x34, 0x12]), (.ora (.mem (.izx 0x20)), [0x01, 0x20]),
      (.eor (.mem (.aby 0x1234)), [0x59, 0x34, 0x12]), (.bit (.abs 0x0210), [0x2C, 0x10, 0x02]),
      (.cmp (.mem (.zpx 0x10)), [0xD5, 0x10]), (.cpx (.mem (.zp 0x10)), [0xE4, 0x10]),
      (.cpy (.imm 0x00), [0xC0, 0x00])] := by decide

theorem test_decode_shift :
    readsAs [
      (.asl .acc, [0x0A]), (.lsr (.mem (.abx 0x0200)), [0x5E, 0x00, 0x02]), (.rol .acc, [0x2A]),
      (.ror (.mem (.abs 0x1234)), [0x6E, 0x34, 0x12]), (.inc (.zpx 0x10), [0xF6, 0x10]),
      (.dec (.abs 0x1234), [0xCE, 0x34, 0x12]), (.inx, [0xE8]), (.iny, [0xC8]), (.dex, [0xCA]), (.dey, [0x88])] := by decide

theorem test_decode_branch :
    readsAs [
      (.bpl 0x10, [0x10, 0x10]), (.bmi 0x10, [0x30, 0x10]), (.bvc 0x80, [0x50, 0x80]), (.bvs 0x7F, [0x70, 0x7F]),
      (.bcc 0x02, [0x90, 0x02]), (.bcs 0x02, [0xB0, 0x02]), (.bne 0x00, [0xD0, 0x00]), (.beq 0xFE, [0xF0, 0xFE]),
      (.jmp (.abs 0x9000), [0x4C, 0x00, 0x90]), (.jmp (.ind 0x30FF), [0x6C, 0xFF, 0x30]),
      (.jsr 0x9000, [0x20, 0x00, 0x90]), (.rts, [0x60]), (.rti, [0x40]), (.brk, [0x00]), (.nop, [0xEA])] := by decide

theorem test_decode_stack :
    readsAs [
      (.pha, [0x48]), (.pla, [0x68]), (.php, [0x08]), (.plp, [0x28]), (.clc, [0x18]), (.sec, [0x38]), (.cli, [0x58]),
      (.sei, [0x78]), (.clv, [0xB8]), (.cld, [0xD8]), (.sed, [0xF8])] := by decide

theorem test_decode_load :
    readsAs [
      (.lda (.mem (.aby 0x0300)), [0xB9, 0x00, 0x03]), (.ldx (.mem (.zpy 0xF0)), [0xB6, 0xF0]),
      (.ldy (.mem (.abx 0x0200)), [0xBC, 0x00, 0x02]), (.sta (.izy 0x20), [0x91, 0x20]),
      (.stx (.zpy 0xF0), [0x96, 0xF0]), (.sty (.zpx 0x10), [0x94, 0x10]), (.tax, [0xAA]), (.tay, [0xA8]),
      (.txa, [0x8A]), (.tya, [0x98]), (.tsx, [0xBA]), (.txs, [0x9A])] := by decide

theorem test_decode_undocumented :
    readsAs [
      (.slo (.aby 0x0210), [0x1B, 0x10, 0x02]), (.rla (.izx 0x20), [0x23, 0x20]),
      (.sre (.abx 0x0210), [0x5F, 0x10, 0x02]), (.rra (.izy 0x20), [0x73, 0x20]), (.sax (.zpy 0xF0), [0x97, 0xF0]),
      (.lax (.aby 0x0210), [0xBF, 0x10, 0x02]), (.dcp (.abs 0x0210), [0xCF, 0x10, 0x02]),
      (.isb (.zpx 0x10), [0xF7, 0x10]), (.nopU 0x1A .imp, [0x1A]), (.nopU 0x80 (.imm 0xFF), [0x80, 0xFF]),
      (.nopU 0x1C (.mem (.abx 0x4020)), [0x1C, 0x20, 0x40]), (.sbcU 0x01, [0xEB, 0x01]), (.hlt 0x9C, [0x9C])] := by decide

/-- The table's own numbering: ROL zero page indexed, byte 0 the opcode; a row with no bits for its operand. -/
theorem test_decodeTableWord :
    decodeTableWord 16 0x1036 = some (.rol (.mem (.zpx 0x10))) ∧
    decodeTableWord 8 0x6D = some (.adc (.mem (.abs 0x0000))) := by decide

/-- A byte list that ends too early is rejected by name. -/
theorem test_decode_missing :
    decode [] = .error .noOpcode ∧ decode [0xAD, 0x10] = .error (.missingOperand 0xAD) := by decide

/-- A state with the given A, X, Y, SP, P and PC, and bytes of memory. -/
def start (a x y sp p : Byte) (pc : Word) (bytes : List (Word × Byte)) : State :=
  bytes.foldl (fun s c => s.poke c.1 c.2) { State.reset with a := a, x := x, y := y, sp := sp, p := p, pc := pc }

/-- The registers and the bytes at some addresses after one step. -/
def after (s : State) (addrs : List Word) : Option (List Byte × Word × List (Option Byte)) :=
  match step s with
  | .next t => some ([t.a, t.x, t.y, t.sp, t.p], t.pc, addrs.map t.peek)
  | .fault _ | .refused _ => none

-- One step of each instruction (95_test_vectors.md 2.1 to 2.7).

theorem test_adc_ar1 :
    after (start 0x50 0x00 0x00 0xFD 0x24 0x8000 [(0x8000, 0x69), (0x8001, 0x50)]) [] =
      some ([0xA0, 0x00, 0x00, 0xFD, 0xE4], 0x8002, []) := by decide

theorem test_adc_ar8 :
    after (start 0x09 0x00 0x00 0xFD 0x2C 0x8000 [(0x8000, 0x69), (0x8001, 0x09)]) [] =
      some ([0x12, 0x00, 0x00, 0xFD, 0x2C], 0x8002, []) := by decide

theorem test_sbc_ar10 :
    after (start 0x80 0x00 0x00 0xFD 0x25 0x8000 [(0x8000, 0xE9), (0x8001, 0x01)]) [] =
      some ([0x7F, 0x00, 0x00, 0xFD, 0x65], 0x8002, []) := by decide

theorem test_and_ar17 :
    after (start 0xFF 0x00 0x00 0xFD 0xE5 0x8000 [(0x0010, 0x80), (0x8000, 0x25), (0x8001, 0x10)]) [] =
      some ([0x80, 0x00, 0x00, 0xFD, 0xE5], 0x8002, []) := by decide

theorem test_ora_ar18 :
    after (start 0x01 0x00 0x00 0xFD 0x24 0x8000 [(0x8000, 0x09), (0x8001, 0x80)]) [] =
      some ([0x81, 0x00, 0x00, 0xFD, 0xA4], 0x8002, []) := by decide

theorem test_eor_ar20 :
    after (start 0xF0 0x00 0x00 0xFD 0x24 0x8000 [(0x8000, 0x49), (0x8001, 0x0F)]) [] =
      some ([0xFF, 0x00, 0x00, 0xFD, 0xA4], 0x8002, []) := by decide

theorem test_bit_ar22 :
    after (start 0x01 0x00 0x00 0xFD 0x24 0x8000 [(0x0010, 0xC0), (0x8000, 0x24), (0x8001, 0x10)]) [] =
      some ([0x01, 0x00, 0x00, 0xFD, 0xE6], 0x8002, []) := by decide

theorem test_cmp_ar24 :
    after (start 0x10 0x00 0x00 0xFD 0x24 0x8000 [(0x8000, 0xC9), (0x8001, 0x20)]) [] =
      some ([0x10, 0x00, 0x00, 0xFD, 0xA4], 0x8002, []) := by decide

theorem test_cpx_ar30 :
    after (start 0x00 0x05 0x00 0xFD 0x24 0x8000 [(0x0010, 0x06), (0x8000, 0xE4), (0x8001, 0x10)]) [] =
      some ([0x00, 0x05, 0x00, 0xFD, 0xA4], 0x8002, []) := by decide

theorem test_cpy_ar31 :
    after (start 0x00 0x00 0x80 0xFD 0x24 0x8000 [(0x8000, 0xC0)]) [] =
      some ([0x00, 0x00, 0x80, 0xFD, 0xA5], 0x8002, []) := by decide

theorem test_asl_sh9 :
    after (start 0x77 0x00 0x00 0xFD 0x24 0x8000 [(0x0010, 0xC1), (0x8000, 0x06), (0x8001, 0x10)]) [0x0010] =
      some ([0x77, 0x00, 0x00, 0xFD, 0xA5], 0x8002, [some 0x82]) := by decide

theorem test_lsr_sh10 :
    after (start 0x00 0x00 0x00 0xFD 0x24 0x8000
      [(0x0210, 0x03), (0x8000, 0x4E), (0x8001, 0x10), (0x8002, 0x02)]) [0x0210] =
      some ([0x00, 0x00, 0x00, 0xFD, 0x25], 0x8003, [some 0x01]) := by decide

theorem test_rol_sh11 :
    after (start 0x00 0xF8 0x00 0xFD 0x25 0x8000 [(0x0008, 0x7F), (0x8000, 0x36), (0x8001, 0x10)]) [0x0008] =
      some ([0x00, 0xF8, 0x00, 0xFD, 0xA4], 0x8002, [some 0xFF]) := by decide

theorem test_ror_sh12 :
    after (start 0x00 0x05 0x00 0xFD 0x25 0x8000 [(0x0205, 0x02), (0x8000, 0x7E), (0x8002, 0x02)]) [0x0205] =
      some ([0x00, 0x05, 0x00, 0xFD, 0xA4], 0x8003, [some 0x81]) := by decide

theorem test_inc_sh14 :
    after (start 0x00 0x01 0x00 0xFD 0x65 0x8000
      [(0x0211, 0x7F), (0x8000, 0xFE), (0x8001, 0x10), (0x8002, 0x02)]) [0x0211] =
      some ([0x00, 0x01, 0x00, 0xFD, 0xE5], 0x8003, [some 0x80]) := by decide

theorem test_dec_sh15 :
    after (start 0x00 0x00 0x00 0xFD 0x24 0x8000 [(0x8000, 0xC6), (0x8001, 0x10)]) [0x0010] =
      some ([0x00, 0x00, 0x00, 0xFD, 0xA4], 0x8002, [some 0xFF]) := by decide

theorem test_inx_sh17 :
    after (start 0x00 0xFF 0x00 0xFD 0x24 0x8000 [(0x8000, 0xE8)]) [] =
      some ([0x00, 0x00, 0x00, 0xFD, 0x26], 0x8001, []) := by decide

theorem test_iny_sh18 :
    after (start 0x00 0x00 0x7F 0xFD 0x24 0x8000 [(0x8000, 0xC8)]) [] =
      some ([0x00, 0x00, 0x80, 0xFD, 0xA4], 0x8001, []) := by decide

theorem test_dex_sh19 :
    after (start 0x00 0x00 0x00 0xFD 0x24 0x8000 [(0x8000, 0xCA)]) [] =
      some ([0x00, 0xFF, 0x00, 0xFD, 0xA4], 0x8001, []) := by decide

theorem test_dey_sh20 :
    after (start 0x00 0x00 0x01 0xFD 0x24 0x8000 [(0x8000, 0x88)]) [] =
      some ([0x00, 0x00, 0x00, 0xFD, 0x26], 0x8001, []) := by decide

theorem test_bpl_br1 :
    after (start 0x00 0x00 0x00 0xFD 0x24 0x8000 [(0x8000, 0x10), (0x8001, 0x10)]) [] =
      some ([0x00, 0x00, 0x00, 0xFD, 0x24], 0x8012, []) := by decide

theorem test_bmi_br4 :
    after (start 0x00 0x00 0x00 0xFD 0x24 0x8000 [(0x8000, 0x30), (0x8001, 0x10)]) [] =
      some ([0x00, 0x00, 0x00, 0xFD, 0x24], 0x8002, []) := by decide

theorem test_bvc_br5 :
    after (start 0x00 0x00 0x00 0xFD 0x24 0x8000 [(0x8000, 0x50), (0x8001, 0x80)]) [] =
      some ([0x00, 0x00, 0x00, 0xFD, 0x24], 0x7F82, []) := by decide

theorem test_bvs_br6 :
    after (start 0x00 0x00 0x00 0xFD 0x64 0x8000 [(0x8000, 0x70), (0x8001, 0x7F)]) [] =
      some ([0x00, 0x00, 0x00, 0xFD, 0x64], 0x8081, []) := by decide

theorem test_bcc_br8 :
    after (start 0x00 0x00 0x00 0xFD 0x24 0x8000 [(0x8000, 0x90), (0x8001, 0x02)]) [] =
      some ([0x00, 0x00, 0x00, 0xFD, 0x24], 0x8004, []) := by decide

theorem test_bcs_br10 :
    after (start 0x00 0x00 0x00 0xFD 0x24 0x8000 [(0x8000, 0xB0), (0x8001, 0x02)]) [] =
      some ([0x00, 0x00, 0x00, 0xFD, 0x24], 0x8002, []) := by decide

theorem test_bne_br15 :
    after (start 0x00 0x00 0x00 0xFD 0x24 0xFFF0 [(0xFFF0, 0xD0), (0xFFF1, 0x7F)]) [] =
      some ([0x00, 0x00, 0x00, 0xFD, 0x24], 0x0071, []) := by decide

theorem test_beq_br12 :
    after (start 0x00 0x00 0x00 0xFD 0x26 0x8000 [(0x8000, 0xF0), (0x8001, 0xFE)]) [] =
      some ([0x00, 0x00, 0x00, 0xFD, 0x26], 0x8000, []) := by decide

theorem test_jmp_br16 :
    after (start 0x00 0x00 0x00 0xFD 0x24 0x8000 [(0x8000, 0x4C), (0x8002, 0x90)]) [] =
      some ([0x00, 0x00, 0x00, 0xFD, 0x24], 0x9000, []) := by decide

theorem test_jmp_am10 :
    after (start 0x00 0x00 0x00 0xFD 0x24 0x8000
      [(0x0200, 0x12), (0x02FF, 0x34), (0x0300, 0x56), (0x8000, 0x6C), (0x8001, 0xFF), (0x8002, 0x02)]) [] =
      some ([0x00, 0x00, 0x00, 0xFD, 0x24], 0x1234, []) := by decide

theorem test_jsr_br19 :
    after (start 0x00 0x00 0x00 0x00 0x24 0x8000 [(0x8000, 0x20), (0x8002, 0x90)]) [0x0100, 0x01FF] =
      some ([0x00, 0x00, 0x00, 0xFE, 0x24], 0x9000, [some 0x80, some 0x02]) := by decide

theorem test_rts_br21 :
    after (start 0x00 0x00 0x00 0xFE 0x24 0x8000 [(0x0100, 0x12), (0x01FF, 0xFF), (0x8000, 0x60)]) [] =
      some ([0x00, 0x00, 0x00, 0x00, 0x24], 0x1300, []) := by decide

theorem test_rti_br22 :
    after (start 0x00 0x00 0x00 0xFA 0x24 0x8000 [(0x01FB, 0xFF), (0x01FC, 0x03), (0x01FD, 0x80), (0x8000, 0x40)]) [] =
      some ([0x00, 0x00, 0x00, 0xFD, 0xEF], 0x8003, []) := by decide

theorem test_brk_br25 :
    after (start 0x00 0x00 0x00 0x01 0xE3 0x8000 [(0xFFFE, 0x34), (0xFFFF, 0x92)]) [0x0101, 0x0100, 0x01FF] =
      some ([0x00, 0x00, 0x00, 0xFE, 0xE7], 0x9234, [some 0x80, some 0x02, some 0xF3]) := by decide

theorem test_nop_br26 :
    after (start 0x01 0x02 0x03 0xFD 0xE7 0x8000 [(0x8000, 0xEA)]) [] =
      some ([0x01, 0x02, 0x03, 0xFD, 0xE7], 0x8001, []) := by decide

theorem test_pha_st2 :
    after (start 0x42 0x00 0x00 0x00 0x24 0x8000 [(0x8000, 0x48)]) [0x0100] =
      some ([0x42, 0x00, 0x00, 0xFF, 0x24], 0x8001, [some 0x42]) := by decide

theorem test_pla_st5 :
    after (start 0x00 0x00 0x00 0xFF 0x24 0x8000 [(0x0100, 0x7F), (0x8000, 0x68)]) [] =
      some ([0x7F, 0x00, 0x00, 0x00, 0x24], 0x8001, []) := by decide

theorem test_php_st6 :
    after (start 0x00 0x00 0x00 0xFD 0x24 0x8000 [(0x8000, 0x08)]) [0x01FD] =
      some ([0x00, 0x00, 0x00, 0xFC, 0x24], 0x8001, [some 0x34]) := by decide

theorem test_plp_st9 :
    after (start 0x00 0x00 0x00 0xFC 0x24 0x8000 [(0x01FD, 0xFF), (0x8000, 0x28)]) [] =
      some ([0x00, 0x00, 0x00, 0xFD, 0xEF], 0x8001, []) := by decide

theorem test_clc_st12 :
    after (start 0x00 0x00 0x00 0xFD 0xE7 0x8000 [(0x8000, 0x18)]) [] =
      some ([0x00, 0x00, 0x00, 0xFD, 0xE6], 0x8001, []) := by decide

theorem test_sec_st13 :
    after (start 0x00 0x00 0x00 0xFD 0x24 0x8000 [(0x8000, 0x38)]) [] =
      some ([0x00, 0x00, 0x00, 0xFD, 0x25], 0x8001, []) := by decide

theorem test_cli_st14 :
    after (start 0x00 0x00 0x00 0xFD 0x24 0x8000 [(0x8000, 0x58)]) [] =
      some ([0x00, 0x00, 0x00, 0xFD, 0x20], 0x8001, []) := by decide

theorem test_sei_st15 :
    after (start 0x00 0x00 0x00 0xFD 0x20 0x8000 [(0x8000, 0x78)]) [] =
      some ([0x00, 0x00, 0x00, 0xFD, 0x24], 0x8001, []) := by decide

theorem test_clv_st16 :
    after (start 0x00 0x00 0x00 0xFD 0xE4 0x8000 [(0x8000, 0xB8)]) [] =
      some ([0x00, 0x00, 0x00, 0xFD, 0xA4], 0x8001, []) := by decide

theorem test_cld_st17 :
    after (start 0x00 0x00 0x00 0xFD 0x2C 0x8000 [(0x8000, 0xD8)]) [] =
      some ([0x00, 0x00, 0x00, 0xFD, 0x24], 0x8001, []) := by decide

theorem test_sed_st18 :
    after (start 0x00 0x00 0x00 0xFD 0x24 0x8000 [(0x8000, 0xF8)]) [] =
      some ([0x00, 0x00, 0x00, 0xFD, 0x2C], 0x8001, []) := by decide

theorem test_lda_am3 :
    after (start 0x00 0x02 0x00 0xFD 0x24 0x8000 [(0x0001, 0xAB), (0x0101, 0xCD), (0x8000, 0xB5), (0x8001, 0xFF)]) [] =
      some ([0xAB, 0x02, 0x00, 0xFD, 0xA4], 0x8002, []) := by decide

theorem test_lda_am14 :
    after (start 0x00 0x00 0x01 0xFD 0x24 0x8000
      [(0x0000, 0x02), (0x00FF, 0xFF), (0x0100, 0x09), (0x0300, 0x3D), (0x8000, 0xB1), (0x8001, 0xFF)]) [] =
      some ([0x3D, 0x00, 0x01, 0xFD, 0x24], 0x8002, []) := by decide

theorem test_ldx_ld4 :
    after (start 0x00 0x00 0x02 0xFD 0x24 0x8000 [(0x8000, 0xBE), (0x8001, 0x10), (0x8002, 0x02)]) [] =
      some ([0x00, 0x00, 0x02, 0xFD, 0x26], 0x8003, []) := by decide

theorem test_ldy_ld6 :
    after (start 0x00 0xF1 0x00 0xFD 0x24 0x8000 [(0x0001, 0x90), (0x8000, 0xB4), (0x8001, 0x10)]) [] =
      some ([0x00, 0xF1, 0x90, 0xFD, 0xA4], 0x8002, []) := by decide

theorem test_sta_ld9 :
    after (start 0x5A 0x00 0x20 0xFD 0x24 0x8000
      [(0x0020, 0xF0), (0x0021, 0x02), (0x8000, 0x91), (0x8001, 0x20)]) [0x0310] =
      some ([0x5A, 0x00, 0x20, 0xFD, 0x24], 0x8002, [some 0x5A]) := by decide

theorem test_stx_ld11 :
    after (start 0x00 0x77 0x20 0xFD 0x24 0x8000 [(0x8000, 0x96), (0x8001, 0xF0)]) [0x0010] =
      some ([0x00, 0x77, 0x20, 0xFD, 0x24], 0x8002, [some 0x77]) := by decide

theorem test_sty_ld13 :
    after (start 0x00 0x01 0x88 0xFD 0x24 0x8000 [(0x8000, 0x94), (0x8001, 0x10)]) [0x0011] =
      some ([0x00, 0x01, 0x88, 0xFD, 0x24], 0x8002, [some 0x88]) := by decide

theorem test_tax_ld15 :
    after (start 0x80 0x00 0x00 0xFD 0x24 0x8000 [(0x8000, 0xAA)]) [] =
      some ([0x80, 0x80, 0x00, 0xFD, 0xA4], 0x8001, []) := by decide

theorem test_tay_ld16 :
    after (start 0x00 0x00 0x05 0xFD 0x24 0x8000 [(0x8000, 0xA8)]) [] =
      some ([0x00, 0x00, 0x00, 0xFD, 0x26], 0x8001, []) := by decide

theorem test_txa_ld17 :
    after (start 0xFF 0x7F 0x00 0xFD 0xA4 0x8000 [(0x8000, 0x8A)]) [] =
      some ([0x7F, 0x7F, 0x00, 0xFD, 0x24], 0x8001, []) := by decide

theorem test_tya_ld18 :
    after (start 0x00 0x00 0xF0 0xFD 0x24 0x8000 [(0x8000, 0x98)]) [] =
      some ([0xF0, 0x00, 0xF0, 0xFD, 0xA4], 0x8001, []) := by decide

theorem test_tsx_ld19 :
    after (start 0x00 0x00 0x00 0xFD 0x24 0x8000 [(0x8000, 0xBA)]) [] =
      some ([0x00, 0xFD, 0x00, 0xFD, 0xA4], 0x8001, []) := by decide

theorem test_txs_ld21 :
    after (start 0x00 0x00 0x00 0xFD 0xA4 0x8000 [(0x8000, 0x9A)]) [] =
      some ([0x00, 0x00, 0x00, 0x00, 0xA4], 0x8001, []) := by decide

theorem test_slo_un1 :
    after (start 0x01 0x00 0x00 0xFD 0x24 0x8000 [(0x0010, 0x81), (0x8000, 0x07), (0x8001, 0x10)]) [0x0010] =
      some ([0x03, 0x00, 0x00, 0xFD, 0x25], 0x8002, [some 0x02]) := by decide

theorem test_rla_un4 :
    after (start 0xF0 0x00 0x00 0xFD 0x24 0x8000
      [(0x0020, 0x10), (0x0021, 0x02), (0x0210, 0x47), (0x8000, 0x23), (0x8001, 0x20)]) [0x0210] =
      some ([0x80, 0x00, 0x00, 0xFD, 0xA4], 0x8002, [some 0x8E]) := by decide

theorem test_sre_un5 :
    after (start 0x01 0x00 0x00 0xFD 0x24 0x8000 [(0x0010, 0x03), (0x8000, 0x47), (0x8001, 0x10)]) [0x0010] =
      some ([0x00, 0x00, 0x00, 0xFD, 0x27], 0x8002, [some 0x01]) := by decide

theorem test_rra_un8 :
    after (start 0x7F 0x00 0x01 0xFD 0x25 0x8000
      [(0x0020, 0x0F), (0x0021, 0x02), (0x0210, 0x02), (0x8000, 0x73), (0x8001, 0x20)]) [0x0210] =
      some ([0x00, 0x00, 0x01, 0xFD, 0x27], 0x8002, [some 0x81]) := by decide

theorem test_sax_un14 :
    after (start 0xFF 0x00 0x20 0xFD 0x24 0x8000 [(0x0010, 0xEE), (0x8000, 0x97), (0x8001, 0xF0)]) [0x0010] =
      some ([0xFF, 0x00, 0x20, 0xFD, 0x24], 0x8002, [some 0x00]) := by decide

theorem test_lax_un16 :
    after (start 0x01 0x02 0x03 0xFD 0x24 0x8000 [(0x8000, 0xBF), (0x8001, 0x10), (0x8002, 0x02)]) [] =
      some ([0x00, 0x00, 0x03, 0xFD, 0x26], 0x8003, []) := by decide

theorem test_dcp_un10 :
    after (start 0x10 0x00 0x00 0xFD 0x24 0x8000 [(0x8000, 0xCF), (0x8001, 0x10), (0x8002, 0x02)]) [0x0210] =
      some ([0x10, 0x00, 0x00, 0xFD, 0x24], 0x8003, [some 0xFF]) := by decide

theorem test_isb_un11 :
    after (start 0x20 0x00 0x00 0xFD 0x25 0x8000 [(0x0010, 0x0F), (0x8000, 0xE7), (0x8001, 0x10)]) [0x0010] =
      some ([0x10, 0x00, 0x00, 0xFD, 0x25], 0x8002, [some 0x10]) := by decide

theorem test_nop_un18 :
    after (start 0x00 0x00 0x00 0xFD 0x24 0x8000 [(0x8000, 0x80), (0x8001, 0xFF)]) [] =
      some ([0x00, 0x00, 0x00, 0xFD, 0x24], 0x8002, []) := by decide

theorem test_nop_un22 :
    after (start 0x00 0x00 0x00 0xFD 0x24 0x8000 [(0x8000, 0x1C), (0x8001, 0x20), (0x8002, 0x40)]) [] =
      some ([0x00, 0x00, 0x00, 0xFD, 0x24], 0x8003, []) := by decide

theorem test_sbc_un23 :
    after (start 0x80 0x00 0x00 0xFD 0x25 0x8000 [(0x8000, 0xEB), (0x8001, 0x01)]) [] =
      some ([0x7F, 0x00, 0x00, 0xFD, 0x65], 0x8002, []) := by decide

/-- Whether a step halts with this cause, and PC after it. -/
def haltsWith (s : State) (c : Cause) : Bool :=
  match step s with
  | .next t => t.halted = .halted c
  | .fault _ | .refused _ => false

theorem test_hlt_un24 :
    haltsWith (start 0x01 0x02 0x03 0xFD 0x24 0x8000 [(0x8000, 0x02), (0x8001, 0xFF)]) (.unknownOpcode 0x02 0x8000) ∧
    after (start 0x01 0x02 0x03 0xFD 0x24 0x8000 [(0x8000, 0x02), (0x8001, 0xFF)]) [] =
      some ([0x01, 0x02, 0x03, 0xFD, 0x24], 0x8001, []) := by decide

-- Fatal accesses (95_test_vectors.md 2.3 and 2.8).

theorem test_fatal_sh21 :
    haltsWith (start 0x00 0x00 0x00 0xFD 0x24 0x8000
      [(0x8000, 0xEE), (0x8001, 0x10), (0x8002, 0x80), (0x8010, 0x41)]) (.programBankWrite 0x8010 0x42) := by decide

theorem test_fatal_io7 :
    haltsWith (start 0x00 0x00 0x00 0xFD 0x24 0x8000 [(0x8000, 0xEE), (0x8001, 0x06), (0x8002, 0x20)])
      (.ppuPortDirection .read 0x2006) := by decide

theorem test_fatal_io22 :
    haltsWith (start 0x01 0x00 0x00 0xFD 0x24 0x8000 [(0x8000, 0x8D), (0x8001, 0x20), (0x8002, 0x40)])
      (.expansionAccess 0x4020 .write) := by decide

/-- S5a: the high byte of the pointer is read at 0x3000, and that read is the fatal one. -/
theorem test_fatal_s5a :
    haltsWith (start 0x00 0x00 0x00 0xFD 0x24 0x8000 [(0x8000, 0x6C), (0x8001, 0xFF), (0x8002, 0x30)])
      (.ppuPortDirection .read 0x3000) := by decide

-- The picture-unit port and the I/O region (95_test_vectors.md 2.8).

/-- The state of the picture unit after one step. -/
def ppuAfter (s : State) (u : Ppu) : Option Ppu :=
  match step (s.setPpu u) with
  | .next t => some t.ppu
  | .fault _ | .refused _ => none

/-- The picture unit after reset. -/
def ppu0 : Ppu := State.reset.ppu

/-- LDA or STA (`op`) at an address, from PC 0x8000, with A. -/
def access (op a lo hi : Byte) : State :=
  start a 0x00 0x00 0xFD 0x24 0x8000 [(0x8000, op), (0x8001, lo), (0x8002, hi)]

theorem test_ppu_io3 :
    ppuAfter (access 0xAD 0x00 0xFA 0x3F) { ppu0 with status := 0x80, toggle := true } = some ppu0 := by decide

theorem test_ppu_io9 :
    ppuAfter (access 0x8D 0x21 0x06 0x20) { ppu0 with vaddr := 0x0055 } =
      some { ppu0 with vaddr := 0x2155, toggle := true } := by decide

theorem test_ppu_io10 :
    ppuAfter (access 0x8D 0x08 0x06 0x20) { ppu0 with vaddr := 0x2155, toggle := true } =
      some { ppu0 with vaddr := 0x2108 } := by decide

/-- G[0x2000] is byte 0 of store 8. -/
theorem test_ppu_io12 :
    ppuAfter (access 0xAD 0x00 0x07 0x20) { ppu0 with vaddr := 0x2000, readbuf := 0xEE, gfx := [(8192, 0x11)] } =
      some { ppu0 with vaddr := 0x2001, readbuf := 0x11, gfx := [(8192, 0x11)] } := by decide

theorem test_ppu_io13 :
    ppuAfter (access 0xAD 0x00 0x07 0x20)
        { ppu0 with vaddr := 0x3F01, readbuf := 0x11, ctrl := 0x04, pal := ppu0.pal.set 1 0x2A } =
      some { ppu0 with vaddr := 0x3F21, readbuf := 0x2A, ctrl := 0x04, pal := ppu0.pal.set 1 0x2A } := by decide

theorem test_ppu_io14 :
    ppuAfter (access 0x8D 0x7F 0x07 0x20) { ppu0 with vaddr := 0x3F04 } =
      some { ppu0 with vaddr := 0x3F05, pal := ppu0.pal.set 0 0x3F } := by decide

theorem test_ppu_io15 :
    ppuAfter (access 0x8D 0x15 0x07 0x20) { ppu0 with vaddr := 0x3F10 } =
      some { ppu0 with vaddr := 0x3F11, pal := ppu0.pal.set 16 0x15 } := by decide

theorem test_ppu_io16 :
    ppuAfter (access 0x8D 0x15 0x07 0x20) { ppu0 with vaddr := 0xFFFF } =
      some { ppu0 with vaddr := 0x0000, pal := ppu0.pal.set 31 0x15 } := by decide

theorem test_ppu_io17 :
    ppuAfter (access 0xAD 0x00 0x04 0x20) { ppu0 with oamaddr := 0xFF, oam := [(255, 0xBB)] } =
      some { ppu0 with oamaddr := 0x00, oam := [(255, 0xBB)] } := by decide

theorem test_ppu_io18 :
    ppuAfter (access 0x8D 0xCC 0x04 0x20) { ppu0 with oamaddr := 0xFF } =
      some { ppu0 with oamaddr := 0x00, oam := [(255, 0xCC)] } := by decide

/-- A halting byte fetched from 0x2004 changes nothing but PC (60_exceptions.md R387; log entry 22). -/
theorem test_hlt_from_oam_port :
    ppuAfter ((access 0xAD 0x00 0x00 0x00).setPc 0x2004) { ppu0 with oamaddr := 0x10, oam := [(16, 0x02)] } =
      some { ppu0 with oamaddr := 0x10, oam := [(16, 0x02)] } := by decide

/-- CLC fetched from 0x2004 has that register's side effect (20_memory.md R79). -/
theorem test_clc_from_oam_port :
    ppuAfter ((access 0xAD 0x00 0x00 0x00).setPc 0x2004) { ppu0 with oamaddr := 0x10, oam := [(16, 0x18)] } =
      some { ppu0 with oamaddr := 0x11, oam := [(16, 0x18)] } := by decide

theorem test_io_io20 : after (access 0xAD 0x55 0x15 0x40) [] = some ([0x00, 0x00, 0x00, 0xFD, 0x26], 0x8003, []) := by
  decide

/-- The controller sequence of 95_test_vectors.md 2.9: line 0, then lines 0 to 7, then 0 and 1 again. -/
def buttons : State :=
  State.reset.setCtl
    { State.reset.ctl with pad0 := { index := 0, line := #v[true, false, true, true, false, false, false, true] } }

/-- The values of ten reads of controller 0 after a strobe of 1 and a strobe of 0. -/
def tenReads : Option (List Byte) :=
  match (memWrite 0x4016 0x03 buttons).bind fun _ s => (memWrite 0x4016 0x00 s).bind fun _ s => repeatRead 0x4016 10 s with
  | .ok vs _ => some vs
  | .fatal _ _ => none

theorem test_controller_sequence : tenReads = some [1, 0, 1, 1, 0, 0, 0, 1, 1, 0] := by decide

-- The picture decoder (95_test_vectors.md 2.10): the selected snapshot entry, in a snapshot that holds its indices.

/-- Graphics memory with some bytes, the snapshot entry `n` holding `n`. -/
def picture (bytes : List (GfxAddr × Byte)) : State :=
  let s := State.reset.setPpu { ppu0 with snap := Vector.ofFn fun i => BitVec.ofNat 32 i.val }
  bytes.foldl (fun s c => s.setPpu (gfxWrite s c.1 c.2)) s

theorem test_picture_row1 :
    pixelColor 21 50 0x2000 0x1000
      (picture [(0x20C2, 0x24), (0x1242, 0x04), (0x124A, 0x04), (0x23C8, 0x9C)]) = some 11 := by decide

theorem test_picture_row2 :
    pixelColor 16 50 0x2000 0x1000
      (picture [(0x20C2, 0x24), (0x1242, 0x04), (0x124A, 0x04), (0x23C8, 0x9C)]) = some 8 := by decide

theorem test_picture_row4 :
    pixelColor 255 239 0x2000 0x0000 (picture [(0x23BF, 0xFF), (0x0FF7, 0x01), (0x23FF, 0x0C)]) = some 13 := by decide

theorem test_picture_row7 :
    pixelColor 24 24 0x2000 0x0000 (picture [(0x2063, 0x02), (0x0020, 0x01), (0x0028, 0x01), (0x23C0, 0xE4)]) =
      some 12 := by decide

-- Reset and the frame event (95_test_vectors.md 2.11).

theorem test_reset_rs2 :
    (match step { start 0xA4 0xFF 0xFF 0xFF 0xB4 0x8016 [(0x0300, 0xA3), (0xFFFD, 0x80)] with
        halted := .halted (.unknownOpcode 0x02 0x8015), agenda := [.host .reset] } with
      | .next t => t == start 0x00 0x00 0x00 0xFD 0x34 0x8000 [(0x0300, 0xA3), (0xFFFD, 0x80)]
      | .fault _ | .refused _ => false) = true := by decide

/-- Reset from the state after reset, nothing placed, is that state. -/
theorem test_reset_reset :
    (match step { State.reset with agenda := [.host .reset] } with
      | .next t => t == State.reset
      | .fault _ | .refused _ => false) = true := by decide

/-- The frame event of NM4, with the NMI enabled and a stack pointer that wraps. -/
theorem test_frame_nm4 :
    after { (start 0x00 0x00 0x00 0x01 0x24 0x8003 [(0xFFFB, 0x90)]).setPpu { ppu0 with ctrl := 0x80 } with
        agenda := [.host .frameEvent] } [0x0101, 0x0100, 0x01FF] =
      some ([0x00, 0x00, 0x00, 0xFE, 0x24], 0x9000, [some 0x80, some 0x03, some 0x24]) := by decide

/-- Step 6 of program P4: the live Break bit goes to the stack as it stands. -/
theorem test_frame_p4 :
    after { (start 0x80 0x00 0x00 0xFD 0xB4 0x8009 [(0xFFFB, 0x90)]).setPpu { ppu0 with ctrl := 0x80, status := 0x80 } with
        agenda := [.host .frameEvent] } [0x01FD, 0x01FC, 0x01FB] =
      some ([0x80, 0x00, 0x00, 0xFA, 0xB4], 0x9000, [some 0x80, some 0x09, some 0xB4]) := by decide

-- Witnesses: for each statement with hypotheses, a state and operands that meet them all, at the edges of its ranges.

/-- A state with bytes in work RAM, at its mirrors' end, and in both program halves. -/
def sample : State :=
  start 0x12 0x01 0x02 0xFD 0x24 0x8000
    [(0x0010, 0x81), (0x02FF, 0x34), (0x0200, 0x12), (0x07FF, 0x55), (0x8000, 0xEA), (0xFFFB, 0x90), (0xFFFC, 0x12),
     (0xFFFD, 0x80), (0xFFFF, 0xA0)]

/-- The sample, halted by a halting opcode. -/
def stopped : State := { sample with halted := .halted (.unknownOpcode 0x02 0x8000) }

theorem witness_DecodeOfEncode : (Instr.wellFormed (.adc (.imm 0x01))) = true ∧ (Instr.wellFormed (.hlt 0xBB)) = true := by
  decide

theorem witness_EncodeOfDecode : decode [0x69, 0x01, 0xEA] = .ok (.adc (.imm 0x01), [0xEA]) := by decide

/-- An instruction whose three bytes wrap from the top of the program banks into work RAM. -/
theorem witness_StepRunsDecodedInstruction :
    let s := start 0x00 0x00 0x00 0xFD 0x24 0xFFFE [(0xFFFE, 0xAD), (0xFFFF, 0x10), (0x0000, 0x02)]
    s.halted = .running ∧ s.agenda = [] ∧ decode [0xAD, 0x10, 0x02] = .ok (.lda (.mem (.abs 0x0210)), []) ∧
    ∀ k b, ([0xAD, 0x10, 0x02] : List Byte)[k]? = some b → s.peek (s.pc + BitVec.ofNat 16 k) = some b := by
  refine ⟨rfl, rfl, rfl, fun k b h => ?_⟩
  have hk : k < 3 := by
    by_contra hk
    rw [List.getElem?_eq_none (by simpa using hk)] at h
    cases h
  have : k = 0 ∨ k = 1 ∨ k = 2 := by omega
  rcases this with rfl | rfl | rfl <;> (cases h; decide)

/-- The picture unit given, and PC on a device. -/
def fetching (pc : Word) (u : Ppu) : State := ((access 0xEA 0x00 0x00 0x00).setPc pc).setPpu u

/-- The same statement: an instruction whose opcode is read from the data port's last image and whose operand is the next
byte, of the I/O registers; an undocumented NOP read from the status; an operand fetch and an opcode fetch that are
fatal. -/
theorem witness_StepRuns_device :
    decode [0xA9, 0x00] = .ok (.lda (.imm 0x00), []) ∧
    (∃ t, Fetches 0x3FFF [0xA9, 0x00] (fetching 0x3FFF { ppu0 with readbuf := 0xA9 }) t) ∧
    decode [0x80, 0x77] = .ok (.nopU 0x80 (.imm 0x77), []) ∧
    (∃ t, memRead 0x2002 (fetching 0x2002 { ppu0 with status := 0x80 }) = .ok 0x80 t) ∧
    (∃ t, Fetches 0x2007 [0xA9] (fetching 0x2007 { ppu0 with readbuf := 0xA9 }) t ∧
      memRead 0x2008 t = .fatal (.ppuPortDirection .read 0x2008) t) ∧
    decode [0xA9] = .error (.missingOperand 0xA9) ∧
    (∀ b op v, decode ([0xA9] ++ [b]) ≠ .ok (.nopU op (.imm v), [])) ∧
    (∃ t, Fetches 0x4020 [] sample t ∧ memRead 0x4020 t = .fatal (.expansionAccess 0x4020 .read) t) ∧
    (∀ b op v, decode ([] ++ [b]) ≠ .ok (.nopU op (.imm v), [])) := by
  refine ⟨rfl, ⟨_, _, rfl, _, rfl, rfl⟩, rfl, ⟨_, rfl⟩, ⟨_, ⟨_, rfl, rfl⟩, rfl⟩, rfl, ?_, ⟨_, rfl, rfl⟩, ?_⟩
  · intro b op v h
    cases h
  · intro b op v h
    rcases hb : operandCount b with _ | _ | n <;> simp only [List.nil_append, decode, hb] at h
    · have e : tableEntry b 0 0 = .nopU op (.imm v) := by injection h with h; injection h
      have k : (tableEntry b 0 0).operandSize = 0 := hb
      rw [e] at k
      cases k
    · cases h
    · cases h

/-- INX read from the sprite-memory port: the side effect of that read and the instruction's own effect. -/
theorem test_inx_from_oam_port :
    (match step (fetching 0x2004 { ppu0 with oamaddr := 0xFF, oam := [(255, 0xE8)] }) with
    | .next t => some (t.x, t.pc, t.ppu.oamaddr)
    | .fault _ | .refused _ => none) = some (0x01, 0x2005, 0x00) := by decide

/-- The invariant of a state with memory, sprite memory and graphics listed, the flag raised and the strobe high. -/
theorem witness_Inv :
    Inv
      { sample with
        ppu := { ppu0 with status := 0x80, oam := [(255, 0x01)], gfx := [(8192, 0x11)] }
        ctl := { State.reset.ctl with strobe := true } } := by
  refine ⟨by decide, ?_, by decide, by decide, by decide, by decide, by decide, fun _ => ⟨rfl, rfl⟩⟩
  unfold State.memoryInRange
  decide

theorem witness_StepKeepsInv : ∃ t, step sample = .next t := ⟨_, rfl⟩

theorem witness_ProgramAndParametersNeverChange : ∃ t, step sample = .next t ∧ 0x8000 ≤ (0x8000 : Word).toNat :=
  ⟨_, rfl, by decide⟩

theorem witness_HaltIsLeftOnlyByReset :
    stopped.halted = .halted (.unknownOpcode 0x02 0x8000) ∧ stopped.agenda = [] ∧
    (∃ t, step (stopped.setAgenda [.host .reset]) = .next t ∧ t.halted = .running) ∧
    (stopped.setAgenda [.cpu]).halted = stopped.halted ∧
    (stopped.setAgenda [.host .frameEvent]).halted = stopped.halted :=
  ⟨rfl, rfl, ⟨_, rfl, rfl⟩, rfl, rfl⟩

theorem witness_HostStateChangesOnlyByItsOwner :
    ∃ t, step sample = .next t ∧ sample.agenda = [] ∧ sample.ppu.status.getLsbD 7 = false := ⟨_, rfl, rfl, rfl⟩

/-- The same statement: LDA 0x2002 clears a set flag, and so does a reset. -/
theorem witness_flag_cleared :
    let s := (access 0xAD 0x00 0x02 0x20).setPpu { ppu0 with status := 0x80 }
    (∃ t, step s = .next t ∧ s.ppu.status.getLsbD 7 = true ∧ t.ppu.status.getLsbD 7 = false) ∧
    ∃ t, step (s.setAgenda [.host .reset]) = .next t ∧ t.ppu.status.getLsbD 7 = false :=
  ⟨⟨_, rfl, rfl, rfl⟩, ⟨_, rfl, rfl⟩⟩

theorem witness_LiveBreakIsNeverSet :
    ∃ t, step sample = .next t ∧ sample.halted = .running ∧ t.halted = .running ∧ sample.agenda = [] ∧
      sample.p.getLsbD 4 = false := ⟨_, rfl, rfl, rfl, rfl, rfl⟩

/-- Each of the five instructions, from memory or with an immediate byte. -/
theorem witness_DecimalFlagHasNoEffect :
    [.adc (.imm 0x09), .sbc (.mem (.zp 0x10)), .sbcU 0x01, .rra (.zp 0x10), .isb (.abs 0x1FFF)].all (fun i =>
      match exec i sample with
      | .next t => t.halted == .running
      | .fault _ | .refused _ => false) = true := by decide

/-- An operand at the edge of work RAM, through its last mirror; and one in the expansion region. -/
theorem witness_OperandRead :
    effectiveAddress (.abs 0x1FFF) sample = .ok 0x1FFF sample ∧ memRead 0x1FFF sample = .ok 0x55 sample ∧
    effectiveAddress (.abs 0x4020) sample = .ok 0x4020 sample ∧
    memRead 0x4020 sample = .fatal (.expansionAccess 0x4020 .read) sample := by decide

/-- AdcResult, SbcResult, LogicResult, CompareResult, LoadResult: an immediate operand and a memory operand. -/
theorem witness_readSource :
    readSource (.imm 0xFF) sample = .ok 0xFF sample ∧ readSource (.mem (.zp 0x10)) sample = .ok 0x81 sample := by decide

/-- The same statements: an operand on a device, whose read changes it. -/
theorem witness_readSource_device :
    ∃ u, readSource (.mem (.abs 0x2002)) sample = .ok 0x00 u := ⟨_, rfl⟩

/-- BitResult, and the second half of LoadResult. -/
theorem witness_readMem : readMem (.zp 0x10) sample = .ok 0x81 sample := by decide

/-- ShiftMemoryResult, IncDecMemoryResult, CombinedShiftResult, CombinedArithmeticResult: a byte of work RAM. -/
theorem witness_modify :
    effectiveAddress (.zp 0x10) sample = .ok 0x0010 sample ∧ memRead 0x0010 sample = .ok 0x81 sample ∧
    ∀ r : Byte, ∃ w, memWrite 0x0010 r sample = .ok () w := ⟨by decide, by decide, fun _ => ⟨_, rfl⟩⟩

/-- StoreResult: a store to work RAM and one to the data port. -/
theorem witness_StoreResult :
    effectiveAddress (.abs 0x07FF) sample = .ok 0x07FF sample ∧ (∃ w, memWrite 0x07FF sample.a sample = .ok () w) ∧
    effectiveAddress (.abs 0x2007) sample = .ok 0x2007 sample ∧ (∃ w, memWrite 0x2007 sample.a sample = .ok () w) :=
  ⟨rfl, ⟨_, rfl⟩, rfl, ⟨_, rfl⟩⟩

/-- ShiftAccumulatorResult, IncDecRegisterResult, TransferResult: the listed result exists for every instruction. -/
theorem witness_results (s : State) :
    (∃ r c, Instr.asl .acc = .asl .acc ∧ r = BitVec.ofNat 8 (2 * s.a.toNat) ∧ c = s.a.getLsbD 7) ∧
    (∃ r : Byte, Instr.dey = .dey ∧ r = BitVec.ofNat 8 (s.y.toNat + 255)) ∧
    (∃ v, Instr.tsx = .tsx ∧ v = s.sp) := ⟨⟨_, _, rfl, rfl, rfl⟩, ⟨_, rfl, rfl⟩, ⟨_, rfl, rfl⟩⟩

/-- BranchResult: a branch that is taken and one that is not. -/
theorem witness_BranchResult :
    sample.p.getLsbD 1 = false ∧ (∃ bit taken, Instr.bne 0x80 = .bne 0x80 ∧ bit = 1 ∧ taken = false) ∧
    (∃ bit taken, Instr.beq 0x7F = .beq 0x7F ∧ bit = 1 ∧ taken = true) :=
  ⟨rfl, ⟨_, _, rfl, rfl, rfl⟩, ⟨_, _, rfl, rfl, rfl⟩⟩

/-- JmpResult: a pointer at the end of a page. -/
theorem witness_JmpResult :
    memRead 0x02FF sample = .ok 0x34 sample ∧
    memRead (BitVec.ofNat 16 ((0x02FF : Word).toNat / 256 * 256 + ((0x02FF : Word).toNat + 1) % 256)) sample =
      .ok 0x12 sample := by decide

/-- SubroutineResult, RtiResult, PullResult: the stack slots are bytes of memory, at SP 0xFD (SP + 3 wraps to 0x00). -/
theorem witness_stack :
    ∃ v lo hi, sample.peek (stackAt (sample.sp + 1)) = some v ∧ sample.peek (stackAt (sample.sp + 2)) = some lo ∧
      sample.peek (stackAt (sample.sp + 3)) = some hi := ⟨_, _, _, rfl, rfl, rfl⟩

theorem witness_BrkResult : sample.peek 0xFFFE = some 0x00 ∧ sample.peek 0xFFFF = some 0xA0 := by decide

/-- Both clauses: the enable bit 0 and 1. -/
theorem witness_FrameEventResult :
    let s := sample.setAgenda [.host .frameEvent]
    let t := s.setPpu { ppu0 with ctrl := 0x80 }
    s.halted = .running ∧ s.agenda = [.host .frameEvent] ∧ s.peek 0xFFFA = some 0x00 ∧ s.peek 0xFFFB = some 0x90 ∧
    s.ppu.ctrl.getLsbD 7 = false ∧ t.halted = .running ∧ t.agenda = [.host .frameEvent] ∧
    t.peek 0xFFFA = some 0x00 ∧ t.peek 0xFFFB = some 0x90 ∧ t.ppu.ctrl.getLsbD 7 = true := by decide

/-- PushResult and FlagInstructionResult. -/
theorem witness_push_flag (s : State) :
    (∃ v, Instr.php = .php ∧ v = s.p ||| 0x30) ∧ (∃ bit b, Instr.sed = .sed ∧ bit = 3 ∧ b = true) :=
  ⟨⟨_, rfl, rfl⟩, ⟨_, _, rfl, rfl, rfl⟩⟩

theorem witness_HaltingOpcodeHaltsExactly :
    let s := start 0x00 0x00 0x00 0xFD 0x24 0xFFFF [(0xFFFF, 0xBB)]
    s.halted = .running ∧ s.agenda = [] ∧ memRead s.pc s = .ok 0xBB s ∧ decode [0xBB] = .ok (.hlt 0xBB, []) := by decide

/-- The same statement, with the byte on a device. -/
theorem witness_HaltingOpcode_device :
    let s := ((access 0xAD 0x00 0x00 0x00).setPc 0x2007).setPpu { ppu0 with readbuf := 0x02 }
    s.halted = .running ∧ s.agenda = [] ∧ ∃ t, memRead s.pc s = .ok 0x02 t := ⟨rfl, rfl, _, rfl⟩

/-- PlainMemoryAccess, at the edges of the regions, and two addresses of one byte. -/
theorem witness_PlainMemoryAccess :
    (0x0000 : Word).toNat < 0x2000 ∧ (0x1FFF : Word).toNat < 0x2000 ∧ 0x6000 ≤ (0x6000 : Word).toNat ∧
    (0x7FFF : Word).toNat < 0x8000 ∧ 0x6000 ≤ (0x8000 : Word).toNat ∧ 0x6000 ≤ (0xFFFF : Word).toNat ∧
    memKey 0x0810 = memKey 0x0010 := by decide

/-- ExpansionAccessHalts, at both edges, with PC there. -/
theorem witness_ExpansionAccessHalts :
    0x4020 ≤ (0x4020 : Word).toNat ∧ (0x4020 : Word).toNat < 0x6000 ∧ 0x4020 ≤ (0x5FFF : Word).toNat ∧
    (0x5FFF : Word).toNat < 0x6000 ∧ (sample.setPc 0x5FFF).halted = .running ∧ (sample.setPc 0x5FFF).agenda = [] ∧
    (sample.setPc 0x5FFF).pc = 0x5FFF ∧ effectiveAddress (.abs 0x4020) sample = .ok 0x4020 sample ∧
    effectiveAddress (.abx 0x5FFE) sample = .ok 0x5FFF sample := by decide

theorem witness_ProgramBankWriteHalts :
    effectiveAddress (.abs 0x8000) sample = .ok 0x8000 sample ∧ 0x8000 ≤ (0x8000 : Word).toNat ∧
    sample.peek 0x8000 = some 0xEA ∧ effectiveAddress (.abs 0xFFFF) sample = .ok 0xFFFF sample ∧
    0x8000 ≤ (0xFFFF : Word).toNat ∧ sample.peek 0xFFFF = some 0xA0 := by decide

/-- PpuDirectionFaults: PC on a write-only register; an operand on one and on register 2; indirect jumps through
registers 2 and 7, the second read of the last at the start of the page. -/
theorem witness_PpuDirectionFaults :
    (sample.setPc 0x3FFE).halted = .running ∧ (sample.setPc 0x3FFE).agenda = [] ∧ (0x3FFE : Word).toNat % 8 = 6 ∧
    effectiveAddress (.abs 0x2000) sample = .ok 0x2000 sample ∧
    effectiveAddress (.abs 0x3FFA) sample = .ok 0x3FFA sample ∧ (0x3FFA : Word).toNat % 8 = 2 ∧
    (0x2002 : Word).toNat % 8 = 2 ∧ (0x3FFF : Word).toNat % 8 = 7 ∧ (0x3FFF : Word).toNat < 0x4000 := by decide

/-- DataPort: a pointer at the last byte below the palette, and one at its first entry, with its top bits ignored. -/
theorem witness_DataPort :
    (BitVec.ofNat 14 (0x3EFF : Word).toNat : GfxAddr).toNat < 0x3F00 ∧
    0x3F00 ≤ (BitVec.ofNat 14 (0xFF00 : Word).toNat : GfxAddr).toNat ∧ (0x2007 : Word).toNat % 8 = 7 := by decide

/-- JMP indirect with its pointer on a write-only register halts at the first read (48_bus_devices.md R311). -/
theorem test_jmp_pointer_on_mask :
    haltsWith (access 0x6C 0x00 0x01 0x20) (.ppuPortDirection .read 0x2001) = true := by decide

/-- INC 0x2002 halts at its write with the flag cleared by its read (60_exceptions.md R384, R387). -/
theorem test_inc_status_keeps_read :
    let s := (access 0xEE 0x00 0x02 0x20).setPpu { ppu0 with status := 0x80, toggle := true }
    haltsWith s (.ppuPortDirection .write 0x2002) ∧ ppuAfter s s.ppu = some ppu0 := by decide

/-- PpuDirectionFaults, PpuRegisterWrites, StatusRead, OamPort, DataPort: an image of each register, first and last. -/
theorem witness_ppuPort :
    ([0x2000, 0x2001, 0x2002, 0x2003, 0x2004, 0x2005, 0x2006, 0x3FFF] : List Word).all (fun a =>
      decide (0x2000 ≤ a.toNat) && decide (a.toNat < 0x4000)) = true ∧
    ([0x2000, 0x2001, 0x2002, 0x2003, 0x2004, 0x2005, 0x2006, 0x3FFF] : List Word).map (fun a => a.toNat % 8) =
      [0, 1, 2, 3, 4, 5, 6, 7] ∧
    sample.ppu.toggle = false ∧ (sample.setPpu { ppu0 with toggle := true }).ppu.toggle = true := by decide

/-- ControllerPort and ControllerSequence: both values of bit 0 and of the strobe. -/
theorem witness_controller :
    (0x02 : Byte).getLsbD 0 = false ∧ (0x03 : Byte).getLsbD 0 = true ∧ sample.ctl.strobe = false ∧
    (sample.setCtl { sample.ctl with strobe := true }).ctl.strobe = true := by decide

theorem witness_MiscIoRegisters :
    0x4000 ≤ (0x4000 : Word).toNat ∧ (0x401F : Word).toNat < 0x4020 ∧ (0x4000 : Word).toNat ≠ 0x4016 ∧
    (0x401F : Word).toNat ≠ 0x4016 ∧ (0x401F : Word).toNat ≠ 0x4017 := by decide

theorem witness_ResetResult :
    (stopped.setAgenda [.host .reset, .cpu]).agenda = .host .reset :: [.cpu] ∧
    (stopped.setAgenda [.host .reset, .cpu]).peek 0xFFFC = some 0x12 ∧
    (stopped.setAgenda [.host .reset, .cpu]).peek 0xFFFD = some 0x80 := by decide

theorem witness_SnapshotRefreshResult :
    (sample.setAgenda [.host .refreshSnapshot]).halted = .running ∧
    (sample.setAgenda [.host .refreshSnapshot]).agenda = .host .refreshSnapshot :: [] := by decide

/-- The last line, and the first two requests out of range; while halted too (93_implementation_defined.md V10). -/
theorem witness_SetControllerLineResult :
    (stopped.setAgenda [.host (.setLine 1 7 true)]).agenda = .host (.setLine 1 7 true) :: [] ∧ ¬(2 < 2 ∧ 0 < 8) ∧
    ¬(0 < 2 ∧ 8 < 8) := by decide

/-- PixelColorResult: the last pixel with the highest bases, and a call just outside each range. -/
theorem witness_PixelColorResult :
    255 < 256 ∧ 239 < 240 ∧ 0x3B00 + 0x3FF < 0x3F00 ∧ 0x2F00 + 0xFFF < 0x3F00 ∧ ¬(256 < 256) ∧ ¬(240 < 240) ∧
    ¬(0x3B01 + 0x3FF < 0x3F00) ∧ ¬(0x2F01 + 0xFFF < 0x3F00) := by decide

theorem witness_PixelColorIsPure :
    let t := start 0x00 0x00 0x00 0x00 0x24 0x0000 []
    t.ppu.gfx = sample.ppu.gfx ∧ t.params.gfxBank = sample.params.gfxBank ∧ t.ppu.snap = sample.ppu.snap := by decide

/-- RenderFrameResult: a halted state; bases just out of range; the highest bases in range, with a burst that stays
running and one whose first step halts. -/
theorem witness_RenderFrameResult :
    stopped.halted = .halted (.unknownOpcode 0x02 0x8000) ∧ sample.halted = .running ∧
    ¬((0x3B01 : GfxAddr).toNat + 0x3FF < 0x3F00 ∧ (0x2F00 : GfxAddr).toNat + 0xFFF < 0x3F00) ∧
    ¬((0x3B00 : GfxAddr).toNat + 0x3FF < 0x3F00 ∧ (0x2F01 : GfxAddr).toNat + 0xFFF < 0x3F00) ∧
    (0x3B00 : GfxAddr).toNat + 0x3FF < 0x3F00 ∧ (0x2F00 : GfxAddr).toNat + 0xFFF < 0x3F00 ∧
    (∃ t, runBurst 1 sample = .next t ∧ t.halted = .running) ∧
    (sample.setPc 0x4020).halted = .running ∧
    ∃ t, runBurst 1 (sample.setPc 0x4020) = .next t ∧ t.halted = .halted (.expansionAccess 0x4020 .read) :=
  ⟨rfl, rfl, by decide, by decide, by decide, by decide, ⟨_, rfl, rfl⟩, rfl, _, rfl, rfl⟩

/-- A frame whose burst halts gives no buffer (60_exceptions.md R405). -/
theorem test_renderFrame_halted_burst :
    ∃ t, renderFrame 2 0x2000 0x1000 (sample.setPc 0x4020) = .next { state := t, buffer := none } := by
  obtain ⟨t, h, k⟩ : ∃ t, runBurst 2 (sample.setPc 0x4020) = .next t ∧
      t.halted = .halted (.expansionAccess 0x4020 .read) := ⟨_, rfl, rfl⟩
  refine ⟨t, ?_⟩
  unfold renderFrame
  rw [show (sample.setPc 0x4020).halted = .running from rfl, if_pos (by decide), h]
  simp only [k, reduceCtorEq, if_false]

/-- ConstructResult: cartridges of one and of two banks with exactly their data, and one refused for each reason. -/
theorem witness_ConstructResult (one two short : List Byte) (h1 : one.length = 16384) (h2 : two.length = 32768)
    (h3 : short.length = 16383) :
    (((0x0F : Byte) &&& 0xF0) ||| ((0x0F : Byte) >>> 4)) = 0 ∧ (1 : Byte).toNat ≤ 1 ∧ (0 : Byte).toNat ≤ 1 ∧
    16384 * (1 : Byte).toNat ≤ one.length ∧ 16384 * (2 : Byte).toNat ≤ two.length ∧
    (((0x10 : Byte) &&& 0xF0) ||| ((0x10 : Byte) >>> 4)) ≠ 0 ∧ ((3 : Byte) ≠ 1 ∧ (3 : Byte) ≠ 2) ∧
    1 < (2 : Byte).toNat ∧ short.length < 16384 * (1 : Byte).toNat := by
  refine ⟨by decide, by decide, by decide, ?_, ?_, by decide, by decide, by decide, ?_⟩
  · rw [h1]; decide
  · rw [h2]; decide
  · rw [h3]; decide

/-- A header at fault in all three fields is refused for its mapper (log entry 21). -/
theorem test_construct_mapper_first :
    construct { programBanks := 3, graphicsBanks := 2, flag1 := 0x10, flag2 := 0x00 } [] [] State.reset =
      .refused (.unsupportedCartridge .mapper 1) := rfl

/-- Such a program exists. -/
theorem witness_program : (List.replicate 16384 (0xEA : Byte)).length = 16384 := List.length_replicate

end Sys2Proof.Tests
end

section
/-! SUPPORT. What one bus access that completes can do to memory and devices, said once. -/

namespace Sys2Proof.Machine

/-- What a completed access of the register port can do to the picture unit (48_bus_devices.md R310 to R325): at most one
byte of sprite memory and one of the graphics stores are written, and the status register loses its top bit at most. -/
structure Ppu.Accessed (u w : Ppu) : Prop where
  snap : w.snap = u.snap
  oam : w.oam = u.oam ∨ ∃ (k : Byte) (v : Byte), w.oam = u.oam.write k.toNat v
  gfx : w.gfx = u.gfx ∨ ∃ (k : Nat) (v : Byte), w.gfx = u.gfx.write k v
  status : w.status = u.status ∨ w.status = u.status &&& 0x7F

/-- While the strobe is 1, both read indices are 0 (48_bus_devices.md R342). -/
def Ctl.Held (k : Ctl) : Prop := k.strobe = true → k.pad0.index = 0 ∧ k.pad1.index = 0

/-- What a completed access of the I/O region can do to the controller port (48_bus_devices.md R341, R342): the lines
stay, and held indices stay held. -/
structure Ctl.Accessed (k j : Ctl) : Prop where
  line0 : j.pad0.line = k.pad0.line
  line1 : j.pad1.line = k.pad1.line
  held : k.Held → j.Held

theorem Ppu.Accessed.of_eq {u w : Ppu} (snap : w.snap = u.snap) (oam : w.oam = u.oam) (gfx : w.gfx = u.gfx)
    (status : w.status = u.status) : u.Accessed w :=
  ⟨snap, .inl oam, .inl gfx, .inl status⟩

theorem Ppu.Accessed.refl (u : Ppu) : u.Accessed u := .of_eq rfl rfl rfl rfl

theorem Ctl.Accessed.refl (k : Ctl) : k.Accessed k := ⟨rfl, rfl, id⟩

/-- Only a read of register 2 touches the status register (48_bus_devices.md R314). -/
theorem ppuRead_accessed {a : Word} {s t : State} {v : Byte} (h : ppuRead a s = .ok v t) :
    t.ctl = s.ctl ∧ s.ppu.Accessed t.ppu ∧ (t.ppu.status = s.ppu.status ∨ a.toNat % 8 = 2) := by
  unfold ppuRead at h
  rw [mask_ppu] at h
  split at h <;> cases h
  · next h2 => exact ⟨rfl, ⟨rfl, .inl rfl, .inl rfl, .inr rfl⟩, .inr h2⟩
  · exact ⟨rfl, .of_eq rfl rfl rfl rfl, .inl rfl⟩
  · exact ⟨rfl, .of_eq rfl rfl rfl rfl, .inl rfl⟩

/-- A write of register 7 writes one palette entry or one byte of the graphics stores (48_bus_devices.md R321). -/
theorem writeData_accessed (s : State) (v : Byte) :
    s.ppu.Accessed (writeData s v) ∧ (writeData s v).status = s.ppu.status := by
  unfold writeData
  by_cases h : Config.paletteBase.toNat ≤ s.ppu.dataAddr.toNat
  · rw [gfxWrite_palette h]
    exact ⟨.of_eq rfl rfl rfl rfl, rfl⟩
  · rw [gfxWrite_store h]
    exact ⟨⟨rfl, .inl rfl, .inr ⟨_, _, rfl⟩, .inl rfl⟩, rfl⟩

theorem writeScroll_accessed (u : Ppu) (v : Byte) :
    u.Accessed (u.writeScroll v) ∧ (u.writeScroll v).status = u.status := by
  unfold Ppu.writeScroll
  split <;> exact ⟨.of_eq rfl rfl rfl rfl, rfl⟩

theorem writeAddr_accessed (u : Ppu) (v : Byte) :
    u.Accessed (u.writeAddr v) ∧ (u.writeAddr v).status = u.status := by
  unfold Ppu.writeAddr
  split <;> exact ⟨.of_eq rfl rfl rfl rfl, rfl⟩

/-- No write touches the status register, which is read-only (48_bus_devices.md R325). -/
theorem ppuWrite_accessed {a : Word} {v : Byte} {s t : State} {w : Unit} (h : ppuWrite a v s = .ok w t) :
    t.ctl = s.ctl ∧ s.ppu.Accessed t.ppu ∧ t.ppu.status = s.ppu.status := by
  unfold ppuWrite at h
  split at h <;> cases h
  · exact ⟨rfl, .of_eq rfl rfl rfl rfl, rfl⟩
  · exact ⟨rfl, .of_eq rfl rfl rfl rfl, rfl⟩
  · exact ⟨rfl, .of_eq rfl rfl rfl rfl, rfl⟩
  · exact ⟨rfl, ⟨rfl, .inr ⟨_, _, rfl⟩, .inl rfl, .inl rfl⟩, rfl⟩
  · exact ⟨rfl, writeScroll_accessed _ _⟩
  · exact ⟨rfl, writeAddr_accessed _ _⟩
  · exact ⟨rfl, writeData_accessed _ _⟩

@[simp] theorem Pad.advance_line (d : Pad) (strobe : Bool) : (d.advance strobe).line = d.line := by
  cases strobe <;> rfl

@[simp] theorem Pad.advance_strobing (d : Pad) : d.advance true = d := rfl

theorem Ctl.readPad0_accessed (k : Ctl) : k.Accessed { k with pad0 := k.pad0.advance k.strobe } :=
  ⟨Pad.advance_line _ _, rfl, fun hk h => by
    have h : k.strobe = true := h
    simpa only [h, Pad.advance_strobing] using hk h⟩

theorem Ctl.readPad1_accessed (k : Ctl) : k.Accessed { k with pad1 := k.pad1.advance k.strobe } :=
  ⟨rfl, Pad.advance_line _ _, fun hk h => by
    have h : k.strobe = true := h
    simpa only [h, Pad.advance_strobing] using hk h⟩

/-- Raising the strobe sets both indices to 0 (48_bus_devices.md R341). -/
theorem Ctl.writeStrobe_accessed (k : Ctl) (v : Byte) : k.Accessed (k.writeStrobe v) := by
  unfold Ctl.writeStrobe
  split
  · exact ⟨rfl, rfl, fun _ _ => ⟨rfl, rfl⟩⟩
  · exact ⟨rfl, rfl, fun _ h => Bool.noConfusion h⟩

theorem ioRead_accessed {a : Word} {s t : State} {v : Byte} (h : ioRead a s = .ok v t) :
    t.ppu = s.ppu ∧ s.ctl.Accessed t.ctl := by
  unfold ioRead at h
  split at h <;> cases h
  · exact ⟨rfl, Ctl.readPad0_accessed _⟩
  · exact ⟨rfl, Ctl.readPad1_accessed _⟩
  · exact ⟨rfl, .refl _⟩

theorem ioWrite_accessed {a : Word} {v : Byte} {s t : State} {w : Unit} (h : ioWrite a v s = .ok w t) :
    t.ppu = s.ppu ∧ s.ctl.Accessed t.ctl := by
  unfold ioWrite at h
  split at h <;> cases h
  · exact ⟨rfl, Ctl.writeStrobe_accessed _ _⟩
  · exact ⟨rfl, .refl _⟩

theorem region_ppu {a : Word} (h : region a = .ppu) : 0x2000 ≤ a.toNat ∧ a.toNat < 0x4000 := by
  rw [region_eq_ranges] at h
  split_ifs at h
  omega

theorem region_sram {a : Word} (h : region a = .sram) : 0x6000 ≤ a.toNat ∧ a.toNat < 0x8000 := by
  rw [region_eq_ranges] at h
  split_ifs at h
  omega

/-- What a completed bus read does to the devices: the status register changes only at an image of register 2. -/
theorem memRead_accessed {a : Word} {s t : State} {v : Byte} (h : memRead a s = .ok v t) :
    s.ppu.Accessed t.ppu ∧ s.ctl.Accessed t.ctl ∧
      (t.ppu.status = s.ppu.status ∨ 0x2000 ≤ a.toNat ∧ a.toNat < 0x4000 ∧ a.toNat % 8 = 2) := by
  unfold memRead at h
  split at h
  · cases h
    exact ⟨.refl _, .refl _, .inl rfl⟩
  · next hr =>
    obtain ⟨hk, hu, hs⟩ := ppuRead_accessed h
    obtain ⟨lo, hi⟩ := region_ppu hr
    exact ⟨hu, hk ▸ .refl _, hs.imp_right fun h2 => ⟨lo, hi, h2⟩⟩
  · obtain ⟨hu, hk⟩ := ioRead_accessed h
    exact ⟨hu ▸ .refl _, hk, .inl (hu ▸ rfl)⟩
  · cases h
  · cases h
    exact ⟨.refl _, .refl _, .inl rfl⟩
  · cases h
    exact ⟨.refl _, .refl _, .inl rfl⟩

/-- What a completed bus write does to the devices. -/
theorem memWrite_accessed {a : Word} {v : Byte} {s t : State} {w : Unit} (h : memWrite a v s = .ok w t) :
    s.ppu.Accessed t.ppu ∧ s.ctl.Accessed t.ctl ∧ t.ppu.status = s.ppu.status := by
  unfold memWrite at h
  split at h
  · cases h
    exact ⟨.refl _, .refl _, rfl⟩
  · obtain ⟨hk, hu, hs⟩ := ppuWrite_accessed h
    exact ⟨hu, hk ▸ .refl _, hs⟩
  · obtain ⟨hu, hk⟩ := ioWrite_accessed h
    exact ⟨hu ▸ .refl _, hk, hu ▸ rfl⟩
  · cases h
  · cases h
    exact ⟨.refl _, .refl _, rfl⟩
  · cases h

/-- What a completed bus write does to memory: a byte is stored at an address that is kept, or none is. -/
theorem memWrite_mem {a : Word} {v : Byte} {s t : State} {w : Unit} (h : memWrite a v s = .ok w t) :
    t.mem = s.mem ∨ ∃ k, (k < 0x0800 ∨ 0x6000 ≤ k ∧ k < 0x10000) ∧ t.mem = s.mem.write k v := by
  unfold memWrite at h
  split at h
  · cases h
    exact .inr ⟨_, .inl (by rw [mask_ram]; omega), rfl⟩
  · obtain ⟨u, rfl⟩ := ppuWrite_ok h
    exact .inl rfl
  · obtain ⟨k, hk⟩ := ioWrite_eq a v s
    rw [hk] at h
    cases h
    exact .inl rfl
  · cases h
  · next hr =>
    cases h
    have := region_sram hr
    exact .inr ⟨_, .inr (by omega), rfl⟩
  · cases h

end Sys2Proof.Machine
end

section
/-! SUPPORT. What one step can do, by the turn it takes (00_scope.md R8). -/

namespace Sys2Proof.Machine

/-- A step that completes is a CPU step, or the operation of the frame sequencer that the agenda names. -/
theorem step_cases {s t : State} (h : step s = .next t) :
    ((s.agenda = [] ∨ ∃ rest, s.agenda = .cpu :: rest) ∧ cpuStep (s.setAgenda s.agenda.tail) = .next t) ∨
    ∃ op rest, s.agenda = .host op :: rest ∧ runHost op (s.setAgenda rest) = .next t := by
  unfold step takeTurn at h
  split at h
  · next ha =>
    have hs : s.setAgenda s.agenda.tail = s := by rw [ha, List.tail_nil, ← ha]; rfl
    exact .inl ⟨.inl ha, by rw [hs]; exact h⟩
  · next rest ha => exact .inl ⟨.inr ⟨rest, ha⟩, by rw [ha]; exact h⟩
  · next op rest ha => exact .inr ⟨op, rest, ha, h⟩

/-- The frame event keeps what the updates of a CPU step and the raised flag keep. -/
theorem Closed.frameEvent {Q : State → Prop} (C : Closed Q) {s t : State} (h : Q (s.setPpu s.ppu.raiseBlank))
    (e : frameEvent s = .next t) : Q t := by
  unfold Machine.frameEvent at e
  split at e
  · cases e
  · dsimp only at e
    split at e
    · exact C.finish (C.enterInterrupt _ _ _ h) e
    · cases e
      exact h

/-- The NMI hook leaves the devices alone: it pushes to work RAM and reads its vector in a program bank. -/
theorem nmiHook_devices {s t : State} (h : (nmiHook s).finish = .next t) : SameDevices s t := by
  obtain ⟨m, -, e⟩ := enterInterrupt_eq s.pc (pushedByHook s.p) Config.vecNmi s (by decide) (by decide)
  rw [nmiHook, e] at h
  cases h
  exact ⟨rfl, rfl⟩

/-- Of the devices, the frame event changes the vertical-blank flag alone (60_exceptions.md R401). -/
theorem frameEvent_devices {s t : State} (h : frameEvent s = .next t) :
    t.ppu = s.ppu.raiseBlank ∧ t.ctl = s.ctl := by
  unfold frameEvent at h
  split at h
  · cases h
  · dsimp only at h
    split at h
    · exact nmiHook_devices h
    · cases h
      exact ⟨rfl, rfl⟩

/-- The refresh writes the snapshot alone (60_exceptions.md R402). -/
theorem refreshSnapshot_eq {s t : State} (h : refreshSnapshot s = .next t) :
    t = s.setPpu { s.ppu with snap := snapshotOf s } := by
  unfold refreshSnapshot at h
  split at h <;> cases h
  rfl

/-- `setControllerLine` writes lines alone (60_exceptions.md R403). -/
theorem setControllerLine_eq {c l : Nat} {b : Bool} {s t : State} (h : setControllerLine c l b s = .next t) :
    ∃ l0 l1, t = s.setCtl { s.ctl with
      pad0 := { s.ctl.pad0 with line := l0 }
      pad1 := { s.ctl.pad1 with line := l1 } } := by
  unfold setControllerLine at h
  split at h
  · split at h <;> cases h
    · exact ⟨_, s.ctl.pad1.line, rfl⟩
    · exact ⟨s.ctl.pad0.line, _, rfl⟩
  · cases h

/-- Reset always completes: its two bus accesses read a program bank (70_reset_and_hazards.md R420). -/
theorem resetMachine_eq {s t : State} (h : resetMachine s = .next t) : ∃ pc, t = s.resetRegisters.setPc pc := by
  have r1 : region Config.vecReset = .program := by decide
  have r2 : region (Config.vecReset + 1) = .program := by decide
  simp only [resetMachine, memRead16, memRead_program r1, memRead_program r2, Res.bind_ok, Res.update_ok,
    Res.finish_ok, Host.Outcome.next.injEq] at h
  exact ⟨_, h.symm⟩

end Sys2Proof.Machine
end

section
/-! PROOFS. The invariant (statements O5 and O6). -/

namespace Sys2Proof.Machine

/-- A write keeps a bound on the addresses listed, when it is at an address within it. -/
theorem Memory.forall_mem_write (P : Nat → Prop) {m : Memory} {k : Nat} {v : Byte} (h : ∀ c ∈ m, P c.1)
    (hk : P k) : ∀ c ∈ m.write k v, P c.1 := by
  intro c hc
  obtain rfl | hc := Memory.mem_write m k v c hc
  · exact hk
  · exact h c hc

/-- The invariant after one bus access, or none, with Reserved still set. -/
theorem Inv.of_accessed {s t : State} (h : Inv s)
    (hm : t.mem = s.mem ∨ ∃ k v, (k < 0x0800 ∨ 0x6000 ≤ k ∧ k < 0x10000) ∧ t.mem = s.mem.write k v)
    (hu : s.ppu.Accessed t.ppu) (hk : s.ctl.Accessed t.ctl) (hp : t.p.getLsbD 5 = true) : Inv t where
  mem := by
    obtain e | ⟨k, v, -, e⟩ := hm
    · exact e ▸ h.mem
    · exact e ▸ Memory.write_wf k v h.mem
  range := by
    unfold State.memoryInRange
    obtain e | ⟨k, v, hk, e⟩ := hm
    · exact e ▸ h.range
    · exact e ▸ Memory.forall_mem_write (fun i => i < 0x0800 ∨ 0x6000 ≤ i ∧ i < 0x10000) h.range hk
  oam := by
    obtain e | ⟨k, v, e⟩ := hu.oam
    · exact e ▸ h.oam
    · exact e ▸ Memory.write_wf _ v h.oam
  oamRange := by
    obtain e | ⟨k, v, e⟩ := hu.oam
    · exact e ▸ h.oamRange
    · exact e ▸ Memory.forall_mem_write (· < 256) h.oamRange k.isLt
  gfx := by
    obtain e | ⟨k, v, e⟩ := hu.gfx
    · exact e ▸ h.gfx
    · exact e ▸ Memory.write_wf k v h.gfx
  reserved := hp
  status i hi := by
    obtain e | e := hu.status
    · exact e ▸ h.status i hi
    · rw [e, BitVec.getLsbD_and, h.status i hi, Bool.false_and]
  strobe := hk.held h.strobe

/-- The invariant after an update of registers that leaves Reserved set. -/
theorem Inv.of_same {s t : State} (h : Inv s) (hm : t.mem = s.mem) (hd : SameDevices s t)
    (hp : t.p.getLsbD 5 = true) : Inv t :=
  h.of_accessed (.inl hm) (hd.1 ▸ .refl _) (hd.2 ▸ .refl _) hp

/-- Every elementary update of a CPU step keeps the invariant. -/
theorem Inv.closed : Closed Inv where
  setA _ _ h := h.of_same rfl ⟨rfl, rfl⟩ h.reserved
  setX _ _ h := h.of_same rfl ⟨rfl, rfl⟩ h.reserved
  setY _ _ h := h.of_same rfl ⟨rfl, rfl⟩ h.reserved
  setSp _ _ h := h.of_same rfl ⟨rfl, rfl⟩ h.reserved
  setPc _ _ h := h.of_same rfl ⟨rfl, rfl⟩ h.reserved
  setP _ _ h5 _ h := h.of_same rfl ⟨rfl, rfl⟩ (h5.trans h.reserved)
  pull _ v h := h.of_same rfl ⟨rfl, rfl⟩ (pulledStatus_getLsbD v 5)
  halt _ _ h := h.of_same rfl ⟨rfl, rfl⟩ h.reserved
  busHalt _ _ h := h.of_same rfl ⟨rfl, rfl⟩ (by simp)
  read a s h := by
    cases e : memRead a s with
    | ok v t =>
      obtain ⟨hb, hm⟩ := memRead_busOnly e
      obtain ⟨hu, hk, -⟩ := memRead_accessed e
      exact h.of_accessed (.inl hm) hu hk (hb ▸ h.reserved)
    | fatal c t => exact memRead_fatal e ▸ h
  write a v s h := by
    cases e : memWrite a v s with
    | ok w t =>
      obtain ⟨hu, hk, -⟩ := memWrite_accessed e
      exact h.of_accessed ((memWrite_mem e).imp_right fun ⟨k, hk, e⟩ => ⟨k, v, hk, e⟩) hu hk
        (memWrite_busOnly e ▸ h.reserved)
    | fatal c t => exact memWrite_fatal e ▸ h

theorem Inv.setAgenda {s : State} (h : Inv s) (l : List Turn) : Inv (s.setAgenda l) :=
  h.of_same rfl ⟨rfl, rfl⟩ h.reserved

/-- Raising the vertical-blank flag leaves bits 6:0 of the status alone (10_state.md R40). -/
theorem Ppu.raiseBlank_status_low (u : Ppu) {i : Nat} (hi : i < 7) :
    u.raiseBlank.status.getLsbD i = u.status.getLsbD i := by
  have h80 : (0x80 : Byte).getLsbD i = false := by
    interval_cases i <;> rfl
  rw [Ppu.raiseBlank, BitVec.getLsbD_or, h80, Bool.or_false]

theorem Inv.raiseBlank {s : State} (h : Inv s) : Inv (s.setPpu s.ppu.raiseBlank) :=
  { h with status := fun i hi => (s.ppu.raiseBlank_status_low hi).trans (h.status i hi) }

theorem Inv.setSnap {s : State} (h : Inv s) (w : Vector Color 16) : Inv (s.setPpu { s.ppu with snap := w }) :=
  { h with }

/-- Reset sets Reserved, and clears the status and the strobe (70_reset_and_hazards.md R420). -/
theorem Inv.resetRegisters {s : State} (h : Inv s) : Inv s.resetRegisters :=
  { h with
    reserved := by simp [State.resetRegisters]
    status := fun i _ => BitVec.getLsbD_zero
    strobe := fun h => Bool.noConfusion h }

/-- Every operation of the frame sequencer keeps the invariant. -/
theorem Inv.runHost {op : HostOp} {s t : State} (h : Inv s) (e : runHost op s = .next t) : Inv t := by
  cases op with
  | frameEvent => exact Inv.closed.frameEvent h.raiseBlank e
  | refreshSnapshot =>
    rw [refreshSnapshot_eq e]
    exact h.setSnap _
  | setLine c l b =>
    obtain ⟨l0, l1, rfl⟩ := setControllerLine_eq e
    exact { h with }
  | reset =>
    obtain ⟨pc, rfl⟩ := resetMachine_eq e
    exact Inv.closed.setPc _ _ h.resetRegisters

/-- Settles O5: the elementary updates of a CPU step keep the invariant, and so does each operation of the frame
sequencer. -/
theorem stepKeepsInv : Obligations.StepKeepsInv := by
  intro s t h e
  obtain ⟨-, e⟩ | ⟨op, rest, -, e⟩ := step_cases e
  · exact Inv.closed.cpuStep (h.setAgenda _) e
  · exact (h.setAgenda _).runHost e

/-- Settles O6: every memory of the reset state lists nothing, P is 0x34, the status and the strobe are 0. -/
theorem resetStateHasInv : Obligations.ResetStateHasInv where
  mem := reset_mem_wf
  range _ hc := absurd hc List.not_mem_nil
  oam := reset_mem_wf
  oamRange _ hc := absurd hc List.not_mem_nil
  gfx := reset_mem_wf
  reserved := by decide
  status _ _ := BitVec.getLsbD_zero
  strobe h := Bool.noConfusion h

end Sys2Proof.Machine
end

section
/-! PROOFS. The live Break bit (statement O10). -/

namespace Sys2Proof.Machine

/-- Break is 0 as long as the machine runs (10_state.md R31). -/
def BreakClear (s : State) : Prop := s.halted = .running → s.p.getLsbD 4 = false

theorem BreakClear.of_same {s t : State} (h : BreakClear s) (hh : t.halted = s.halted) (hp : t.p = s.p) :
    BreakClear t := fun hr => hp ▸ h (hh ▸ hr)

theorem BreakClear.of_busOnly {s t : State} (h : BreakClear s) (hb : BusOnly s t) : BreakClear t := by
  unfold BusOnly at hb
  exact h.of_same (hb ▸ rfl) (hb ▸ rfl)

/-- A flag computation leaves Break alone, a pull clears it, and each halt ends the run. -/
theorem BreakClear.closed : Closed BreakClear where
  setA _ _ h := h
  setX _ _ h := h
  setY _ _ h := h
  setSp _ _ h := h
  setPc _ _ h := h
  setP _ _ _ h4 h hr := h4.trans (h hr)
  pull _ v _ _ := pulledStatus_getLsbD v 4
  halt _ _ _ hr := RunState.noConfusion hr
  busHalt _ _ _ hr := RunState.noConfusion hr
  read a s h := by
    cases e : memRead a s with
    | ok v t => exact h.of_busOnly (memRead_busOnly e).1
    | fatal c t => exact memRead_fatal e ▸ h
  write a v s h := by
    cases e : memWrite a v s with
    | ok w t => exact h.of_busOnly (memWrite_busOnly e)
    | fatal c t => exact memWrite_fatal e ▸ h

/-- Every operation of the frame sequencer but reset keeps Break clear. -/
theorem BreakClear.runHost {op : HostOp} {s t : State} (hop : op ≠ .reset) (h : BreakClear s)
    (e : runHost op s = .next t) : BreakClear t := by
  cases op with
  | frameEvent => exact BreakClear.closed.frameEvent h e
  | refreshSnapshot =>
    rw [refreshSnapshot_eq e]
    exact h
  | setLine c l b =>
    obtain ⟨l0, l1, rfl⟩ := setControllerLine_eq e
    exact h
  | reset => exact absurd rfl hop

/-- Settles O10: the elementary updates of a CPU step and the operations but reset keep Break clear while running. -/
theorem liveBreakIsNeverSet : Obligations.LiveBreakIsNeverSet := by
  intro s t e _ hrun hreset hb
  have h : BreakClear s := fun _ => hb
  obtain ⟨-, e⟩ | ⟨op, rest, ha, e⟩ := step_cases e
  · exact BreakClear.closed.cpuStep (s := s.setAgenda s.agenda.tail) h e hrun
  · have hop : op ≠ .reset := fun hr => hreset rest (hr ▸ ha)
    exact BreakClear.runHost (s := s.setAgenda rest) hop h e hrun

end Sys2Proof.Machine
end

section
/-! PROOFS. Who changes the lines, the snapshot and the vertical-blank flag (statement O9). -/

namespace Sys2Proof.Machine

/-- What no bus access does: change a line or the snapshot, or set the vertical-blank flag. -/
structure HostKept (s t : State) : Prop where
  line0 : t.ctl.pad0.line = s.ctl.pad0.line
  line1 : t.ctl.pad1.line = s.ctl.pad1.line
  snap : t.ppu.snap = s.ppu.snap
  blank : s.ppu.status.getLsbD 7 = false → t.ppu.status.getLsbD 7 = false

theorem HostKept.refl (s : State) : HostKept s s := ⟨rfl, rfl, rfl, id⟩

theorem HostKept.trans {s t u : State} (h : HostKept s t) (k : HostKept t u) : HostKept s u :=
  ⟨k.line0.trans h.line0, k.line1.trans h.line1, k.snap.trans h.snap, k.blank ∘ h.blank⟩

theorem HostKept.of_accessed {s t : State} (hu : s.ppu.Accessed t.ppu) (hk : s.ctl.Accessed t.ctl) : HostKept s t where
  line0 := hk.line0
  line1 := hk.line1
  snap := hu.snap
  blank h := by
    obtain e | e := hu.status
    · exact e ▸ h
    · rw [e, BitVec.getLsbD_and, h, Bool.false_and]

/-- No list of accesses changes a line or the snapshot, or sets the vertical-blank flag. -/
theorem Accesses.hostKept {s t : State} {l : List (Direction × Word)} (h : Accesses s l t) : HostKept s t := by
  induction h with
  | start => exact .refl s
  | keep _ _ hu hk _ ih => exact ih.trans (.of_accessed (hu ▸ .refl _) (hk ▸ .refl _))
  | read _ e ih =>
    obtain ⟨hu, hk, -⟩ := memRead_accessed e
    exact ih.trans (.of_accessed hu hk)
  | write _ e ih =>
    obtain ⟨hu, hk, -⟩ := memWrite_accessed e
    exact ih.trans (.of_accessed hu hk)

/-- A read of an image of picture-unit register 2 (48_bus_devices.md R314). -/
def ReadsStatus (l : List (Direction × Word)) : Prop :=
  ∃ a, (.read, a) ∈ l ∧ 0x2000 ≤ a.toNat ∧ a.toNat < 0x4000 ∧ a.toNat % 8 = 2

theorem ReadsStatus.append {l : List (Direction × Word)} (h : ReadsStatus l) (m : List (Direction × Word)) :
    ReadsStatus (l ++ m) :=
  h.imp fun _ ⟨ha, hrange⟩ => ⟨List.mem_append_left m ha, hrange⟩

/-- Accesses without a read of register 2 leave the status register alone (48_bus_devices.md R323). -/
theorem Accesses.status {s t : State} {l : List (Direction × Word)} (h : Accesses s l t) :
    t.ppu.status = s.ppu.status ∨ ReadsStatus l := by
  induction h with
  | start => exact .inl rfl
  | keep _ _ hu _ _ ih => exact ih.imp_left fun k => hu ▸ k
  | @read l u t a v _ e ih =>
    obtain k | k := ih
    · obtain ⟨-, -, hs | h2⟩ := memRead_accessed e
      · exact .inl (hs.trans k)
      · exact .inr ⟨a, List.mem_append_right l List.mem_cons_self, h2⟩
    · exact .inr (k.append _)
  | write _ e ih =>
    obtain ⟨-, -, hs⟩ := memWrite_accessed e
    exact ih.imp hs.trans fun k => k.append _

/-- Bus accesses that complete lead from one state of memory and devices to the other in a CPU turn. -/
theorem accesses_of_cpuTurn {s t : State} {rest : List Turn} (h : cpuStep (s.setAgenda rest) = .next t) :
    ∃ l, Accesses s l t :=
  (Accesses.closed s).cpuStep (s := s.setAgenda rest) ⟨[], Accesses.start.keep rfl rfl rfl rfl⟩ h

/-- The frame event sets the vertical-blank flag (60_exceptions.md R401). -/
theorem Ppu.raiseBlank_blank (u : Ppu) : u.raiseBlank.status.getLsbD 7 = true := by
  simp [Ppu.raiseBlank]

/-- What the operations of the frame sequencer can do to lines, snapshot and vertical-blank flag, each to its own. -/
theorem runHost_hostState {op : HostOp} {s t : State} (h : runHost op s = .next t) :
    ((∀ c l b, op ≠ .setLine c l b) → t.ctl.pad0.line = s.ctl.pad0.line ∧ t.ctl.pad1.line = s.ctl.pad1.line) ∧
    (op ≠ .refreshSnapshot → t.ppu.snap = s.ppu.snap) ∧
    (op ≠ .frameEvent → s.ppu.status.getLsbD 7 = false → t.ppu.status.getLsbD 7 = false) ∧
    (op ≠ .reset → s.ppu.status.getLsbD 7 = true → t.ppu.status.getLsbD 7 = true) := by
  cases op with
  | frameEvent =>
    obtain ⟨hu, hk⟩ := frameEvent_devices h
    rw [hu, hk]
    exact ⟨fun _ => ⟨rfl, rfl⟩, fun _ => rfl, fun h => absurd rfl h, fun _ _ => s.ppu.raiseBlank_blank⟩
  | refreshSnapshot =>
    rw [refreshSnapshot_eq h]
    exact ⟨fun _ => ⟨rfl, rfl⟩, fun h => absurd rfl h, fun _ => id, fun _ => id⟩
  | setLine c l b =>
    obtain ⟨l0, l1, rfl⟩ := setControllerLine_eq h
    exact ⟨fun h => absurd rfl (h c l b), fun _ => rfl, fun _ => id, fun _ => id⟩
  | reset =>
    obtain ⟨pc, rfl⟩ := resetMachine_eq h
    exact ⟨fun _ => ⟨rfl, rfl⟩, fun _ => rfl, fun _ _ => BitVec.getLsbD_zero, fun h => absurd rfl h⟩

/-- Settles O9: a CPU turn is a list of bus accesses, none of which changes a line or the snapshot or sets the flag, and
of which only a read of register 2 clears it; each operation of the frame sequencer changes its own state alone. -/
theorem hostStateChangesOnlyByItsOwner : Obligations.HostStateChangesOnlyByItsOwner := by
  intro s t e
  obtain ⟨hturn, e⟩ | ⟨op, rest, ha, e⟩ := step_cases e
  · obtain ⟨l, hl⟩ := accesses_of_cpuTurn e
    have hk := hl.hostKept
    refine ⟨fun _ => ⟨hk.line0, hk.line1⟩, fun _ => hk.snap, fun _ => hk.blank, fun hset hclear => .inr
      ⟨hturn, ⟨l, hl⟩, fun l' hl' => ?_⟩⟩
    refine hl'.status.resolve_left fun hs => ?_
    rw [hs, hset] at hclear
    exact Bool.noConfusion hclear
  · obtain ⟨hline, hsnap, hblank, hkeep⟩ := runHost_hostState e
    refine ⟨fun h => hline ?_, fun h => hsnap ?_, fun h => hblank ?_, fun hset hclear => .inl ?_⟩
    · exact fun c l b he => h c l b rest (he ▸ ha)
    · exact fun he => h rest (he ▸ ha)
    · exact fun he => h rest (he ▸ ha)
    · by_contra hno
      have hop : op ≠ .reset := fun he => hno ⟨rest, he ▸ ha⟩
      rw [hkeep hop hset] at hclear
      exact Bool.noConfusion hclear

end Sys2Proof.Machine
end

section
/-! SUPPORT. Bus accesses by region of the address map, and the outcome of an operation that a fatal access cuts. -/

namespace Sys2Proof.Machine

theorem region_expansion {a : Word} (h : 0x4020 ≤ a.toNat) (k : a.toNat < 0x6000) : region a = .expansion := by
  rw [region_eq_ranges, if_neg (by omega), if_neg (by omega), if_neg (by omega), if_pos k]

/-- A read of the expansion region is fatal (20_memory.md R75). -/
theorem memRead_expansion {a : Word} (h : region a = .expansion) (s : State) :
    memRead a s = .fatal (.expansionAccess a .read) s := by
  simp only [memRead, h]

/-- A write of the expansion region is fatal (20_memory.md R75). -/
theorem memWrite_expansion {a : Word} (h : region a = .expansion) (v : Byte) (s : State) :
    memWrite a v s = .fatal (.expansionAccess a .write) s := by
  simp only [memWrite, h]

/-- A write of a program bank is fatal (20_memory.md R78). -/
theorem memWrite_program {a : Word} (h : 0x8000 ≤ a.toNat) (v : Byte) (s : State) :
    memWrite a v s = .fatal (.programBankWrite a v) s := by
  simp only [memWrite, region_program h]

/-- A write of work RAM or save memory changes memory alone (20_memory.md R72, R76). -/
theorem memWrite_plain {a : Word} (h : a.toNat < 0x2000 ∨ 0x6000 ≤ a.toNat ∧ a.toNat < 0x8000) (v : Byte)
    (s : State) : ∃ m, memWrite a v s = .ok () (s.setMem m) := by
  obtain h | ⟨h6, h8⟩ := h
  · have hr : region a = .ram := by rw [region_eq_ranges, if_pos h]
    exact ⟨_, by simp only [memWrite, hr]; rfl⟩
  · have hr : region a = .sram := by
      rw [region_eq_ranges, if_neg (by omega), if_neg (by omega), if_neg (by omega), if_neg (by omega), if_pos h8]
    exact ⟨_, by simp only [memWrite, hr]; rfl⟩

/-- A byte of memory is kept at every address of work RAM and from save memory on (20_memory.md R71). -/
theorem memKey_isSome {a : Word} (h : a.toNat < 0x2000 ∨ 0x6000 ≤ a.toNat) : (memKey a).isSome := by
  obtain h | h := h
  · rw [memKey_ram h, Option.isSome_some]
  · rw [memKey_upper h, Option.isSome_some]

theorem peek_of_isSome {a : Word} (h : (memKey a).isSome) (s : State) : ∃ w, s.peek a = some w := by
  obtain ⟨k, hk⟩ := Option.isSome_iff_exists.1 h
  exact ⟨s.mem.read k, by rw [State.peek, hk, Option.map_some]⟩

/-- Only work RAM has mirrors: a byte from 0x0800 on has one address (20_memory.md R72, R76, R77). -/
theorem toNat_eq_of_memKey {a : Word} {k : Nat} (h : memKey a = some k) (hk : 0x0800 ≤ k) : a.toNat = k := by
  by_cases h2 : a.toNat < 0x2000
  · rw [memKey_ram h2, Option.some.injEq] at h
    omega
  · by_cases h6 : a.toNat < 0x6000
    · rw [memKey_device (by omega) h6] at h
      cases h
    · rw [memKey_upper (by omega), Option.some.injEq] at h
      exact h

/-- No bus write that completes changes a byte of a program bank (20_memory.md R77, R78). -/
theorem memWrite_peek_program {ea a : Word} {v : Byte} {s t : State} {w : Unit} (h : memWrite ea v s = .ok w t)
    (ha : 0x8000 ≤ a.toNat) : t.peek a = s.peek a := by
  rw [memWrite_storesOnly h a, if_neg]
  rintro ⟨hk, -⟩
  rw [memKey_upper (by omega)] at hk
  have hea : ea.toNat = a.toNat := toNat_eq_of_memKey hk.symm (by omega)
  rw [memWrite_program (by omega)] at h
  cases h

/-- The outcome is a next state halted with the cause, memory and devices as in `s` (60_exceptions.md R380, R387). -/
def HaltsWith (c : Cause) (s : State) (o : Out) : Prop :=
  ∃ t, o = .next t ∧ t.halted = .halted c ∧ t.mem = s.mem ∧ SameDevices s t

theorem HaltsWith.busHalt (s : State) (c : Cause) : HaltsWith c s (.next (s.busHalt c)) :=
  ⟨_, rfl, rfl, rfl, rfl, rfl⟩

/-- An operation cut by a fatal access halts, the earlier accesses keeping their effect. -/
theorem HaltsWith.finish {r : Res Unit} {c : Cause} {s : State} (h : r = .fatal c s) : HaltsWith c s r.finish :=
  h ▸ .busHalt s c

/-- A reader is one operand read and an update of registers (20_memory.md R91). -/
theorem exec_of_mem_readersAt {m : MemMode} {i : Instr} (h : i ∈ readersAt m) (s : State) :
    ∃ f, exec i s = ((readMem m s).update f).finish := by
  simp only [readersAt, List.mem_cons, List.not_mem_nil, or_false] at h
  rcases h with rfl | rfl | rfl | rfl | rfl | rfl | rfl | rfl | rfl | rfl | rfl | rfl | rfl <;> exact ⟨_, rfl⟩

/-- A store is one write of a byte of the registers (20_memory.md R91). -/
theorem exec_of_mem_storesAt {m : MemMode} {i : Instr} (h : i ∈ storesAt m) (s : State) :
    ∃ v, exec i s = (storeMem m v s).finish := by
  simp only [storesAt, List.mem_cons, List.not_mem_nil, or_false] at h
  rcases h with rfl | rfl | rfl | rfl <;> exact ⟨_, rfl⟩

/-- A read-modify-write instruction is the shared sequence (42_shift_rotate_incdec.md R200). -/
theorem exec_of_mem_modifiersAt {m : MemMode} {i : Instr} (h : i ∈ modifiersAt m) (s : State) :
    ∃ new after, exec i s = (modifyMem m new after s).finish := by
  simp only [modifiersAt, List.mem_cons, List.not_mem_nil, or_false] at h
  rcases h with rfl | rfl | rfl | rfl | rfl | rfl | rfl | rfl | rfl | rfl | rfl | rfl <;> exact ⟨_, _, rfl⟩

section Cut

variable {m : MemMode} {s u : State} {ea : Word} {c : Cause} (he : effectiveAddress m s = .ok ea s)

include he

theorem storeMem_fatal {v : Byte} (hw : memWrite ea v s = .fatal c u) : storeMem m v s = .fatal c u := by
  simp only [storeMem, he, Res.bind_ok, hw]

theorem modifyMem_fatal_read (new : Byte → Byte) (after : Byte → State → State) (hr : memRead ea s = .fatal c u) :
    modifyMem m new after s = .fatal c u := by
  simp only [modifyMem, he, hr, Res.bind_ok, Res.bind_fatal]

theorem modifyMem_fatal_write {new : Byte → Byte} (after : Byte → State → State) {v : Byte} {t : State}
    (hr : memRead ea s = .ok v t) (hw : memWrite ea (new v) t = .fatal c u) : modifyMem m new after s = .fatal c u := by
  simp only [modifyMem, he, hr, hw, Res.bind_ok, Res.update_fatal]

/-- Where the operand's read is fatal, every instruction that makes it halts. -/
theorem halts_of_memRead_fatal (hr : memRead ea s = .fatal c s) {i : Instr} (hi : i ∈ readersAt m ++ modifiersAt m) :
    HaltsWith c s (exec i s) := by
  obtain hi | hi := List.mem_append.1 hi
  · obtain ⟨f, e⟩ := exec_of_mem_readersAt hi s
    rw [e, readMem_eq he, hr]
    exact .busHalt s c
  · obtain ⟨new, after, e⟩ := exec_of_mem_modifiersAt hi s
    exact e ▸ .finish (modifyMem_fatal_read he new after hr)

/-- Where every write of the target is fatal with one cause, every store halts with it. -/
theorem halts_of_memWrite_fatal (hw : ∀ v, memWrite ea v s = .fatal c s) {i : Instr} (hi : i ∈ storesAt m) :
    HaltsWith c s (exec i s) := by
  obtain ⟨v, e⟩ := exec_of_mem_storesAt hi s
  exact e ▸ .finish (storeMem_fatal he (hw v))

end Cut

/-- Where the opcode fetch is fatal, the CPU's step halts. -/
theorem halts_of_fetch_fatal {s : State} {c : Cause} (hrun : s.halted = .running) (hag : s.agenda = [])
    (h : memRead s.pc s = .fatal c s) : HaltsWith c s (step s) := by
  have hf : fetchInstr s = .fatal c s := by simp only [fetchInstr, fetchByte, h, Res.bind_fatal]
  have hs : step s = .next (s.busHalt c) := by simp only [step, takeTurn, hag, cpuStep, hrun, hf]
  exact hs ▸ .busHalt s c

/-- Where the first pointer read of an indirect jump is fatal, the jump halts (40_dispatch_addressing.md R154). -/
theorem halts_of_pointer_fatal {p : Word} {s : State} {c : Cause} (h : memRead p s = .fatal c s) :
    HaltsWith c s (exec (.jmp (.ind p)) s) := by
  have hj : jumpAddress (.ind p) s = .fatal c s := by simp only [jumpAddress, h, Res.bind_fatal]
  exact .finish (by rw [hj, Res.update_fatal])

/-- Where its second one is, it halts with the first made. -/
theorem halts_of_second_pointer_fatal {p : Word} {s u : State} {lo : Byte} {c : Cause} (h : memRead p s = .ok lo u)
    (k : memRead (indirectHigh p) u = .fatal c u) : HaltsWith c u (exec (.jmp (.ind p)) s) := by
  have hj : jumpAddress (.ind p) s = .fatal c u := by simp only [jumpAddress, h, k, Res.bind_ok, Res.bind_fatal]
  exact .finish (by rw [hj, Res.update_fatal])

end Sys2Proof.Machine
end

section
/-! PROOFS. What no step changes: program banks and parameters (statement O7). -/

namespace Sys2Proof.Machine

/-- The parameters are as in `s`, and so is every byte of a program bank (00_scope.md R9, 10_state.md R37). -/
def Bound (s t : State) : Prop :=
  t.params = s.params ∧ ∀ a : Word, 0x8000 ≤ a.toNat → t.peek a = s.peek a

theorem Bound.of_same {s t u : State} (h : Bound s t) (hp : u.params = t.params) (hm : u.mem = t.mem) : Bound s u :=
  ⟨hp.trans h.1, fun a ha => (peek_of_mem_eq hm a).trans (h.2 a ha)⟩

/-- Every elementary update of a CPU step keeps the parameters and the program banks. -/
theorem Bound.closed (s : State) : Closed (Bound s) where
  setA _ _ h := h
  setX _ _ h := h
  setY _ _ h := h
  setSp _ _ h := h
  setPc _ _ h := h
  setP _ _ _ _ h := h
  pull _ _ h := h
  halt _ _ h := h
  busHalt _ _ h := h
  read a t h := by
    cases e : memRead a t with
    | ok v u =>
      obtain ⟨hb, hm⟩ := memRead_busOnly e
      exact h.of_same (hb ▸ rfl) hm
    | fatal c u => exact memRead_fatal e ▸ h
  write a v t h := by
    cases e : memWrite a v t with
    | ok w u =>
      have hb := memWrite_busOnly e
      exact ⟨(hb ▸ rfl : u.params = t.params).trans h.1,
        fun b hb => (memWrite_peek_program e hb).trans (h.2 b hb)⟩
    | fatal c u => exact memWrite_fatal e ▸ h

/-- Every operation of the frame sequencer keeps them. -/
theorem Bound.runHost {op : HostOp} {s t u : State} (h : Bound s t) (e : runHost op t = .next u) : Bound s u := by
  cases op with
  | frameEvent => exact (Bound.closed s).frameEvent h e
  | refreshSnapshot =>
    rw [refreshSnapshot_eq e]
    exact h
  | setLine c l b =>
    obtain ⟨l0, l1, rfl⟩ := setControllerLine_eq e
    exact h
  | reset =>
    obtain ⟨pc, rfl⟩ := resetMachine_eq e
    exact h

/-- Settles O7: a CPU step is made of elementary updates, none of which writes a program bank or a parameter, and no
operation of the frame sequencer does. -/
theorem programAndParametersNeverChange : Obligations.ProgramAndParametersNeverChange := by
  intro s t e
  have h : Bound s s := ⟨rfl, fun _ _ => rfl⟩
  obtain ⟨-, e⟩ | ⟨op, rest, -, e⟩ := step_cases e
  · exact (Bound.closed s).cpuStep (s := s.setAgenda s.agenda.tail) h e
  · exact Bound.runHost (t := s.setAgenda rest) h e

end Sys2Proof.Machine
end

section
/-! PROOFS. Bus accesses, and the instructions that make them (statements O13, O42, O43 and O44). -/

namespace Sys2Proof.Machine

/-- Settles O13: an operand's read is the bus read at its effective address, which changes devices at most. -/
theorem operandRead : Obligations.OperandRead := by
  intro s v m ea he
  refine ⟨rfl, readMem_eq he, readMem_eq he, fun w u h => ?_, fun c u => memRead_fatal⟩
  obtain ⟨hb, hm⟩ := memRead_busOnly h
  exact ⟨hb.regs, .of_mem_eq hm⟩

/-- Settles O42: work RAM and save memory take the byte written, and every address of that byte reads it. -/
theorem plainMemoryAccess : Obligations.PlainMemoryAccess := by
  intro a b v s
  refine ⟨memKey_ram, memKey_upper, fun h => ?_, fun h => ?_⟩
  · obtain ⟨w, hw⟩ := peek_of_isSome (memKey_isSome h) s
    exact ⟨w, hw, memRead_of_peek hw⟩
  · obtain ⟨m, hw⟩ := memWrite_plain h v s
    have hstore := memWrite_storesOnly hw
    refine ⟨_, hw, hstore, (memWrite_busOnly hw).regs, ⟨rfl, rfl⟩, fun hk => memRead_of_peek ?_⟩
    rw [hstore b, if_pos ⟨hk, memKey_isSome (h.imp_right And.left)⟩]

/-- Settles O43: an access of the expansion region is fatal, and cuts the instruction or the fetch that makes it. -/
theorem expansionAccessHalts : Obligations.ExpansionAccessHalts := by
  intro a v s hlo hhi
  have hr := memRead_expansion (region_expansion hlo hhi)
  have hw := memWrite_expansion (region_expansion hlo hhi)
  refine ⟨hr s, hw v s, fun hrun hag hpc => halts_of_fetch_fatal hrun hag (hpc ▸ hr s), fun m he =>
    ⟨fun i => halts_of_memRead_fatal he (hr s), fun i => halts_of_memWrite_fatal he fun v => hw v s⟩,
    halts_of_pointer_fatal (hr s), fun ha => ?_⟩
  have hfirst : memRead 0x401F s = .ok s.params.miscIoRead s := rfl
  have hsecond : indirectHigh 0x401F = a := ha ▸ by decide
  exact halts_of_second_pointer_fatal hfirst (hsecond ▸ hr s)

theorem add_one_eq_ofNat (v : Byte) : v + 1 = BitVec.ofNat 8 (v.toNat + 1) := by
  bv_omega

theorem sub_one_eq_ofNat (v : Byte) : v - 1 = BitVec.ofNat 8 (v.toNat + 255) := by
  bv_omega

/-- A read-modify-write of a program bank halts with the byte it tried to write: its read changes nothing. -/
theorem modifyMem_program {m : MemMode} {s : State} {ea : Word} {v w : Byte} (he : effectiveAddress m s = .ok ea s)
    (hp : 0x8000 ≤ ea.toNat) (hv : s.peek ea = some v) {new : Byte → Byte} (hn : new v = w)
    (after : Byte → State → State) : HaltsWith (.programBankWrite ea w) s (modifyMem m new after s).finish :=
  .finish (modifyMem_fatal_write he after (memRead_of_peek hv) (hn ▸ memWrite_program hp _ s))

/-- Settles O44: a write of a program bank is fatal; a store makes it with a register's byte, a read-modify-write with
the new byte. -/
theorem programBankWriteHalts : Obligations.ProgramBankWriteHalts := by
  intro m s ea v hp
  refine ⟨fun w => memWrite_program hp w s, fun he hv => ?_⟩
  have store (w : Byte) : HaltsWith (.programBankWrite ea w) s (storeMem m w s).finish :=
    .finish (storeMem_fatal he (memWrite_program hp w s))
  simp only [List.forall_mem_cons, List.not_mem_nil, false_implies, implies_true, and_true]
  refine ⟨⟨store s.a, store s.x, store s.y, store (s.a &&& s.x)⟩, ?_, ?_, ?_, ?_, ?_, ?_⟩
  · constructor <;> exact modifyMem_program he hp hv (shiftLeft_value v) _
  · constructor <;> exact modifyMem_program he hp hv (shiftRight_value v) _
  · constructor <;> exact modifyMem_program he hp hv (rotateLeft_value v s.carry) _
  · constructor <;> exact modifyMem_program he hp hv (rotateRight_value v s.carry) _
  · constructor <;> exact modifyMem_program he hp hv (add_one_eq_ofNat v) _
  · constructor <;> exact modifyMem_program he hp hv (sub_one_eq_ofNat v) _

end Sys2Proof.Machine
end

section
/-! PROOFS. Graphics memory (statement O50). -/

namespace Sys2Proof.Machine

theorem gfxRead_palette {g : GfxAddr} (h : 0x3F00 ≤ g.toNat) (s : State) :
    gfxRead s g = (s.ppu.pal.get (paletteIndex g)).zeroExtend 8 := if_pos h

theorem gfxRead_store {g : GfxAddr} (h : ¬0x3F00 ≤ g.toNat) (s : State) :
    gfxRead s g = s.ppu.gfx.read (gfxKey s.params.gfxBank g) := if_neg h

/-- Two slots are one entry when their numbers, with 4, 8 and 12 as 0, are equal (10_state.md R48). -/
theorem palSlot_eq_iff (i j : Fin 32) :
    palSlot i = palSlot j ↔
      (if i.val = 4 ∨ i.val = 8 ∨ i.val = 12 then 0 else i.val) =
        if j.val = 4 ∨ j.val = 8 ∨ j.val = 12 then 0 else j.val := by
  revert i j; decide

/-- Two addresses below the palette name one byte when their windows show one store and their offsets are equal
(10_state.md R47). -/
theorem gfxKey_eq_iff (bank : Vector Nat 16) (g h : GfxAddr) :
    gfxKey bank g = gfxKey bank h ↔
      bank.get (Fin.ofNat 16 (g.toNat / 1024)) = bank.get (Fin.ofNat 16 (h.toNat / 1024)) ∧
        g.toNat % 1024 = h.toNat % 1024 := by
  unfold gfxKey
  omega

/-- A palette entry keeps the low six bits (20_memory.md R87). -/
theorem zeroExtend_truncate_six (v : Byte) : (v.truncate 6).zeroExtend 8 = v &&& 0x3F := by
  revert v; decide

/-- A palette address after a write of one: the entry written shows the low six bits. -/
theorem gfxRead_gfxWrite_palette {g h : GfxAddr} (hg : 0x3F00 ≤ g.toNat) (hh : 0x3F00 ≤ h.toNat) (s : State)
    (v : Byte) :
    gfxRead (s.setPpu (gfxWrite s g v)) h = if paletteIndex g = paletteIndex h then v &&& 0x3F else gfxRead s h := by
  rw [gfxWrite_palette hg, gfxRead_palette hh, gfxRead_palette hh, State.setPpu_ppu]
  simp only [Vector.get_eq_getElem, Vector.getElem_set, Fin.val_inj]
  split
  · exact zeroExtend_truncate_six v
  · rfl

/-- A store's address after a write of one: the byte written shows at every address that names it. -/
theorem gfxRead_gfxWrite_store {g h : GfxAddr} (hg : ¬0x3F00 ≤ g.toNat) (hh : ¬0x3F00 ≤ h.toNat) (s : State)
    (v : Byte) :
    gfxRead (s.setPpu (gfxWrite s g v)) h =
      if gfxKey s.params.gfxBank h = gfxKey s.params.gfxBank g then v else gfxRead s h := by
  rw [gfxWrite_store hg, gfxRead_store hh, gfxRead_store hh, State.setPpu_ppu, State.setPpu_params, Memory.read_write]

/-- Settles O50: by whether each of the two addresses lies in the palette or in a store. -/
theorem graphicsReadAfterWrite : Obligations.GraphicsReadAfterWrite := by
  intro s g h v slot window
  by_cases hg : 0x3F00 ≤ g.toNat <;> by_cases hh : 0x3F00 ≤ h.toNat
  · have hslot : paletteIndex g = paletteIndex h ↔ slot (g.toNat % 32) = slot (h.toNat % 32) := palSlot_eq_iff _ _
    rw [gfxRead_gfxWrite_palette hg hh]
    simp only [hslot, hg, hh, true_and, not_lt.2 hg, false_and, if_false]
  · rw [gfxWrite_palette hg, gfxRead_store hh, gfxRead_store hh, if_neg fun k => hh k.2.1,
      if_neg fun k => k.1.not_ge hg]
    rfl
  · rw [gfxWrite_store hg, gfxRead_palette hh, gfxRead_palette hh, if_neg fun k => hg k.1,
      if_neg fun k => k.2.1.not_ge hh]
    rfl
  · have hkey : gfxKey s.params.gfxBank h = gfxKey s.params.gfxBank g ↔
        window g = window h ∧ g.toNat % 1024 = h.toNat % 1024 := eq_comm.trans (gfxKey_eq_iff _ g h)
    rw [gfxRead_gfxWrite_store hg hh]
    simp only [hkey, hg, not_le.1 hg, not_le.1 hh, true_and, false_and, if_false]

end Sys2Proof.Machine
end

section
/-! SUPPORT. The opcode table read forwards and backwards (30_encoding.md R110 to R117): what the decoder does with an
opcode byte and its operand bytes, and the instructions an opcode byte stands for, which differ in their operand alone. -/

namespace Sys2Proof

/-- The decoder reads the front of a byte list and leaves the rest as it is (30_encoding.md R110). -/
theorem decode_append {front : List Byte} {i : Instr} (h : decode front = .ok (i, [])) (rest : List Byte) :
    decode (front ++ rest) = .ok (i, rest) := by
  unfold decode at h
  split at h
  · cases h
  · rename_i op ops
    split at h <;> cases h <;> simp [decode, *]

/-- What the decoder reads are an opcode byte and its operand bytes, at the front of the list (30_encoding.md R111). -/
theorem exists_front_of_decode {bytes rest : List Byte} {i : Instr} (h : decode bytes = .ok (i, rest)) :
    ∃ op ops, bytes = op :: ops ++ rest ∧ decode (op :: ops) = .ok (i, []) := by
  unfold decode at h
  split at h
  · cases h
  · rename_i op ops
    split at h <;> cases h
    · exact ⟨op, [], rfl, by simp [decode, *]⟩
    · exact ⟨op, [_], rfl, by simp [decode, *]⟩
    · exact ⟨op, [_, _], rfl, by simp [decode, *]⟩

/-- `op` is the opcode byte of `i`: encoder and table agree on `i` and on every instruction that differs from it in its
operand alone. One constructor for each number of operand bytes (30_encoding.md R111). -/
inductive OpcodeOf (op : Byte) : Instr → Prop
  | implied {i : Instr} (henc : encode i = some [op]) (hsize : i.operandSize = 0) (hentry : tableEntry op 0 0 = i) :
      OpcodeOf op i
  | byte (f : Byte → Instr) (v : Byte) (henc : ∀ v, encode (f v) = some [op, v]) (hsize : ∀ v, (f v).operandSize = 1)
      (hentry : ∀ lo, tableEntry op lo 0 = f lo) : OpcodeOf op (f v)
  | word (f : Word → Instr) (a : Word) (henc : ∀ a, encode (f a) = some [op, loByte a, hiByte a])
      (hsize : ∀ a, (f a).operandSize = 2) (hentry : ∀ lo hi, tableEntry op lo hi = f (hiLo hi lo)) : OpcodeOf op (f a)

namespace OpcodeOf

variable {op : Byte} {i : Instr}

/-- The encoding has the instruction's length and decodes to the instruction. -/
theorem decode_encode (h : OpcodeOf op i) :
    ∃ bytes, encode i = some bytes ∧ bytes.length = i.length ∧ decode bytes = .ok (i, []) := by
  cases h with
  | implied henc hsize hentry =>
    have hcount : operandCount op = 0 := (congrArg Instr.operandSize hentry).trans hsize
    exact ⟨_, henc, by rw [Instr.length, hsize]; rfl, by simp only [decode, hcount, hentry]⟩
  | byte f v henc hsize hentry =>
    have hcount : operandCount op = 1 := (congrArg Instr.operandSize (hentry 0)).trans (hsize 0)
    exact ⟨_, henc v, by rw [Instr.length, hsize]; rfl, by simp only [decode, hcount, hentry]⟩
  | word f a henc hsize hentry =>
    have hcount : operandCount op = 2 := (congrArg Instr.operandSize (hentry 0 0)).trans (hsize _)
    exact ⟨_, henc a, by rw [Instr.length, hsize]; rfl,
      by simp only [decode, hcount, hentry, Machine.hiLo_hiByte_loByte]⟩

/-- What decodes from an opcode byte of the table is encoded as the bytes it was decoded from. -/
theorem encode_decode (h : OpcodeOf op i) {ops : List Byte} {j : Instr} (hj : decode (op :: ops) = .ok (j, [])) :
    encode j = some (op :: ops) := by
  cases h with
  | implied henc hsize hentry =>
    have hcount : operandCount op = 0 := (congrArg Instr.operandSize hentry).trans hsize
    simp only [decode, hcount, hentry] at hj
    cases hj
    exact henc
  | byte f v henc hsize hentry =>
    have hcount : operandCount op = 1 := (congrArg Instr.operandSize (hentry 0)).trans (hsize 0)
    match ops with
    | [] => simp [decode, hcount] at hj
    | lo :: rest =>
      simp only [decode, hcount, hentry] at hj
      cases hj
      exact henc lo
  | word f a henc hsize hentry =>
    have hcount : operandCount op = 2 := (congrArg Instr.operandSize (hentry 0 0)).trans (hsize _)
    match ops with
    | [] | [_] => simp [decode, hcount] at hj
    | lo :: hi :: rest =>
      simp only [decode, hcount, hentry] at hj
      cases hj
      rw [henc, Machine.loByte_hiLo, Machine.hiByte_hiLo]

end OpcodeOf

/-- A memory mode with other operand bytes. -/
def MemMode.withBytes (lo hi : Byte) : MemMode → MemMode
  | .zp _ => .zp lo
  | .zpx _ => .zpx lo
  | .zpy _ => .zpy lo
  | .abs _ => .abs (hiLo hi lo)
  | .abx _ => .abx (hiLo hi lo)
  | .aby _ => .aby (hiLo hi lo)
  | .izx _ => .izx lo
  | .izy _ => .izy lo

/-- The operand of an undocumented NOP with other operand bytes. -/
def NopOperand.withBytes (lo hi : Byte) : NopOperand → NopOperand
  | .imp => .imp
  | .imm _ => .imm lo
  | .mem m => .mem (m.withBytes lo hi)

/-- The table has every opcode byte of an undocumented NOP (46_undocumented.md R288). -/
theorem tableEntry_nop {op : Byte} {o : NopOperand} (h : op ∈ nopBytes o) (lo hi : Byte) :
    tableEntry op lo hi = .nopU op (o.withBytes lo hi) := by
  cases o with
  | imp | imm v => fin_cases h <;> rfl
  | mem m => cases m <;> fin_cases h <;> rfl

/-- A halting byte is absent from the table (30_encoding.md R116). -/
theorem tableEntry_halting : ∀ op ∈ haltingBytes, tableEntry op 0 0 = .hlt op := by decide

namespace OpcodeOf

section
variable {op : Byte} {bytes : List Byte} {c : MemCodes}

/-- An instruction with a memory mode: encoder and table are compared at every operand of that one mode. -/
theorem of_memMode {f : MemMode → Instr} {m : MemMode} (hsize : ∀ m, (f m).operandSize = m.size)
    (henc : ∀ lo hi, encode (f (m.withBytes lo hi)) = some (op :: (m.withBytes lo hi).bytes))
    (hentry : ∀ lo hi, tableEntry op lo hi = f (m.withBytes lo hi)) : OpcodeOf op (f m) := by
  have henc' (a : Word) : encode (f (m.withBytes (loByte a) (hiByte a))) = _ := henc (loByte a) (hiByte a)
  cases m with
  | zp n => exact .byte (f <| .zp ·) n (henc · 0) (fun _ => hsize _) (hentry · 0)
  | zpx n => exact .byte (f <| .zpx ·) n (henc · 0) (fun _ => hsize _) (hentry · 0)
  | zpy n => exact .byte (f <| .zpy ·) n (henc · 0) (fun _ => hsize _) (hentry · 0)
  | izx n => exact .byte (f <| .izx ·) n (henc · 0) (fun _ => hsize _) (hentry · 0)
  | izy n => exact .byte (f <| .izy ·) n (henc · 0) (fun _ => hsize _) (hentry · 0)
  | abs a =>
    exact .word (f <| .abs ·) a (by simpa [MemMode.withBytes, MemMode.bytes] using henc') (fun _ => hsize _) hentry
  | abx a =>
    exact .word (f <| .abx ·) a (by simpa [MemMode.withBytes, MemMode.bytes] using henc') (fun _ => hsize _) hentry
  | aby a =>
    exact .word (f <| .aby ·) a (by simpa [MemMode.withBytes, MemMode.bytes] using henc') (fun _ => hsize _) hentry

/-- An instruction of a row of 30_encoding.md R115, where the table has the row's opcode bytes (`hrow`). -/
theorem of_memBytes {f : MemMode → Instr} {m : MemMode} (h : memBytes c m = some bytes)
    (hsize : ∀ m, (f m).operandSize = m.size) (henc : ∀ m, encode (f m) = memBytes c m)
    (hrow : ∀ m op, c.code m = some op → ∀ lo hi, tableEntry op lo hi = f (m.withBytes lo hi)) :
    OpcodeOf (bytes.headD 0) (f m) := by
  obtain ⟨op, hcode, rfl⟩ := Option.map_eq_some_iff.1 h
  refine .of_memMode hsize (fun lo hi => ?_) (hrow m op hcode)
  have hsame : c.code (m.withBytes lo hi) = c.code m := by cases m <;> rfl
  rw [henc, memBytes, hsame, hcode]
  rfl

/-- An instruction with a read operand: a row, and the opcode byte of the immediate form. -/
theorem of_sourceBytes {f : Source → Instr} {o : Source} {imm : Byte} (h : sourceBytes imm c o = some bytes)
    (hsize : ∀ o, (f o).operandSize = o.size) (henc : ∀ o, encode (f o) = sourceBytes imm c o)
    (himm : ∀ lo, tableEntry imm lo 0 = f (.imm lo))
    (hrow : ∀ m op, c.code m = some op → ∀ lo hi, tableEntry op lo hi = f (.mem (m.withBytes lo hi))) :
    OpcodeOf (bytes.headD 0) (f o) := by
  cases o with
  | imm v =>
    cases h
    exact .byte (f <| .imm ·) v (fun _ => henc _) (fun _ => hsize _) himm
  | mem m => exact .of_memBytes (f := (f <| .mem ·)) h (fun _ => hsize _) (fun _ => henc _) hrow

/-- A shift or rotate: a row, and the opcode byte of the accumulator form. -/
theorem of_shiftBytes {f : ShiftTarget → Instr} {t : ShiftTarget} {acc : Byte}
    (h : shiftBytes acc c t = some bytes) (hsize : ∀ t, (f t).operandSize = t.size)
    (henc : ∀ t, encode (f t) = shiftBytes acc c t) (hacc : tableEntry acc 0 0 = f .acc)
    (hrow : ∀ m op, c.code m = some op → ∀ lo hi, tableEntry op lo hi = f (.mem (m.withBytes lo hi))) :
    OpcodeOf (bytes.headD 0) (f t) := by
  cases t with
  | acc =>
    cases h
    exact .implied (henc _) (hsize _) hacc
  | mem m => exact .of_memBytes (f := (f <| .mem ·)) h (fun _ => hsize _) (fun _ => henc _) hrow

end

/-- An undocumented NOP's opcode byte is the one it carries, where its operand form admits it (46_undocumented.md R288). -/
theorem of_nopBytes {op : Byte} {o : NopOperand} (h : op ∈ nopBytes o) : OpcodeOf op (.nopU op o) := by
  have henc {o' : NopOperand} (h : op ∈ nopBytes o') : encode (.nopU op o') = some (op :: nopOperandBytes o') :=
    if_pos (List.elem_iff.2 h)
  cases o with
  | imp => exact .implied (henc h) rfl (tableEntry_nop h 0 0)
  | imm v => exact .byte (.nopU op <| .imm ·) v (fun _ => henc h) (fun _ => rfl) (tableEntry_nop h · 0)
  | mem m =>
    have hsame (lo hi : Byte) : nopBytes (.mem (m.withBytes lo hi)) = nopBytes (.mem m) := by cases m <;> rfl
    exact .of_memMode (f := (.nopU op <| .mem ·)) (fun _ => rfl) (fun lo hi => henc (hsame lo hi ▸ h)) (tableEntry_nop h)

/-- The first byte of an encoding is the instruction's opcode byte. -/
theorem of_encode {i : Instr} {bytes : List Byte} (h : encode i = some bytes) : OpcodeOf (bytes.headD 0) i := by
  cases i with
  | adc o | sbc o | and o | ora o | eor o | cmp o | cpx o | cpy o | lda o | ldx o | ldy o =>
    refine .of_sourceBytes h (fun _ => rfl) (fun _ => rfl) (fun _ => rfl) fun m op hc => ?_
    cases m <;> cases hc <;> exact fun _ _ => rfl
  | asl t | lsr t | rol t | ror t =>
    refine .of_shiftBytes h (fun _ => rfl) (fun _ => rfl) rfl fun m op hc => ?_
    cases m <;> cases hc <;> exact fun _ _ => rfl
  | bit m | inc m | dec m | sta m | stx m | sty m | slo m | rla m | sre m | rra m | sax m | lax m | dcp m | isb m =>
    refine .of_memBytes h (fun _ => rfl) (fun _ => rfl) fun m op hc => ?_
    cases m <;> cases hc <;> exact fun _ _ => rfl
  | bpl v | bmi v | bvc v | bvs v | bcc v | bcs v | bne v | beq v | sbcU v =>
    cases h
    exact .byte _ v (fun _ => rfl) (fun _ => rfl) (fun _ => rfl)
  | jsr a =>
    cases h
    exact .word .jsr a (fun _ => rfl) (fun _ => rfl) (fun _ _ => rfl)
  | jmp t =>
    cases t with
    | abs a =>
      cases h
      exact .word (.jmp <| .abs ·) a (fun _ => rfl) (fun _ => rfl) (fun _ _ => rfl)
    | ind p =>
      cases h
      exact .word (.jmp <| .ind ·) p (fun _ => rfl) (fun _ => rfl) (fun _ _ => rfl)
  | nopU b o =>
    obtain ⟨hb, he⟩ := Option.ite_none_right_eq_some.1 h
    cases he
    exact .of_nopBytes (List.elem_iff.1 hb)
  | hlt b =>
    obtain ⟨hb, he⟩ := Option.ite_none_right_eq_some.1 h
    cases he
    exact .implied h rfl (tableEntry_halting _ (List.elem_iff.1 hb))
  | _ =>
    cases h
    exact .implied rfl rfl rfl

/-- Every opcode byte has an entry (30_encoding.md R117), and is the opcode byte of that entry: one operand, 0, settles
it for all. -/
theorem of_tableEntry (op : Byte) : OpcodeOf op (tableEntry op 0 0) := by
  have hhead : ∀ op, (encode (tableEntry op 0 0)).map (·.headD 0) = some op := by decide
  obtain ⟨bytes, henc, hop⟩ := Option.map_eq_some_iff.1 (hhead op)
  simpa only [hop] using of_encode henc

end OpcodeOf

/-- The well-formed instructions are those that have an encoding (30_encoding.md R115, R116). -/
theorem encode_isSome (i : Instr) : (encode i).isSome = i.wellFormed := by
  cases i with
  | adc o | sbc o | and o | ora o | eor o | cmp o | cpx o | cpy o | lda o | ldx o | ldy o =>
    cases o with
    | imm v => rfl
    | mem m => cases m <;> rfl
  | asl t | lsr t | rol t | ror t =>
    cases t with
    | acc => rfl
    | mem m => cases m <;> rfl
  | bit m | inc m | dec m | sta m | stx m | sty m | slo m | rla m | sre m | rra m | sax m | lax m | dcp m | isb m =>
    cases m <;> rfl
  | jmp t => cases t <;> rfl
  | nopU op o =>
    simp only [encode, Instr.wellFormed]
    cases (nopBytes o).contains op <;> rfl
  | hlt op =>
    simp only [encode, Instr.wellFormed]
    cases haltingBytes.contains op <;> rfl
  | _ => rfl

end Sys2Proof
end

section
/-! PROOFS. The encoding (statements O1, O2 and O3). -/

namespace Sys2Proof

/-- Settles O1: the encoding's first byte is the opcode byte of the instruction, and its entry decodes to it. -/
theorem decodeOfEncode : Obligations.DecodeOfEncode := by
  intro i rest hwf
  obtain ⟨_, hi⟩ := Option.isSome_iff_exists.1 ((encode_isSome i).trans hwf)
  obtain ⟨bytes, henc, hlength, hdec⟩ := (OpcodeOf.of_encode hi).decode_encode
  exact ⟨bytes, henc, hlength, decode_append hdec rest⟩

/-- Settles O2: the first byte is the opcode byte of its entry, whatever the operand bytes are. -/
theorem encodeOfDecode : Obligations.EncodeOfDecode := by
  intro bytes rest i hdec
  obtain ⟨op, ops, hbytes, hfront⟩ := exists_front_of_decode hdec
  have henc : encode i = some (op :: ops) := (OpcodeOf.of_tableEntry op).encode_decode hfront
  have hwf : i.wellFormed = true := by rw [← encode_isSome, henc]; rfl
  exact ⟨hwf, _, henc, hbytes⟩

/-- Settles O3: each byte list is one entry of the table. -/
theorem decodingIsRight : Obligations.DecodingIsRight := by
  unfold Obligations.DecodingIsRight
  decide

end Sys2Proof
end

section
/-! PROOFS. Effective addresses (statement O12). -/

namespace Sys2Proof.Machine

/-- An index added within page 0 (40_dispatch_addressing.md R149, R150). -/
theorem zext16_add_eq_ofNat (n x : Byte) : zext16 (n + x) = BitVec.ofNat 16 ((n.toNat + x.toNat) % 256) := by
  rw [zext16_eq_ofNat, BitVec.toNat_add]

/-- An index added modulo 65536 (40_dispatch_addressing.md R152, R153, R156). -/
theorem ofNat_add_zext16 (base : Nat) (x : Byte) :
    BitVec.ofNat 16 base + zext16 x = BitVec.ofNat 16 (base + x.toNat) := by
  rw [zext16_eq_ofNat, BitVec.ofNat_add]

/-- A pointer kept in page 0, as the word of its two bytes (40_dispatch_addressing.md R155). -/
theorem zeroPagePointer_eq (z : Byte) (s : State) :
    zeroPagePointer z s = .ok (BitVec.ofNat 16 ((s.mem.read z.toNat).toNat +
      256 * (s.mem.read ((z.toNat + 1) % 256)).toNat)) s := by
  have hnext : (z + 1).toNat = (z.toNat + 1) % 256 := BitVec.toNat_add z 1
  simp only [zeroPagePointer, memRead_zeroPage, Res.bind_ok, hnext, hiLo_eq_ofNat]

/-- Settles O12: the sums are sums of bit vectors as wide as the page or the bus, and both pointer forms read their base
from page 0. -/
theorem effectiveAddresses : Obligations.EffectiveAddresses := by
  intro s n a zero
  have hsum : (n + s.x).toNat = (n.toNat + s.x.toNat) % 256 := BitVec.toNat_add n s.x
  have hn : n.toNat % 256 = n.toNat := Nat.mod_eq_of_lt n.isLt
  refine ⟨?zp, ?zpx, ?zpy, rfl, ?abx, ?aby, ?izx, ?izy⟩
  case zp => rw [← zext16_eq_ofNat]; rfl
  case zpx => rw [← zext16_add_eq_ofNat]; rfl
  case zpy => rw [← zext16_add_eq_ofNat]; rfl
  case abx => rw [← ofNat_add_zext16, BitVec.ofNat_toNat, BitVec.setWidth_eq]; rfl
  case aby => rw [← ofNat_add_zext16, BitVec.ofNat_toNat, BitVec.setWidth_eq]; rfl
  case izx => simp only [effectiveAddress, zeroPagePointer_eq, hsum, Nat.mod_add_mod, zero]
  case izy => simp only [effectiveAddress, zeroPagePointer_eq, Res.bind_ok, ofNat_add_zext16, zero, hn]

end Sys2Proof.Machine
end

section
/-! SUPPORT. The CPU's fetch, by the number of operand bytes of its opcode byte (40_dispatch_addressing.md R141 to
R143). -/

namespace Sys2Proof

/-- What decodes without a rest is the instruction's encoding. -/
theorem encode_of_decode {bytes : List Byte} {i : Instr} (h : decode bytes = .ok (i, [])) : encode i = some bytes := by
  obtain ⟨-, front, henc, rfl⟩ := encodeOfDecode bytes [] i h
  rw [henc, List.append_nil]

/-- The three lengths of an instruction (30_encoding.md R112). -/
theorem decode_cases {bytes : List Byte} {i : Instr} (h : decode bytes = .ok (i, [])) :
    (∃ op, bytes = [op] ∧ operandCount op = 0 ∧ i = tableEntry op 0 0) ∨
    (∃ op lo, bytes = [op, lo] ∧ operandCount op = 1 ∧ i = tableEntry op lo 0) ∨
    ∃ op lo hi, bytes = [op, lo, hi] ∧ operandCount op = 2 ∧ i = tableEntry op lo hi := by
  unfold decode at h
  split at h
  · cases h
  · split at h <;> cases h
    · exact .inl ⟨_, rfl, ‹_›, rfl⟩
    · exact .inr (.inl ⟨_, _, rfl, ‹_›, rfl⟩)
    · exact .inr (.inr ⟨_, _, _, rfl, ‹_›, rfl⟩)

/-- No opcode byte has more than two operand bytes (30_encoding.md R112). -/
theorem operandCount_le_two (op : Byte) : operandCount op ≤ 2 := by
  revert op; decide

/-- The byte lists that end before their instruction does. -/
theorem decode_error_cases {front : List Byte} {r : DecodeReject} (h : decode front = .error r) :
    front = [] ∨ (∃ op, front = [op] ∧ operandCount op ≠ 0) ∨ ∃ op lo, front = [op, lo] ∧ operandCount op = 2 := by
  match front with
  | [] => exact .inl rfl
  | op :: ops =>
    have hle := operandCount_le_two op
    refine .inr ?_
    match hc : operandCount op, ops with
    | 0, _ => simp [decode, hc] at h
    | n + 1, [] => exact .inl ⟨op, rfl, by omega⟩
    | 1, lo :: rest => simp [decode, hc] at h
    | 2, [lo] => exact .inr ⟨op, lo, rfl, hc⟩
    | 2, lo :: hi :: rest => simp [decode, hc] at h
    | n + 3, _ => omega

/-- An undocumented NOP with an immediate byte is two bytes long, and the table's entry whatever its operand is. -/
theorem nopImm_of_decode {bytes : List Byte} {op v : Byte} (h : decode bytes = .ok (.nopU op (.imm v), [])) :
    bytes = [op, v] ∧ ∀ lo hi, tableEntry op lo hi = .nopU op (.imm lo) := by
  obtain ⟨hmem, henc⟩ := Option.ite_none_right_eq_some.1 (encode_of_decode h)
  cases henc
  exact ⟨rfl, tableEntry_nop (List.elem_iff.1 hmem)⟩

/-- Such a NOP in the table is the decoding of its opcode byte and any other. -/
theorem decode_nopImm {op b v : Byte} (h : tableEntry op 0 0 = .nopU b (.imm v)) (lo : Byte) :
    decode [op, lo] = .ok (.nopU op (.imm lo), []) := by
  have hcount : operandCount op = 1 := congrArg Instr.operandSize h
  have hdec : decode [op, 0] = .ok (.nopU b (.imm v), []) := by simp only [decode, hcount, h]
  obtain ⟨he, hentry⟩ := nopImm_of_decode hdec
  cases he
  simp only [decode, hcount, hentry]

end Sys2Proof

namespace Sys2Proof.Machine

/-- Bytes of memory are read through the bus with no side effect (20_memory.md R79). -/
theorem fetches_of_peek {bytes : List Byte} {a : Word} {s : State}
    (h : ∀ k b, bytes[k]? = some b → s.peek (a + BitVec.ofNat 16 k) = some b) : Fetches a bytes s s := by
  induction bytes generalizing a with
  | nil => rfl
  | cons b rest ih =>
    refine ⟨s, memRead_of_peek (by simpa using h 0 b rfl), ih fun k c hk => ?_⟩
    have hnext : a + 1 + BitVec.ofNat 16 k = a + BitVec.ofNat 16 (k + 1) := by
      rw [Nat.add_comm k, BitVec.ofNat_add, ← BitVec.add_assoc]
      rfl
    exact hnext ▸ h (k + 1) c hk

section Opcode

variable {op : Byte}

theorem fetchOperands_zero (h : operandCount op = 0) (s : State) :
    fetchOperands op s = .ok (tableEntry op 0 0) s := by
  unfold fetchOperands
  split
  · next e => cases (congrArg Instr.operandSize e).symm.trans h
  · simp only [show (tableEntry op 0 0).operandSize = 0 from h]

/-- The immediate byte of an undocumented NOP is skipped (40_dispatch_addressing.md R147). -/
theorem fetchOperands_nopImm {b v : Byte} (h : tableEntry op 0 0 = .nopU b (.imm v)) (s : State) :
    fetchOperands op s = .ok (tableEntry op 0 0) (s.setPc (s.pc + 1)) := by
  simp only [fetchOperands, h]

theorem fetchOperands_one (h : operandCount op = 1) (hnop : ∀ b v, tableEntry op 0 0 ≠ .nopU b (.imm v)) (s : State) :
    fetchOperands op s = (fetchByte s).bind fun lo s => .ok (tableEntry op lo 0) s := by
  unfold fetchOperands
  split
  · next e => exact absurd e (hnop _ _)
  · simp only [show (tableEntry op 0 0).operandSize = 1 from h]

theorem fetchOperands_two (h : operandCount op = 2) (s : State) :
    fetchOperands op s =
      (fetchByte s).bind fun lo s => (fetchByte s).bind fun hi s => .ok (tableEntry op lo hi) s := by
  unfold fetchOperands
  split
  · next e => cases (congrArg Instr.operandSize e).symm.trans h
  · simp only [show (tableEntry op 0 0).operandSize = 2 from h]

/-- After an opcode byte that is not halting, the operand bytes are fetched in the state its read leaves. -/
theorem fetchInstr_of_read {s t : State} (h : memRead s.pc s = .ok op t) (hh : ∀ b, tableEntry op 0 0 ≠ .hlt b) :
    fetchInstr s = fetchOperands op (t.setPc (s.pc + 1)) := by
  have hf : fetchByte s = .ok op (t.setPc (s.pc + 1)) := fetchByte_ok h
  rw [fetchInstr, hf, Res.bind_ok]
  split
  · next e => exact absurd e (hh _)
  · rfl

/-- A halting byte has no operand bytes (40_dispatch_addressing.md R142). -/
theorem tableEntry_ne_hlt (h : operandCount op ≠ 0) (b : Byte) : tableEntry op 0 0 ≠ .hlt b :=
  fun e => h (congrArg Instr.operandSize e)

/-- The fetch of such a NOP reads its opcode byte alone and moves PC past both (40_dispatch_addressing.md R147). -/
theorem fetchInstr_nopImm {s t : State} {b v : Byte} (h : memRead s.pc s = .ok op t)
    (e : tableEntry op 0 0 = .nopU b (.imm v)) : fetchInstr s = .ok (.nopU b (.imm v)) (t.setPc (s.pc + 2)) := by
  have hh : ∀ b, tableEntry op 0 0 ≠ .hlt b := fun b k => Instr.noConfusion (e.symm.trans k)
  rw [fetchInstr_of_read h hh, fetchOperands_nopImm e, e, State.setPc_pc, BitVec.add_assoc]
  rfl

end Opcode

/-- Bus reads that give the bytes of one instruction are its fetch (40_dispatch_addressing.md R141, R143). -/
theorem fetchInstr_of_fetches {s t : State} {bytes : List Byte} {i : Instr} (hdec : decode bytes = .ok (i, []))
    (hhlt : ∀ op, i ≠ .hlt op) (hnop : ∀ op v, i ≠ .nopU op (.imm v)) (hf : Fetches s.pc bytes s t) :
    fetchInstr s = .ok i (t.setPc (s.pc + BitVec.ofNat 16 bytes.length)) := by
  obtain ⟨op, rfl, hc, rfl⟩ | ⟨op, lo, rfl, hc, rfl⟩ | ⟨op, lo, hi, rfl, hc, rfl⟩ := decode_cases hdec
  · obtain ⟨u, hop, rfl⟩ := hf
    rw [fetchInstr_of_read hop hhlt, fetchOperands_zero hc]
    rfl
  · obtain ⟨u, hop, w, hlo, rfl⟩ := hf
    have hentry : ∀ b v, tableEntry op 0 0 ≠ .nopU b (.imm v) := fun b v e =>
      hnop op lo ((nopImm_of_decode (decode_nopImm e lo)).2 lo 0)
    rw [fetchInstr_of_read hop (tableEntry_ne_hlt (by omega)), fetchOperands_one hc hentry, fetchByte_ok hlo,
      Res.bind_ok, BitVec.add_assoc]
    rfl
  · obtain ⟨u, hop, w, hlo, x, hhi, rfl⟩ := hf
    rw [fetchInstr_of_read hop (tableEntry_ne_hlt (by omega)), fetchOperands_two hc, fetchByte_ok hlo,
      Res.bind_ok, fetchByte_ok hhi, Res.bind_ok, BitVec.add_assoc, BitVec.add_assoc]
    rfl

/-- A fatal read among those of an instruction's bytes cuts the fetch, the reads before it keeping their effect. -/
theorem fetchInstr_fatal {s t u : State} {front : List Byte} {r : DecodeReject} {c : Cause}
    (hf : Fetches s.pc front s t) (hdec : decode front = .error r)
    (hnop : ∀ b op v, decode (front ++ [b]) ≠ .ok (.nopU op (.imm v), []))
    (hr : memRead (s.pc + BitVec.ofNat 16 front.length) t = .fatal c u) :
    ∃ p, fetchInstr s = .fatal c (t.setPc p) := by
  cases memRead_fatal hr
  obtain rfl | ⟨op, rfl, hc⟩ | ⟨op, lo, rfl, hc⟩ := decode_error_cases hdec
  · cases hf
    have hop : fetchByte s = .fatal c s := fetchByte_fatal (by simpa using hr)
    exact ⟨s.pc, by rw [fetchInstr, hop]; rfl⟩
  · obtain ⟨u, hop, rfl⟩ := hf
    have hlo : fetchByte (t.setPc (s.pc + 1)) = .fatal c (t.setPc (s.pc + 1)) := fetchByte_fatal hr
    have hle := operandCount_le_two op
    refine ⟨s.pc + 1, ?_⟩
    rw [fetchInstr_of_read hop (tableEntry_ne_hlt hc)]
    obtain hc | hc : operandCount op = 1 ∨ operandCount op = 2 := by omega
    · have hentry : ∀ b v, tableEntry op 0 0 ≠ .nopU b (.imm v) := fun b v e => hnop 0 op 0 (decode_nopImm e 0)
      rw [fetchOperands_one hc hentry, hlo, Res.bind_fatal]
    · rw [fetchOperands_two hc, hlo, Res.bind_fatal]
  · obtain ⟨u, hop, w, hlo, rfl⟩ := hf
    have hhi : fetchByte (t.setPc (s.pc + 1 + 1)) = .fatal c (t.setPc (s.pc + 1 + 1)) :=
      fetchByte_fatal (by rw [BitVec.add_assoc]; exact hr)
    refine ⟨s.pc + 1 + 1, ?_⟩
    rw [fetchInstr_of_read hop (tableEntry_ne_hlt (by omega)), fetchOperands_two hc, fetchByte_ok hlo, Res.bind_ok,
      hhi, Res.bind_fatal]

/-- A running machine with no turn set fetches and executes (40_dispatch_addressing.md R140). -/
theorem step_of_fetchInstr {s t : State} {i : Instr} (hrun : s.halted = .running) (hag : s.agenda = [])
    (h : fetchInstr s = .ok i t) : step s = exec i t := by
  simp only [step, takeTurn, hag, cpuStep, hrun, h]

/-- A fatal fetch halts it (60_exceptions.md R380). -/
theorem halts_of_fetchInstr {s t : State} {c : Cause} (hrun : s.halted = .running) (hag : s.agenda = [])
    (h : fetchInstr s = .fatal c t) : HaltsWith c t (step s) := by
  have hs : step s = .next (t.busHalt c) := by simp only [step, takeTurn, hag, cpuStep, hrun, h]
  exact hs ▸ .busHalt t c

end Sys2Proof.Machine
end

section
/-! PROOFS. The step runs the instruction at PC (statement O4). -/

namespace Sys2Proof.Machine

/-- An undocumented NOP with an immediate byte moves PC past both bytes, one of them read (46_undocumented.md R288). -/
theorem step_of_nopImm {s t : State} {bytes : List Byte} {op v : Byte} (hrun : s.halted = .running)
    (hag : s.agenda = []) (hdec : decode bytes = .ok (.nopU op (.imm v), [])) (hr : memRead s.pc s = .ok op t) :
    step s = .next (t.setPc (s.pc + 2)) :=
  step_of_fetchInstr hrun hag (fetchInstr_nopImm hr ((nopImm_of_decode hdec).2 0 0))

/-- The step of an instruction whose bytes are memory, of which no read has a side effect. -/
theorem step_of_peek {s : State} {bytes : List Byte} {i : Instr} (hrun : s.halted = .running) (hag : s.agenda = [])
    (hdec : decode bytes = .ok (i, []))
    (hmem : ∀ k b, bytes[k]? = some b → s.peek (s.pc + BitVec.ofNat 16 k) = some b) :
    step s = exec i (s.setPc (s.pc + BitVec.ofNat 16 bytes.length)) := by
  have hfirst {op : Byte} (h : bytes[0]? = some op) : memRead s.pc s = .ok op s :=
    memRead_of_peek (by simpa using hmem 0 op h)
  by_cases hhlt : ∃ op, i = .hlt op
  · obtain ⟨op, rfl⟩ := hhlt
    obtain ⟨hop, henc⟩ := Option.ite_none_right_eq_some.1 (encode_of_decode hdec)
    cases henc
    exact step_of_fetchInstr hrun hag
      (fetchInstr_halting (hfirst rfl) (tableEntry_halting op (List.elem_iff.1 hop)))
  by_cases hnop : ∃ op v, i = .nopU op (.imm v)
  · obtain ⟨op, v, rfl⟩ := hnop
    obtain ⟨rfl, -⟩ := nopImm_of_decode hdec
    exact step_of_nopImm hrun hag hdec (hfirst rfl)
  exact step_of_fetchInstr hrun hag (fetchInstr_of_fetches hdec (fun op e => hhlt ⟨op, e⟩)
    (fun op v e => hnop ⟨op, v, e⟩) (fetches_of_peek hmem))

/-- Settles O4: bytes of memory, bytes read from anywhere, a skipped immediate byte, and a fetch that is cut. -/
theorem stepRunsDecodedInstruction : Obligations.StepRunsDecodedInstruction := by
  intro s hrun hag
  refine ⟨fun bytes i => step_of_peek hrun hag, fun bytes i t hdec hhlt hnop hf => ?_,
    fun op b v t => step_of_nopImm hrun hag, fun front t u c hf ⟨r, hdec⟩ hnop hr => ?_⟩
  · exact step_of_fetchInstr hrun hag (fetchInstr_of_fetches hdec hhlt hnop hf)
  · obtain ⟨p, h⟩ := fetchInstr_fatal hf hdec hnop hr
    have hhalt : HaltsWith c (t.setPc p) (step s) := halts_of_fetchInstr hrun hag h
    exact hhalt

end Sys2Proof.Machine
end

section
/-! PROOFS. Arithmetic, logic, bit test and compare of an operand that reads (statements O14, O15, O17, O18 and O19). -/

namespace Sys2Proof.Machine

/-- An operation that completes, and an update of registers after it. -/
theorem Res.finish_update_of_ok {α : Type} {r : Res α} {v : α} {u : State} (h : r = .ok v u)
    (f : α → State → State) : (r.update f).finish = .next (f v u) := by
  rw [h]; rfl

theorem BusOnly.a_eq {s t : State} (h : BusOnly s t) : t.a = s.a := by rw [h]

theorem BusOnly.x_eq {s t : State} (h : BusOnly s t) : t.x = s.x := by rw [h]

theorem BusOnly.y_eq {s t : State} (h : BusOnly s t) : t.y = s.y := by rw [h]

theorem BusOnly.p_eq {s t : State} (h : BusOnly s t) : t.p = s.p := by rw [h]

/-- Reading a memory operand changes devices at most. -/
theorem readMem_busOnly {m : MemMode} {s t : State} {v : Byte} (h : readMem m s = .ok v t) :
    BusOnly s t ∧ t.mem = s.mem := readSource_busOnly (o := .mem m) h

/-- The load of A, after bus accesses (40_dispatch_addressing.md R159). -/
theorem loadA_spec {s u : State} (r : Byte) (h : BusOnly s u) :
    ShowsNZ r (u.loadA r) ∧ OnlyFlags [1, 7] s (u.loadA r) ∧ OnlyRegs [.a, .p] s (u.loadA r) :=
  ⟨setNZ_shows (u.setA r) r, setNZ_onlyFlags (u := u.setA r) r h.p_eq,
    .of_busOnly h ⟨fun g hg => by cases g <;> simp at hg <;> rfl, rfl, rfl, rfl, rfl⟩⟩

/-- The bit test, after bus accesses (41_arithmetic_logic_compare.md R175). -/
theorem bitTestFlags_spec {s u : State} (a v : Byte) (h : BusOnly s u) :
    let t := u.setP (bitTestFlags a v u.p)
    t.p.getLsbD 1 = decide (a &&& v = 0) ∧ t.p.getLsbD 7 = v.getLsbD 7 ∧ t.p.getLsbD 6 = v.getLsbD 6 ∧
      OnlyFlags [1, 6, 7] s t ∧ OnlyRegs [.p] s t := by
  refine ⟨?_, bitTestFlags_getLsbD a v u.p 7, bitTestFlags_getLsbD a v u.p 6, fun i hi => ?_, .of_busOnly h ?_⟩
  · exact (bitTestFlags_getLsbD a v u.p 1).trans (beq_zero _)
  · have hne : i ≠ 1 ∧ i ≠ 6 ∧ i ≠ 7 := by simpa using hi
    rw [State.setP_p, bitTestFlags_getLsbD, h.p_eq]
    simp [hne]
  · exact ⟨fun g hg => by cases g <;> simp at hg <;> rfl, rfl, rfl, rfl, rfl⟩

/-- Settles O14: the operand's read, then the add. -/
theorem adcResult : Obligations.AdcResult := by
  intro o s u m h
  obtain ⟨hb, hmem⟩ := readSource_busOnly h
  obtain ⟨ha, hnz, hc, hv, hf, hr, -, hd⟩ := addWithCarry_spec m hb
  exact ⟨_, Res.finish_update_of_ok h _, ha, hnz, hc, hv, hf, hr, .of_mem_eq hmem, hd⟩

/-- Settles O15: the operand's read, then the subtract. -/
theorem sbcResult : Obligations.SbcResult := by
  intro o s u m h
  obtain ⟨hb, hmem⟩ := readSource_busOnly h
  obtain ⟨ha, hnz, hc, hv, hf, hr, -, hd⟩ := subWithCarry_spec m hb
  exact ⟨_, Res.finish_update_of_ok h _, ha, hnz, hc, hv, hf, hr, .of_mem_eq hmem, hd⟩

/-- Settles O17: the three instructions are one operand read and a load of A with their result. -/
theorem logicResult : Obligations.LogicResult := by
  intro o s u m r i h hi
  obtain ⟨hb, hmem⟩ := readSource_busOnly h
  have hexec : exec i s = .next (u.loadA r) := by
    rw [← hb.a_eq] at hi
    obtain ⟨rfl, rfl⟩ | ⟨rfl, rfl⟩ | ⟨rfl, rfl⟩ := hi <;> exact Res.finish_update_of_ok h _
  obtain ⟨hnz, hf, hr⟩ := loadA_spec r hb
  exact ⟨_, hexec, rfl, hnz, hf, hr, .of_mem_eq hmem, rfl, rfl⟩

/-- Settles O18: the operand's read, then the flags. -/
theorem bitResult : Obligations.BitResult := by
  intro m s u v h
  obtain ⟨hb, hmem⟩ := readMem_busOnly h
  obtain ⟨hz, hn, hv, hf, hr⟩ := bitTestFlags_spec u.a v hb
  exact ⟨_, Res.finish_update_of_ok h _, hb.a_eq ▸ hz, hn, hv, hf, hr, .of_mem_eq hmem, rfl, rfl⟩

/-- Settles O19: the three instructions are one operand read and the compare of their register. -/
theorem compareResult : Obligations.CompareResult := by
  intro o s u m reg i h hi
  obtain ⟨hb, hmem⟩ := readSource_busOnly h
  have hexec : exec i s = .next (u.compareWith reg m) := by
    rw [← hb.a_eq, ← hb.x_eq, ← hb.y_eq] at hi
    obtain ⟨rfl, rfl⟩ | ⟨rfl, rfl⟩ | ⟨rfl, rfl⟩ := hi <;> exact Res.finish_update_of_ok h _
  obtain ⟨hc, hz, hn, hf, hr, -, hd⟩ := compareWith_spec reg m hb
  exact ⟨_, hexec, hc, hz, hn, hf, hr, .of_mem_eq hmem, hd⟩

end Sys2Proof.Machine
end

section
/-! PROOFS. The Decimal flag (statement O11): each operation of the five instructions passes it through unread. -/

namespace Sys2Proof.Machine

theorem setFlag_self {i : Nat} (hi : i < 8) (p : Byte) : setFlag i (p.getLsbD i) p = p := by
  refine BitVec.eq_of_getLsbD_eq fun j _ => ?_
  rw [setFlag_getLsbD hi]
  split <;> simp [*]

theorem setFlag_comm {i j : Nat} (hi : i < 8) (hj : j < 8) (h : i ≠ j) (b c : Bool) (p : Byte) :
    setFlag i b (setFlag j c p) = setFlag j c (setFlag i b p) := by
  refine BitVec.eq_of_getLsbD_eq fun k _ => ?_
  simp only [setFlag_getLsbD hi, setFlag_getLsbD hj]
  by_cases hk : k = i <;> simp [hk, h]

/-- The flags of an add are written around Decimal (41_arithmetic_logic_compare.md R170). -/
theorem adderFlags_setFlag_decimal (r : AdderOut) (d : Bool) (p : Byte) :
    adderFlags r (setFlag 3 d p) = setFlag 3 d (adderFlags r p) := by
  refine BitVec.eq_of_getLsbD_eq fun j _ => ?_
  simp only [adderFlags_getLsbD, setFlag_getLsbD (i := 3) (by decide)]
  by_cases hj : j = 3 <;> simp [hj]

theorem State.withFlag_self (s : State) {i : Nat} (hi : i < 8) : s.withFlag i (s.p.getLsbD i) = s := by
  rw [State.withFlag, setFlag_self hi]; rfl

theorem State.carry_withFlag_decimal (s : State) (d : Bool) : (s.withFlag 3 d).carry = s.carry :=
  setFlag_getLsbD (by decide) d s.p bitC

/-- The adder takes C and no other flag (41_arithmetic_logic_compare.md R179). -/
theorem State.addWithCarry_withFlag_decimal (s : State) (m : Byte) (d : Bool) :
    (s.withFlag 3 d).addWithCarry m = (s.addWithCarry m).withFlag 3 d := by
  simp only [State.addWithCarry, State.carry_withFlag_decimal, State.withFlag_p, adderFlags_setFlag_decimal]
  rfl

theorem State.withCarry_withFlag_decimal (s : State) (c d : Bool) :
    (s.withFlag 3 d).withFlag bitC c = (s.withFlag bitC c).withFlag 3 d :=
  congrArg s.setP (setFlag_comm (by decide) (by decide) (by decide) c d s.p)

/-- An operation that completes does so alike whatever the Decimal flag, which it leaves as it finds it. -/
def DecimalBlind {α : Type} (f : State → Res α) : Prop :=
  ∀ (s t : State) (v : α) (d : Bool), f s = .ok v t → f (s.withFlag 3 d) = .ok v (t.withFlag 3 d)

namespace DecimalBlind

theorem ok {α : Type} (v : α) : DecimalBlind (Res.ok v) := by
  intro s t w d h
  cases h
  rfl

theorem bind {α β : Type} {f : State → Res α} {g : α → State → Res β} (hf : DecimalBlind f)
    (hg : ∀ v, DecimalBlind (g v)) : DecimalBlind fun s => (f s).bind g := by
  intro s t w d h
  obtain ⟨v, u, hfs, hgu⟩ := Res.bind_eq_ok h
  show (f _).bind g = _
  rw [hf _ _ _ d hfs]
  exact hg v _ _ _ d hgu

theorem update {α : Type} {f : State → Res α} {g : α → State → State} (hf : DecimalBlind f)
    (hg : ∀ v s d, g v (s.withFlag 3 d) = (g v s).withFlag 3 d) : DecimalBlind fun s => (f s).update g :=
  hf.bind fun v s t w d h => by
    cases h
    rw [hg]

theorem memRead (a : Word) : DecimalBlind (memRead a) := by
  intro s t v d h
  unfold Machine.memRead at h ⊢
  split at h
  · cases h; rfl
  · unfold ppuRead at h ⊢
    split at h <;> cases h <;> rfl
  · unfold ioRead at h ⊢
    split at h <;> cases h <;> rfl
  · cases h
  · cases h; rfl
  · cases h; rfl

theorem memWrite (a : Word) (v : Byte) : DecimalBlind (memWrite a v) := by
  intro s t w d h
  unfold Machine.memWrite at h ⊢
  split at h
  · cases h; rfl
  · unfold ppuWrite at h ⊢
    split at h <;> cases h <;> rfl
  · unfold ioWrite at h ⊢
    split at h <;> cases h <;> rfl
  · cases h
  · cases h; rfl
  · cases h

theorem effectiveAddress (m : MemMode) : DecimalBlind (effectiveAddress m) := by
  intro s t ea d h
  cases m <;> simp only [Machine.effectiveAddress, zeroPagePointer, memRead_zeroPage, Res.bind_ok] at h ⊢ <;>
    cases h <;> rfl

theorem readMem (m : MemMode) : DecimalBlind (readMem m) := (effectiveAddress m).bind memRead

theorem readSource (o : Source) : DecimalBlind (readSource o) := by
  cases o with
  | imm v => exact ok v
  | mem m => exact readMem m

theorem modifyMem (m : MemMode) (new : Byte → Byte) {after : Byte → State → State}
    (hafter : ∀ v s d, after v (s.withFlag 3 d) = (after v s).withFlag 3 d) :
    DecimalBlind (modifyMem m new after) :=
  (effectiveAddress m).bind fun ea => (memRead ea).bind fun v => (memWrite ea (new v)).update fun _ => hafter v

end DecimalBlind

/-- What completes in a running state was not cut (60_exceptions.md R380). -/
theorem Res.eq_ok_of_finish {r : Res Unit} {t : State} (h : r.finish = .next t) (hrun : t.halted = .running) :
    r = .ok () t := by
  cases r with
  | ok v s => cases h; rfl
  | fatal c s => cases h; cases hrun

/-- An instruction whose operation does not read Decimal, where it goes on running. -/
theorem DecimalBlind.finish {f : State → Res Unit} (hf : DecimalBlind f) {s t : State} (d : Bool)
    (h : (f s).finish = .next t) (hrun : t.halted = .running) :
    (f (s.withFlag 3 d)).finish = .next (t.withFlag 3 d) := by
  rw [hf _ _ _ d (Res.eq_ok_of_finish h hrun)]
  rfl

/-- The five instructions run alike with Decimal set to `d` (41_arithmetic_logic_compare.md R180). -/
theorem exec_withFlag_decimal {i : Instr} {s t : State} (d : Bool)
    (hi : (∃ o, i = .adc o) ∨ (∃ o, i = .sbc o) ∨ (∃ v, i = .sbcU v) ∨ (∃ m, i = .rra m) ∨ (∃ m, i = .isb m))
    (h : exec i s = .next t) (hrun : t.halted = .running) :
    exec i (s.withFlag 3 d) = .next (t.withFlag 3 d) := by
  obtain ⟨o, rfl⟩ | ⟨o, rfl⟩ | ⟨v, rfl⟩ | ⟨m, rfl⟩ | ⟨m, rfl⟩ := hi
  · exact ((DecimalBlind.readSource o).update fun m u => u.addWithCarry_withFlag_decimal m).finish d h hrun
  · exact ((DecimalBlind.readSource o).update fun m u => u.addWithCarry_withFlag_decimal (m ^^^ 0xFF)).finish d h hrun
  · cases h
    exact congrArg Host.Outcome.next (s.addWithCarry_withFlag_decimal (v ^^^ 0xFF) d)
  · show execRra m _ = _
    rw [execRra, State.carry_withFlag_decimal]
    refine (DecimalBlind.modifyMem m _ fun v u d => ?_).finish d h hrun
    rw [State.withCarry_withFlag_decimal, State.addWithCarry_withFlag_decimal]
  · exact (DecimalBlind.modifyMem m _ fun v u => u.addWithCarry_withFlag_decimal ((v + 1) ^^^ 0xFF)).finish d h hrun

/-- Settles O11: with Decimal set to what it is, nothing is set, so the run with it shows that it is kept. -/
theorem decimalFlagHasNoEffect : Obligations.DecimalFlagHasNoEffect := by
  intro i s t d hi _ h hrun
  refine ⟨?_, exec_withFlag_decimal d hi h hrun⟩
  have hsame := exec_withFlag_decimal (s.p.getLsbD 3) hi h hrun
  rw [State.withFlag_self s (by decide), h] at hsame
  injection hsame with ht
  rw [ht, State.withFlag_p]
  exact setFlag_getLsbD (by decide) _ _ _

end Sys2Proof.Machine
end

section
/-! SUPPORT. The frames of register writes, and of a load of X or Y (40_dispatch_addressing.md R159). -/

namespace Sys2Proof.Machine

theorem OnlyRegs.refl (rs : List Reg) (s : State) : OnlyRegs rs s s := ⟨fun _ _ => rfl, rfl, rfl, rfl, rfl⟩

section Writes

variable {rs : List Reg} {s u : State}

theorem OnlyRegs.setA (h : OnlyRegs rs s u) (hg : .a ∈ rs) (v : Byte) : OnlyRegs rs s (u.setA v) := by
  refine ⟨fun g hn => ?_, h.2⟩
  cases g with
  | a => exact absurd hg hn
  | _ => exact h.1 _ hn

theorem OnlyRegs.setX (h : OnlyRegs rs s u) (hg : .x ∈ rs) (v : Byte) : OnlyRegs rs s (u.setX v) := by
  refine ⟨fun g hn => ?_, h.2⟩
  cases g with
  | x => exact absurd hg hn
  | _ => exact h.1 _ hn

theorem OnlyRegs.setY (h : OnlyRegs rs s u) (hg : .y ∈ rs) (v : Byte) : OnlyRegs rs s (u.setY v) := by
  refine ⟨fun g hn => ?_, h.2⟩
  cases g with
  | y => exact absurd hg hn
  | _ => exact h.1 _ hn

theorem OnlyRegs.setP (h : OnlyRegs rs s u) (hg : .p ∈ rs) (v : Byte) : OnlyRegs rs s (u.setP v) := by
  refine ⟨fun g hn => ?_, h.2⟩
  cases g with
  | p => exact absurd hg hn
  | _ => exact h.1 _ hn

/-- A write of P alone, after bus accesses. -/
theorem BusOnly.onlyRegs_setP (h : BusOnly s u) (v : Byte) : OnlyRegs [.p] s (u.setP v) :=
  .of_busOnly h ((OnlyRegs.refl _ u).setP (by decide) v)

/-- The load of X, after bus accesses. -/
theorem loadX_spec (r : Byte) (h : BusOnly s u) :
    ShowsNZ r (u.loadX r) ∧ OnlyFlags [1, 7] s (u.loadX r) ∧ OnlyRegs [.x, .p] s (u.loadX r) :=
  ⟨setNZ_shows (u.setX r) r, setNZ_onlyFlags (u := u.setX r) r h.p_eq,
    .of_busOnly h (((OnlyRegs.refl _ u).setX (by decide) r).setP (by decide) _)⟩

/-- The load of Y, after bus accesses. -/
theorem loadY_spec (r : Byte) (h : BusOnly s u) :
    ShowsNZ r (u.loadY r) ∧ OnlyFlags [1, 7] s (u.loadY r) ∧ OnlyRegs [.y, .p] s (u.loadY r) :=
  ⟨setNZ_shows (u.setY r) r, setNZ_onlyFlags (u := u.setY r) r h.p_eq,
    .of_busOnly h (((OnlyRegs.refl _ u).setY (by decide) r).setP (by decide) _)⟩

end Writes

end Sys2Proof.Machine
end

section
/-! PROOFS. Shifts, rotates, increments and decrements (statements O20, O21, O22 and O23). -/

namespace Sys2Proof.Machine

/-- The four instructions are one operation over four shifters, the rotates' with the carry before the instruction
(42_shift_rotate_incdec.md R190 to R193): the byte `v` goes to `r`, the bit `c` comes out. -/
theorem exec_shift {i : Instr} {o : ShiftTarget} {s : State} {v r : Byte} {c : Bool}
    (h : (i = .asl o ∧ r = BitVec.ofNat 8 (2 * v.toNat) ∧ c = v.getLsbD 7) ∨
      (i = .lsr o ∧ r = BitVec.ofNat 8 (v.toNat / 2) ∧ c = v.getLsbD 0) ∨
      (i = .rol o ∧ r = BitVec.ofNat 8 (2 * v.toNat + (s.p.getLsbD 0).toNat) ∧ c = v.getLsbD 7) ∨
      (i = .ror o ∧ r = BitVec.ofNat 8 (v.toNat / 2 + 128 * (s.p.getLsbD 0).toNat) ∧ c = v.getLsbD 0)) :
    ∃ f : Byte → ShiftOut, exec i s = (shiftOperand o f s).finish ∧ (f v).value = r ∧ (f v).carry = c := by
  obtain ⟨rfl, rfl, rfl⟩ | ⟨rfl, rfl, rfl⟩ | ⟨rfl, rfl, rfl⟩ | ⟨rfl, rfl, rfl⟩ := h
  · exact ⟨_, rfl, shiftLeft_value v, rfl⟩
  · exact ⟨_, rfl, shiftRight_value v, rfl⟩
  · exact ⟨_, rfl, rotateLeft_value v s.carry, rfl⟩
  · exact ⟨_, rfl, rotateRight_value v s.carry, rfl⟩

/-- Settles O20: the shifter's byte goes to A, then the flags are written. -/
theorem shiftAccumulatorResult : Obligations.ShiftAccumulatorResult := by
  intro s i r c hi
  obtain ⟨f, hexec, rfl, rfl⟩ := exec_shift hi
  obtain ⟨hc, hnz, hf⟩ := shiftFlags_spec (s := s) (w := s.setA (f s.a).value) (f s.a) rfl
  have hr := ((OnlyRegs.refl [.a, .p] s).setA (by decide) (f s.a).value).setP (by decide) (shiftFlags (f s.a) s.p)
  exact ⟨_, hexec, rfl, hc, hnz, hf, hr, .of_mem_eq rfl, rfl, rfl⟩

/-- Settles O21: the read-modify-write with the shifter's byte, then the flags. -/
theorem shiftMemoryResult : Obligations.ShiftMemoryResult := by
  intro m s u w ea v r c i he hr hw hi
  obtain ⟨f, hexec, hv, rfl⟩ := exec_shift hi
  obtain ⟨hrun, hb, hst⟩ := modifyMem_spec he hr hw (fun v => (f v).value) hv
    (fun v s => s.setP (shiftFlags (f v) s.p))
  obtain ⟨hc, hnz, hf⟩ := shiftFlags_spec (f v) hb.p_eq
  exact ⟨_, hexec.trans hrun, hc, hv ▸ hnz, hf, hb.onlyRegs_setP _, hst, rfl, rfl⟩

/-- Settles O22: both instructions are the read-modify-write with their new byte, then `SetNZ` of it. -/
theorem incDecMemoryResult : Obligations.IncDecMemoryResult := by
  intro m s u w ea v r i he hr hw hi
  obtain ⟨new, hexec, rfl⟩ : ∃ new : Byte → Byte,
      exec i s = (modifyMem m new (fun v t => t.setP (setNZ (new v) t.p)) s).finish ∧ new v = r := by
    obtain ⟨rfl, rfl⟩ | ⟨rfl, rfl⟩ := hi
    · exact ⟨_, rfl, add_one_eq_ofNat v⟩
    · exact ⟨_, rfl, sub_one_eq_ofNat v⟩
  obtain ⟨hrun, hb, hst⟩ := modifyMem_spec he hr hw new rfl (fun v t => t.setP (setNZ (new v) t.p))
  exact ⟨_, hexec.trans hrun, setNZ_shows w _, setNZ_onlyFlags _ hb.p_eq, hb.onlyRegs_setP _, hst, rfl, rfl⟩

/-- Settles O23: each instruction loads its register with the new byte. -/
theorem incDecRegisterResult : Obligations.IncDecRegisterResult := by
  refine ⟨⟨rfl, rfl, rfl, rfl⟩, fun s i g r hi => ?_⟩
  have hexec : (g = .x ∧ exec i s = .next (s.loadX r)) ∨ (g = .y ∧ exec i s = .next (s.loadY r)) := by
    simp only [← add_one_eq_ofNat, ← sub_one_eq_ofNat] at hi
    obtain ⟨rfl, rfl, rfl⟩ | ⟨rfl, rfl, rfl⟩ | ⟨rfl, rfl, rfl⟩ | ⟨rfl, rfl, rfl⟩ := hi
    · exact .inl ⟨rfl, rfl⟩
    · exact .inr ⟨rfl, rfl⟩
    · exact .inl ⟨rfl, rfl⟩
    · exact .inr ⟨rfl, rfl⟩
  obtain ⟨rfl, hexec⟩ | ⟨rfl, hexec⟩ := hexec
  · obtain ⟨hnz, hf, hr⟩ := loadX_spec r (.refl s)
    exact ⟨_, hexec, rfl, hnz, hf, hr, .of_mem_eq rfl, rfl, rfl⟩
  · obtain ⟨hnz, hf, hr⟩ := loadY_spec r (.refl s)
    exact ⟨_, hexec, rfl, hnz, hf, hr, .of_mem_eq rfl, rfl, rfl⟩

end Sys2Proof.Machine
end

section
/-! SUPPORT. Stack slots as bus addresses, and what the call, the return and the branches leave
(43_branch_jump_subroutine.md R219, R220, R224). -/

namespace Sys2Proof.Machine

section Writes

variable {rs : List Reg} {s u : State}

theorem OnlyRegs.setSp (h : OnlyRegs rs s u) (hg : .sp ∈ rs) (v : Byte) : OnlyRegs rs s (u.setSp v) := by
  refine ⟨fun g hn => ?_, h.2⟩
  cases g with
  | sp => exact absurd hg hn
  | _ => exact h.1 _ hn

theorem OnlyRegs.setPc (h : OnlyRegs rs s u) (hg : .pc ∈ rs) (v : Word) : OnlyRegs rs s (u.setPc v) := by
  refine ⟨fun g hn => ?_, h.2⟩
  cases g with
  | pc => exact absurd hg hn
  | _ => exact h.1 _ hn

end Writes

theorem read_of_peek_stackAt {s : State} {i v : Byte} (h : s.peek (stackAt i) = some v) :
    s.mem.read (256 + i.toNat) = v := by
  rwa [peek_stackAt, Option.some.injEq] at h

/-- Memory with a word pushed from slot `i` down, high byte first (20_memory.md R80). -/
def Memory.pushWord (m : Memory) (i : Byte) (v : Word) : Memory :=
  (m.write (256 + i.toNat) (hiByte v)).write (256 + (i - 1).toNat) (loByte v)

theorem Memory.read_pushWord (m : Memory) (i : Byte) (v : Word) :
    (m.pushWord i v).read (256 + i.toNat) = hiByte v ∧ (m.pushWord i v).read (256 + (i - 1).toNat) = loByte v :=
  read_two m (stackSlots_ne i).1 _ _

/-- A call always completes (43_branch_jump_subroutine.md R219). -/
theorem exec_jsr (a : Word) (s : State) :
    exec (.jsr a) s = .next (((s.setMem (s.mem.pushWord s.sp (s.pc - 1))).setSp (s.sp - 1 - 1)).setPc a) :=
  Res.finish_update_of_ok (push16_eq _ s) _

/-- A return always completes (43_branch_jump_subroutine.md R220). -/
theorem exec_rts (s : State) :
    exec .rts s = .next ((s.setSp (s.sp + 1 + 1)).setPc
      (hiLo (s.mem.read (256 + (s.sp + 1 + 1).toNat)) (s.mem.read (256 + (s.sp + 1).toNat)) + 1)) :=
  Res.finish_update_of_ok (pop16_eq s) _

/-- A return on the stack a call has left gives back SP and the address after the call. -/
theorem exec_rts_after_jsr (s : State) (p : Word) :
    exec .rts (((s.setMem (s.mem.pushWord s.sp (s.pc - 1))).setSp (s.sp - 1 - 1)).setPc p) =
      .next (s.setMem (s.mem.pushWord s.sp (s.pc - 1))) := by
  obtain ⟨hhi, hlo⟩ := s.mem.read_pushWord s.sp (s.pc - 1)
  simp only [exec_rts, State.setPc_sp, State.setSp_sp, State.setPc_mem, State.setSp_mem, State.setMem_mem,
    BitVec.sub_add_cancel, hhi, hlo, hiLo_hiByte_loByte]
  rfl

/-- The displacement is signed, and the sum wraps at 16 bits (40_dispatch_addressing.md R157). -/
theorem branchAddress_eq_ofInt (o : Byte) (s : State) :
    branchAddress o s = BitVec.ofInt 16 (s.pc.toNat + o.toInt) := by
  rw [BitVec.ofInt_add, BitVec.ofInt_natCast, BitVec.ofNat_toNat, BitVec.setWidth_eq]
  rfl

/-- A branch writes PC alone (43_branch_jump_subroutine.md R224). -/
theorem State.branchIf_eq (s : State) (c : Bool) (o : Byte) :
    s.branchIf c o = s.setPc (if c then BitVec.ofInt 16 (s.pc.toNat + o.toInt) else s.pc) := by
  cases c with
  | true => exact congrArg s.setPc (branchAddress_eq_ofInt o s)
  | false => rfl

/-- The eight branches are one operation: they test a bit of P for a value (43_branch_jump_subroutine.md R210 to
R217). -/
theorem exec_branch {i : Instr} {o : Byte} {bit : Nat} {taken : Bool}
    (h : (i = .bpl o ∧ bit = 7 ∧ taken = false) ∨ (i = .bmi o ∧ bit = 7 ∧ taken = true) ∨
      (i = .bvc o ∧ bit = 6 ∧ taken = false) ∨ (i = .bvs o ∧ bit = 6 ∧ taken = true) ∨
      (i = .bcc o ∧ bit = 0 ∧ taken = false) ∨ (i = .bcs o ∧ bit = 0 ∧ taken = true) ∨
      (i = .bne o ∧ bit = 1 ∧ taken = false) ∨ (i = .beq o ∧ bit = 1 ∧ taken = true)) (s : State) :
    exec i s = .next (s.branchIf (s.p.getLsbD bit == taken) o) := by
  rcases h with ⟨rfl, rfl, rfl⟩ | ⟨rfl, rfl, rfl⟩ | ⟨rfl, rfl, rfl⟩ | ⟨rfl, rfl, rfl⟩ | ⟨rfl, rfl, rfl⟩ |
    ⟨rfl, rfl, rfl⟩ | ⟨rfl, rfl, rfl⟩ | ⟨rfl, rfl, rfl⟩
  all_goals simp only [beq_true, beq_false]; rfl

end Sys2Proof.Machine
end

section
/-! PROOFS. Branches, jumps, subroutines, RTI, BRK and NOP (statements O24, O25, O26, O27, O28, O29 and O32). -/

namespace Sys2Proof.Machine

/-- Settles O24: a branch writes PC alone, by the bit it tests. -/
theorem branchResult : Obligations.BranchResult := by
  intro s o i bit taken hi
  rw [exec_branch hi, State.branchIf_eq]
  simp only [beq_iff_eq]
  rfl

/-- Settles O25: the indirect form reads its pointer's bytes from one page and jumps to the word they make. -/
theorem jmpResult : Obligations.JmpResult := by
  refine ⟨fun _ _ => rfl, fun s u w p lo hi hlo hhi => ?_⟩
  rw [← indirectHigh_eq_ofNat] at hhi
  have hj : jumpAddress (.ind p) s = .ok (hiLo hi lo) w := by simp only [jumpAddress, hlo, hhi, Res.bind_ok]
  rw [← hiLo_eq_ofNat]
  exact Res.finish_update_of_ok hj _

/-- Settles O26: the call pushes a word and the return pops one, both always completing. -/
theorem subroutineResult : Obligations.SubroutineResult := by
  constructor
  case left =>
    intro s a r
    have hr : (s.pc - 1).toNat = r := by rw [BitVec.toNat_sub, Nat.add_comm]; rfl
    obtain ⟨hhi, hlo⟩ := s.mem.read_pushWord s.sp (s.pc - 1)
    obtain ⟨-, hsp, -⟩ := stackSlots_eq s.sp
    refine ⟨_, exec_jsr a s, rfl, hsp, ?high, ?low, peek_frame_two rfl,
      .setPc (.setSp (.refl _ s) (by decide) _) (by decide) _, rfl, rfl⟩
    case high => rw [peek_stackAt, ← hr, ← hiByte_eq_ofNat, ← hhi]; rfl
    case low => rw [peek_stackAt, ← hr, ← loByte_eq_ofNat, ← hlo]; rfl
  case right =>
    intro s lo hi hlo hhi
    obtain ⟨-, -, -, htwo, -, hsp, -⟩ := stackSlots_eq s.sp
    rw [htwo] at hhi
    rw [exec_rts, read_of_peek_stackAt hlo, read_of_peek_stackAt hhi, hiLo_eq_ofNat, ← hsp, BitVec.ofNat_add _ 1]
    rfl

/-- Settles O27: the return pops the word the call pushed. -/
theorem callThenReturn : Obligations.CallThenReturn := by
  intro s a
  exact ⟨_, _, exec_jsr a s, exec_rts_after_jsr s (a + 1), rfl, rfl, .refl [] s, rfl, rfl⟩

/-- Settles O28: the three pulled bytes are the bytes in the three slots. -/
theorem rtiResult : Obligations.RtiResult := by
  intro s v lo hi hv hlo hhi
  obtain ⟨-, -, -, htwo, hthree, -, hsp⟩ := stackSlots_eq s.sp
  rw [htwo] at hlo
  rw [hthree] at hhi
  have hexec : exec .rti s = (returnFromInterrupt s).finish := rfl
  rw [hexec, returnFromInterrupt_eq, read_of_peek_stackAt hv, read_of_peek_stackAt hlo, read_of_peek_stackAt hhi,
    hiLo_eq_ofNat, ← hsp]
  rfl

/-- Settles O29: an interrupt entry through the vector at 0xFFFE, returning one past the state's PC. -/
theorem brkResult : Obligations.BrkResult := by
  intro s lo hi hlo hhi r
  obtain ⟨t, he, hentry⟩ := enterInterrupt_spec s (s.pc + 1) (pushedByInstruction s.p) Config.vecBrk lo hi
    (by decide) (by decide) hlo hhi
  have hexec : exec .brk s = .next t := congrArg Res.finish he
  have hr : (s.pc + 1).toNat = r := BitVec.toNat_add s.pc 1
  rw [hr] at hentry
  exact ⟨t, hexec, hentry⟩

/-- Settles O32: both arms answer the state they are given. -/
theorem nopChangesNothing : Obligations.NopChangesNothing := by
  intro s op o
  exact ⟨rfl, rfl⟩

end Sys2Proof.Machine
end

section
/-! SUPPORT. What a push, a pop and the write of one flag leave (40_dispatch_addressing.md R159, 44_stack_flags.md R240
to R250). -/

namespace Sys2Proof.Machine

/-- Memory with one stack slot written: the slot names its byte and no other. -/
theorem storesOnly_stackAt {s t : State} {i v : Byte} (h : t.mem = s.mem.write (256 + i.toNat) v) :
    StoresOnly (stackAt i) v s t := by
  intro a
  rw [memKey_stackAt, State.peek, State.peek, h]
  cases memKey a with
  | none => rfl
  | some q => by_cases hq : q = 256 + i.toNat <;> simp [Memory.read_write, hq]

/-- A push alone, as PHA and PHP make it: SP wraps at 8 bits (44_stack_flags.md R240). -/
theorem push_spec (v : Byte) (s : State) :
    ∃ t, (push v s).finish = .next t ∧ t.sp = BitVec.ofNat 8 (s.sp.toNat + 255) ∧ StoresOnly (stackAt s.sp) v s t ∧
      OnlyRegs [.sp] s t ∧ SameDevices s t :=
  ⟨_, congrArg Res.finish (push_eq v s), sub_one_eq_ofNat s.sp, storesOnly_stackAt rfl,
    .setSp (.refl _ s) (by decide) _, rfl, rfl⟩

/-- A pop gives the byte in the slot above SP, and SP wraps at 8 bits (44_stack_flags.md R241). -/
theorem pop_of_peek {s : State} {v : Byte} (h : s.peek (stackAt (s.sp + 1)) = some v) :
    pop s = .ok v (s.setSp (BitVec.ofNat 8 (s.sp.toNat + 1))) := by
  rw [pop_eq, read_of_peek_stackAt h, add_one_eq_ofNat]

/-- Writing one flag writes that bit of P alone. -/
theorem withFlag_spec {i : Nat} (hi : i < 8) (b : Bool) (s : State) :
    (s.withFlag i b).p.getLsbD i = b ∧ OnlyFlags [i] s (s.withFlag i b) := by
  refine ⟨?_, fun j hj => ?_⟩
  · rw [State.withFlag_p, setFlag_getLsbD hi, if_pos rfl]
  · rw [State.withFlag_p, setFlag_getLsbD hi, if_neg (by simpa using hj)]

/-- The seven flag instructions are one operation: the write of a bit of P (44_stack_flags.md R244 to R250). -/
theorem exec_flag {i : Instr} {bit : Nat} {b : Bool}
    (h : (i = .clc ∧ bit = 0 ∧ b = false) ∨ (i = .sec ∧ bit = 0 ∧ b = true) ∨ (i = .cli ∧ bit = 2 ∧ b = false) ∨
      (i = .sei ∧ bit = 2 ∧ b = true) ∨ (i = .clv ∧ bit = 6 ∧ b = false) ∨ (i = .cld ∧ bit = 3 ∧ b = false) ∨
      (i = .sed ∧ bit = 3 ∧ b = true)) (s : State) :
    bit < 8 ∧ exec i s = .next (s.withFlag bit b) := by
  rcases h with ⟨rfl, rfl, rfl⟩ | ⟨rfl, rfl, rfl⟩ | ⟨rfl, rfl, rfl⟩ | ⟨rfl, rfl, rfl⟩ | ⟨rfl, rfl, rfl⟩ |
    ⟨rfl, rfl, rfl⟩ | ⟨rfl, rfl, rfl⟩
  all_goals exact ⟨by decide, rfl⟩

end Sys2Proof.Machine
end

section
/-! PROOFS. Stack and flag instructions (statements O33, O34 and O35). -/

namespace Sys2Proof.Machine

/-- Settles O33: both instructions are a push of their byte. -/
theorem pushResult : Obligations.PushResult := by
  refine ⟨⟨rfl, rfl⟩, fun s i v hi => ?_⟩
  have hexec : exec i s = (push v s).finish := by obtain ⟨rfl, rfl⟩ | ⟨rfl, rfl⟩ := hi <;> rfl
  rw [hexec]
  exact push_spec v s

/-- Settles O34: both instructions are a pop, then a load of A or a write of P. -/
theorem pullResult : Obligations.PullResult := by
  refine ⟨⟨rfl, rfl⟩, fun s v hv => ⟨?pla, ?plp⟩⟩
  case pla =>
    exact ⟨_, Res.finish_update_of_ok (pop_of_peek hv) _, rfl, rfl, setNZ_shows (State.setA _ v) v,
      setNZ_onlyFlags (u := State.setA _ v) v rfl,
      .setP (.setA (.setSp (.refl _ s) (by decide) _) (by decide) v) (by decide) _, .of_mem_eq rfl, rfl, rfl⟩
  case plp => exact Res.finish_update_of_ok (pop_of_peek hv) _

/-- Settles O35: each instruction is the write of its bit of P. -/
theorem flagInstructionResult : Obligations.FlagInstructionResult := by
  refine ⟨⟨rfl, rfl, rfl, rfl, rfl, rfl, rfl⟩, fun s i bit b hi => ?_⟩
  obtain ⟨hbit, hexec⟩ := exec_flag hi s
  obtain ⟨hset, hothers⟩ := withFlag_spec hbit b s
  exact ⟨_, hexec, rfl, hset, hothers⟩

end Sys2Proof.Machine
end

section
/-! SUPPORT. The load of a register that the loads and the transfers share, and a store that completes
(40_dispatch_addressing.md R159, 20_memory.md R91). -/

namespace Sys2Proof.Machine

/-- `Loads v u g t`: loading `v` into the register `g` leads from `u` to `t`. SP, P and PC are not loaded so. -/
inductive Loads (v : Byte) (u : State) : Reg → State → Prop where
  | a : Loads v u .a (u.loadA v)
  | x : Loads v u .x (u.loadX v)
  | y : Loads v u .y (u.loadY v)

/-- What a load leaves, after bus accesses that keep memory. -/
theorem Loads.spec {v : Byte} {g : Reg} {s u t : State} (h : Loads v u g t) (hb : BusOnly s u) (hmem : u.mem = s.mem) :
    t.reg g = zext16 v ∧ ShowsNZ v t ∧ OnlyFlags [1, 7] s t ∧ OnlyRegs [g, .p] s t ∧ SameMemory s t ∧
      SameDevices u t := by
  cases h with
  | a =>
    obtain ⟨hnz, hf, hr⟩ := loadA_spec v hb
    exact ⟨rfl, hnz, hf, hr, .of_mem_eq hmem, rfl, rfl⟩
  | x =>
    obtain ⟨hnz, hf, hr⟩ := loadX_spec v hb
    exact ⟨rfl, hnz, hf, hr, .of_mem_eq hmem, rfl, rfl⟩
  | y =>
    obtain ⟨hnz, hf, hr⟩ := loadY_spec v hb
    exact ⟨rfl, hnz, hf, hr, .of_mem_eq hmem, rfl, rfl⟩

/-- A store is the one write at its effective address (45_load_store_transfer.md R263). -/
theorem storeMem_of_ok {m : MemMode} {s w : State} {ea : Word} {v : Byte} (he : effectiveAddress m s = .ok ea s)
    (hw : memWrite ea v s = .ok () w) : storeMem m v s = .ok () w := by
  simp only [storeMem, he, Res.bind_ok, hw]

end Sys2Proof.Machine
end

section
/-! PROOFS. Loads, stores and transfers (statements O36, O37 and O38). -/

namespace Sys2Proof.Machine

/-- Settles O36: the operand's read, then the load of the register; LAX writes X besides. -/
theorem loadResult : Obligations.LoadResult := by
  refine ⟨fun o s u m i g h hi => ?one, fun m s u v h => ?lax⟩
  case one =>
    obtain ⟨hb, hmem⟩ := readSource_busOnly h
    obtain ⟨t, hexec, hload⟩ : ∃ t, exec i s = .next t ∧ Loads m u g t := by
      obtain ⟨rfl, rfl⟩ | ⟨rfl, rfl⟩ | ⟨rfl, rfl⟩ := hi
      · exact ⟨_, Res.finish_update_of_ok h _, .a⟩
      · exact ⟨_, Res.finish_update_of_ok h _, .x⟩
      · exact ⟨_, Res.finish_update_of_ok h _, .y⟩
    exact ⟨t, hexec, hload.spec hb hmem⟩
  case lax =>
    obtain ⟨hb, hmem⟩ := readMem_busOnly h
    obtain ⟨hnz, hf, -⟩ := loadA_spec v hb
    exact ⟨_, Res.finish_update_of_ok h _, rfl, rfl, hnz, hf,
      .of_busOnly hb (.setX (.setP (.setA (.refl _ u) (by decide) v) (by decide) _) (by decide) v),
      .of_mem_eq hmem, rfl, rfl⟩

/-- Settles O37: the four instructions are one write at the effective address. -/
theorem storeResult : Obligations.StoreResult := by
  intro m s w ea v i he hw hi
  have hexec : exec i s = (storeMem m v s).finish := by
    obtain ⟨rfl, rfl⟩ | ⟨rfl, rfl⟩ | ⟨rfl, rfl⟩ | ⟨rfl, rfl⟩ := hi <;> rfl
  exact ⟨hexec.trans (congrArg Res.finish (storeMem_of_ok he hw)), (memWrite_busOnly hw).regs, memWrite_storesOnly hw⟩

/-- Settles O38: each transfer but TXS is the load of its destination with its source. -/
theorem transferResult : Obligations.TransferResult := by
  refine ⟨⟨rfl, rfl, rfl, rfl, rfl, rfl⟩, fun s i g v hi => ?_, fun s => rfl⟩
  obtain ⟨t, hexec, hload⟩ : ∃ t, exec i s = .next t ∧ Loads v s g t := by
    obtain ⟨rfl, rfl, rfl⟩ | ⟨rfl, rfl, rfl⟩ | ⟨rfl, rfl, rfl⟩ | ⟨rfl, rfl, rfl⟩ | ⟨rfl, rfl, rfl⟩ := hi
    · exact ⟨_, rfl, .x⟩
    · exact ⟨_, rfl, .y⟩
    · exact ⟨_, rfl, .a⟩
    · exact ⟨_, rfl, .a⟩
    · exact ⟨_, rfl, .x⟩
  exact ⟨t, hexec, hload.spec (.refl s) rfl⟩

end Sys2Proof.Machine
end

section
/-! SUPPORT. What the combined operations do after their memory write: the carry of a shift or rotate written to P, then
the load of A or the add (46_undocumented.md R280 to R283). -/

namespace Sys2Proof.Machine

/-- The bit a right shift drops, as a carry (42_shift_rotate_incdec.md R193). -/
theorem getLsbD_zero_toNat (v : Byte) : (v.getLsbD 0).toNat = v.toNat % 2 := by
  rw [BitVec.getLsbD, Nat.toNat_testBit, pow_zero, Nat.div_one]

/-- The same write of one flag before and after bus accesses. -/
theorem BusOnly.withFlag {s w : State} (h : BusOnly s w) (i : Nat) (b : Bool) :
    BusOnly (s.withFlag i b) (w.withFlag i b) :=
  congrArg (State.withFlag · i b) h

/-- A write of P before an update of registers that may write P leaves the frame of the update. -/
theorem OnlyRegs.of_setP {rs : List Reg} {s t : State} {v : Byte} (h : OnlyRegs rs (s.setP v) t) (hp : .p ∈ rs) :
    OnlyRegs rs s t := by
  obtain ⟨hregs, hrest⟩ := h
  refine ⟨fun g hg => (hregs g hg).trans ?_, hrest⟩
  cases g with
  | p => exact absurd hp hg
  | _ => rfl

/-- A write of one flag before a change of flags that may change that one leaves the frame of the change. -/
theorem OnlyFlags.of_withFlag {bits : List Nat} {s t : State} {i : Nat} {b : Bool}
    (h : OnlyFlags bits (s.withFlag i b) t) (hlt : i < 8) (hi : i ∈ bits) : OnlyFlags bits s t := fun j hj =>
  (h j hj).trans ((withFlag_spec hlt b s).2 j fun hmem => hj (List.mem_singleton.1 hmem ▸ hi))

/-- An update of registers after a store leaves memory as the store does. -/
theorem StoresOnly.of_mem_eq {ea : Word} {v : Byte} {s w t : State} (h : StoresOnly ea v s w) (hmem : t.mem = w.mem) :
    StoresOnly ea v s t := fun a => (peek_of_mem_eq hmem a).trans (h a)

/-- The carry written, then the load of A, after bus accesses: the flags are those of a shifter that gives the loaded
byte (42_shift_rotate_incdec.md R190). -/
theorem withFlag_loadA_spec {s w : State} (c : Bool) (r : Byte) (h : BusOnly s w) :
    let t := (w.withFlag bitC c).loadA r
    t.a = r ∧ t.p.getLsbD 0 = c ∧ ShowsNZ r t ∧ OnlyFlags [0, 1, 7] s t ∧ OnlyRegs [.a, .p] s t ∧ t.mem = w.mem ∧
      SameDevices w t := by
  obtain ⟨hc, hnz, hf⟩ := shiftFlags_spec (s := s) (w := w.setA r) ⟨r, c⟩ h.p_eq
  exact ⟨rfl, hc, hnz, hf, .of_busOnly h (.setP (.setA (.refl _ w) (by decide) r) (by decide) _), rfl, rfl, rfl⟩

/-- The carry written, then the add with it, after bus accesses (46_undocumented.md R283): the carry the add takes in is
the one written, not the one before the instruction. -/
theorem withFlag_addWithCarry_spec {s w : State} (c : Bool) (m : Byte) (h : BusOnly s w) :
    let sum := s.a.toNat + m.toNat + c.toNat
    let r : Byte := BitVec.ofNat 8 sum
    let t := (w.withFlag bitC c).addWithCarry m
    t.a = r ∧ ShowsNZ r t ∧ t.p.getLsbD 0 = decide (256 ≤ sum) ∧
      t.p.getLsbD 6 = (~~~(s.a ^^^ m) &&& (s.a ^^^ r)).getLsbD 7 ∧
      OnlyFlags [0, 1, 6, 7] s t ∧ OnlyRegs [.a, .p] s t ∧ t.mem = w.mem ∧ SameDevices w t := by
  have hcarry : (s.withFlag bitC c).p.getLsbD 0 = c := (withFlag_spec (by decide) c s).1
  have hadd := addWithCarry_spec m (h.withFlag bitC c)
  rw [hcarry] at hadd
  obtain ⟨ha, hnz, hc, hv, hf, hr, hmem, hd⟩ := hadd
  exact ⟨ha, hnz, hc, hv, hf.of_withFlag (by decide) (by decide), hr.of_setP (by decide), hmem, hd⟩

end Sys2Proof.Machine
end

section
/-! PROOFS. The undocumented operations (statements O16, O39, O40 and O41). -/

namespace Sys2Proof.Machine

/-- Settles O16: both instructions are the subtract of their byte, which no bus access changes. -/
theorem sbcDuplicateIsSbcImmediate : Obligations.SbcDuplicateIsSbcImmediate := by
  refine ⟨rfl, fun v s => ⟨rfl, ?_⟩⟩
  obtain ⟨t, hexec, ha, -⟩ := sbcResult (.imm v) s s v rfl
  have hsame : exec (.sbcU v) s = exec (.sbc (.imm v)) s := rfl
  exact ⟨t, hsame.trans hexec, hexec, ha⟩

/-- SLO, RLA and SRE are one read-modify-write over three shifters, the rotate's with the carry before the instruction,
and three combinations of the shifted byte with A (46_undocumented.md R280 to R282). -/
theorem exec_combinedShift {i : Instr} {m : MemMode} {s : State} {v r a : Byte} {c : Bool}
    (h : (i = .slo m ∧ r = BitVec.ofNat 8 (2 * v.toNat) ∧ c = v.getLsbD 7 ∧ a = s.a ||| r) ∨
      (i = .rla m ∧ r = BitVec.ofNat 8 (2 * v.toNat + (s.p.getLsbD 0).toNat) ∧ c = v.getLsbD 7 ∧ a = s.a &&& r) ∨
      (i = .sre m ∧ r = BitVec.ofNat 8 (v.toNat / 2) ∧ c = v.getLsbD 0 ∧ a = s.a ^^^ r)) :
    ∃ (f : Byte → ShiftOut) (combine : Byte → Byte → Byte),
      exec i s = (modifyMem m (fun v => (f v).value)
        (fun v t => (t.withFlag bitC (f v).carry).loadA (combine t.a (f v).value)) s).finish ∧
      (f v).value = r ∧ (f v).carry = c ∧ combine s.a r = a := by
  obtain ⟨rfl, rfl, rfl, rfl⟩ | ⟨rfl, rfl, rfl, rfl⟩ | ⟨rfl, rfl, rfl, rfl⟩ := h
  · exact ⟨shiftLeft, (· ||| ·), rfl, shiftLeft_value v, rfl, rfl⟩
  · exact ⟨(rotateLeft · s.carry), (· &&& ·), rfl, rotateLeft_value v s.carry, rfl, rfl⟩
  · exact ⟨shiftRight, (· ^^^ ·), rfl, shiftRight_value v, rfl, rfl⟩

/-- Settles O39: the read-modify-write with the shifter's byte, then its carry and the load of A. -/
theorem combinedShiftResult : Obligations.CombinedShiftResult := by
  intro m s u w ea v r a c i he hr hw hi
  obtain ⟨f, combine, hexec, hv, rfl, rfl⟩ := exec_combinedShift hi
  obtain ⟨hrun, hb, hst⟩ := modifyMem_spec he hr hw (fun v => (f v).value) hv
    (fun v t => (t.withFlag bitC (f v).carry).loadA (combine t.a (f v).value))
  simp only [hv, hb.a_eq] at hrun
  obtain ⟨ha, hc, hnz, hf, hregs, hmem, hd⟩ := withFlag_loadA_spec (f v).carry (combine s.a r) hb
  exact ⟨_, hexec.trans hrun, ha, hc, hnz, hf, hregs, hst.of_mem_eq hmem, hd⟩

/-- Settles O40: each instruction is the read-modify-write with its new byte, then the add, the subtract or the compare
of that byte. -/
theorem combinedArithmeticResult : Obligations.CombinedArithmeticResult := by
  intro m s u w ea v r he hr hw
  refine ⟨fun hnew => ?rra, fun hnew => ?isb, fun hnew => ?dcp⟩
  case rra =>
    have hv : (rotateRight v s.carry).value = r := (rotateRight_value v s.carry).trans hnew.symm
    obtain ⟨hrun, hb, hst⟩ := modifyMem_spec he hr hw (fun v => (rotateRight v s.carry).value) hv
      (fun v t => (t.withFlag bitC (rotateRight v s.carry).carry).addWithCarry (rotateRight v s.carry).value)
    rw [hv] at hrun
    rw [← getLsbD_zero_toNat]
    obtain ⟨ha, hnz, hc, hov, hf, hregs, hmem, hd⟩ := withFlag_addWithCarry_spec (v.getLsbD 0) r hb
    exact ⟨_, hrun, ha, hnz, hc, hov, hf, hregs, hst.of_mem_eq hmem, hd⟩
  case isb =>
    have hv : v + 1 = r := (add_one_eq_ofNat v).trans hnew.symm
    obtain ⟨hrun, hb, hst⟩ := modifyMem_spec he hr hw (· + 1) hv (fun v t => t.subWithCarry (v + 1))
    rw [hv] at hrun
    obtain ⟨ha, hnz, hc, hov, hf, hregs, hmem, hd⟩ := subWithCarry_spec r hb
    exact ⟨_, hrun, ha, hnz, hc, hov, hf, hregs, hst.of_mem_eq hmem, hd⟩
  case dcp =>
    have hv : v - 1 = r := (sub_one_eq_ofNat v).trans hnew.symm
    obtain ⟨hrun, hb, hst⟩ := modifyMem_spec he hr hw (· - 1) hv (fun v t => t.compareWith t.a (v - 1))
    rw [hv, hb.a_eq] at hrun
    obtain ⟨hc, hz, hn, hf, hregs, hmem, hd⟩ := compareWith_spec s.a r hb
    exact ⟨_, hrun, hc, hz, hn, hf, hregs, hst.of_mem_eq hmem, hd⟩

/-- The halting bytes are those that decode to a halting instruction, which is one byte long (30_encoding.md R116). -/
theorem decode_hlt_iff (op : Byte) (rest : List Byte) :
    decode (op :: rest) = .ok (.hlt op, rest) ↔ op ∈ haltingBytes := by
  refine ⟨fun hdec => List.elem_iff.1 (encodeOfDecode _ _ _ hdec).1, fun hmem => ?_⟩
  have hentry : tableEntry op 0 0 = .hlt op := tableEntry_halting op hmem
  have hcount : operandCount op = 0 := congrArg Instr.operandSize hentry
  simp only [decode, hcount, hentry]

/-- A halting opcode records its byte and the address before PC (46_undocumented.md R290). -/
theorem exec_hlt (op : Byte) (s : State) :
    exec (.hlt op) s = .next { s with halted := .halted (.unknownOpcode op (s.pc - 1)) } := rfl

/-- Settles O41: the decoder's list, the instruction's own effect, and that effect after the fetch of its one byte. -/
theorem haltingOpcodeHaltsExactly : Obligations.HaltingOpcodeHaltsExactly := by
  refine ⟨decode_hlt_iff, exec_hlt, fun op s t hrun hag hread hdec => ?step⟩
  case step =>
    have hentry : tableEntry op 0 0 = .hlt op := tableEntry_halting op ((decode_hlt_iff op []).1 hdec)
    rw [step_of_fetchInstr hrun hag (fetchInstr_halting hread hentry), exec_hlt, State.setPc_pc, BitVec.add_sub_cancel]
    rfl

end Sys2Proof.Machine
end

section
/-! SUPPORT. One equation for each access of the picture-unit port that is not a direction fault, and for each access of
the I/O region (48_bus_devices.md R310 to R346). -/

namespace Sys2Proof.Machine

section Port

variable {a : Word} (lo : 0x2000 ≤ a.toNat) (hi : a.toNat < 0x4000)
include lo hi

theorem region_of_ppu_range : region a = .ppu := by
  rw [region_eq_ranges, if_neg (by omega), if_pos hi]

/-- Every image of the register port is the port (48_bus_devices.md R310). -/
theorem memRead_ppu (s : State) : memRead a s = ppuRead a s := by
  simp only [memRead, region_of_ppu_range lo hi]

theorem memWrite_ppu (v : Byte) (s : State) : memWrite a v s = ppuWrite a v s := by
  simp only [memWrite, region_of_ppu_range lo hi]

end Port

section IoRegion

variable {a : Word} (lo : 0x4000 ≤ a.toNat) (hi : a.toNat < 0x4020)
include lo hi

theorem region_of_io_range : region a = .io := by
  rw [region_eq_ranges, if_neg (by omega), if_neg (by omega), if_pos hi]

theorem memRead_io (s : State) : memRead a s = ioRead a s := by
  simp only [memRead, region_of_io_range lo hi]

theorem memWrite_io (v : Byte) (s : State) : memWrite a v s = ioWrite a v s := by
  simp only [memWrite, region_of_io_range lo hi]

end IoRegion

section Accesses

variable {a : Word} (v : Byte) (s : State)

theorem ppuRead_status (h : a.toNat % 8 = 2) :
    ppuRead a s = .ok s.ppu.status (s.setPpu s.ppu.afterStatusRead) := by
  simp only [ppuRead, mask_ppu, h]

theorem ppuRead_oam (h : a.toNat % 8 = 4) :
    ppuRead a s = .ok (s.ppu.oam.read s.ppu.oamaddr.toNat) (s.setPpu s.ppu.afterOamRead) := by
  simp only [ppuRead, mask_ppu, h]

theorem ppuRead_data (h : a.toNat % 8 = 7) : ppuRead a s = .ok s.ppu.readbuf (s.setPpu (afterDataRead s)) := by
  simp only [ppuRead, mask_ppu, h]

theorem ppuWrite_ctrl (h : a.toNat % 8 = 0) : ppuWrite a v s = .ok () (s.setPpu { s.ppu with ctrl := v }) := by
  simp only [ppuWrite, mask_ppu, h]

theorem ppuWrite_mask (h : a.toNat % 8 = 1) : ppuWrite a v s = .ok () (s.setPpu { s.ppu with mask := v }) := by
  simp only [ppuWrite, mask_ppu, h]

theorem ppuWrite_oamaddr (h : a.toNat % 8 = 3) :
    ppuWrite a v s = .ok () (s.setPpu { s.ppu with oamaddr := v }) := by
  simp only [ppuWrite, mask_ppu, h]

theorem ppuWrite_oam (h : a.toNat % 8 = 4) : ppuWrite a v s = .ok () (s.setPpu (s.ppu.writeOam v)) := by
  simp only [ppuWrite, mask_ppu, h]

theorem ppuWrite_scroll (h : a.toNat % 8 = 5) : ppuWrite a v s = .ok () (s.setPpu (s.ppu.writeScroll v)) := by
  simp only [ppuWrite, mask_ppu, h]

theorem ppuWrite_addr (h : a.toNat % 8 = 6) : ppuWrite a v s = .ok () (s.setPpu (s.ppu.writeAddr v)) := by
  simp only [ppuWrite, mask_ppu, h]

theorem ppuWrite_data (h : a.toNat % 8 = 7) : ppuWrite a v s = .ok () (s.setPpu (writeData s v)) := by
  simp only [ppuWrite, mask_ppu, h]

/-- A write of the I/O region beside the strobe register is ignored (48_bus_devices.md R345). -/
theorem ioWrite_misc (h : a.toNat % 32 ≠ 0x16) : ioWrite a v s = .ok () s := by
  unfold ioWrite
  rw [mask_io]
  split
  · next hstrobe => exact absurd hstrobe h
  · rfl

/-- A read of the I/O region beside the controllers gives the parameter (48_bus_devices.md R345). -/
theorem ioRead_misc (h0 : a.toNat % 32 ≠ 0x16) (h1 : a.toNat % 32 ≠ 0x17) :
    ioRead a s = .ok s.params.miscIoRead s := by
  unfold ioRead
  rw [mask_io]
  split
  · next hpad0 => exact absurd hpad0 h0
  · next hpad1 => exact absurd hpad1 h1
  · rfl

end Accesses

section Controllers

variable (s : State) (k : Ctl) {v : Byte}

theorem memWrite_strobe (v : Byte) : memWrite 0x4016 v s = .ok () (s.setCtl (s.ctl.writeStrobe v)) := rfl

theorem memRead_pad0 :
    memRead 0x4016 s = .ok (lineByte (s.ctl.pad0.current s.ctl.strobe))
      (s.setCtl { s.ctl with pad0 := s.ctl.pad0.advance s.ctl.strobe }) := rfl

theorem memRead_pad1 :
    memRead 0x4017 s = .ok (lineByte (s.ctl.pad1.current s.ctl.strobe))
      (s.setCtl { s.ctl with pad1 := s.ctl.pad1.advance s.ctl.strobe }) := rfl

theorem Ctl.writeStrobe_one (h : v.getLsbD 0 = true) :
    k.writeStrobe v =
      { strobe := true, pad0 := { k.pad0 with index := 0 }, pad1 := { k.pad1 with index := 0 } } := if_pos h

theorem Ctl.writeStrobe_zero (h : v.getLsbD 0 = false) : k.writeStrobe v = { k with strobe := false } :=
  if_neg (Bool.eq_false_iff.1 h)

end Controllers

end Sys2Proof.Machine
end

section
/-! PROOFS. The picture unit's register port (statements O46, O47, O48 and O49). -/

namespace Sys2Proof.Machine

section Toggle

variable {u : Ppu} (v : Byte)

theorem Ppu.writeScroll_first (h : u.toggle = false) :
    u.writeScroll v = { u with scroll0 := v, toggle := true } := if_neg (Bool.eq_false_iff.1 h)

theorem Ppu.writeScroll_second (h : u.toggle = true) :
    u.writeScroll v = { u with scroll1 := v, toggle := false } := if_pos h

/-- The first address write takes the high byte and keeps the low one (48_bus_devices.md R319). -/
theorem Ppu.writeAddr_first (h : u.toggle = false) :
    u.writeAddr v = { u with vaddr := BitVec.ofNat 16 (256 * v.toNat + u.vaddr.toNat % 256), toggle := true } := by
  have hlow : hiLo v (loByte u.vaddr) = BitVec.ofNat 16 (256 * v.toNat + u.vaddr.toNat % 256) := by
    rw [hiLo_eq_ofNat, loByte_eq_ofNat, BitVec.toNat_ofNat, Nat.mod_mod, Nat.add_comm]
  rw [← hlow]
  exact if_neg (Bool.eq_false_iff.1 h)

/-- The second address write keeps the high byte and takes the low one (48_bus_devices.md R319). -/
theorem Ppu.writeAddr_second (h : u.toggle = true) :
    u.writeAddr v =
      { u with vaddr := BitVec.ofNat 16 (u.vaddr.toNat / 256 * 256 + v.toNat), toggle := false } := by
  have hhigh : hiLo (hiByte u.vaddr) v = BitVec.ofNat 16 (u.vaddr.toNat / 256 * 256 + v.toNat) := by
    have hlt := u.vaddr.isLt
    rw [hiLo_eq_ofNat, hiByte_eq_ofNat, BitVec.toNat_ofNat, Nat.mod_eq_of_lt (by omega)]
    congr 1
    omega
  rw [← hhigh]
  exact if_pos h

end Toggle

/-- Settles O46: each register's write, by its number and, for the write-twice registers, by the toggle. -/
theorem ppuRegisterWrites : Obligations.PpuRegisterWrites := by
  intro a v s lo hi done
  simp only [done, memWrite_ppu lo hi]
  refine ⟨ppuWrite_ctrl v s, ppuWrite_mask v s, ppuWrite_oamaddr v s, fun h ht => ?scroll0, fun h ht => ?scroll1,
    fun h ht => ?addrHigh, fun h ht => ?addrLow⟩
  case scroll0 => rw [ppuWrite_scroll v s h, Ppu.writeScroll_first v ht]; rfl
  case scroll1 => rw [ppuWrite_scroll v s h, Ppu.writeScroll_second v ht]; rfl
  case addrHigh => rw [ppuWrite_addr v s h, Ppu.writeAddr_first v ht]; rfl
  case addrLow => rw [ppuWrite_addr v s h, Ppu.writeAddr_second v ht]; rfl

/-- The mask 0x7F clears bit 7 alone. -/
theorem getLsbD_and_0x7F (b : Byte) (i : Nat) : (b &&& 0x7F).getLsbD i = (b.getLsbD i && decide (i ≠ 7)) := by
  rw [BitVec.getLsbD_and]
  by_cases h : i < 8
  · have hmask : ∀ j < 8, (0x7F : Byte).getLsbD j = decide (j ≠ 7) := by decide
    rw [hmask i h]
  · rw [BitVec.getLsbD_of_ge b i (by omega), Bool.false_and, Bool.false_and]

/-- In every state the machine keeps, the status byte is the vertical-blank flag alone (10_state.md R40). -/
theorem Inv.status_eq {s : State} (h : Inv s) : s.ppu.status = 0x80 ∨ s.ppu.status = 0x00 := by
  have key : ∀ b : Byte, (∀ i < 7, b.getLsbD i = false) → b = 0x80 ∨ b = 0x00 := by decide
  exact key _ h.status

/-- Once the flag is cleared, the status byte of a state the machine keeps is 0. -/
theorem Inv.status_and_0x7F {s : State} (h : Inv s) : s.ppu.status &&& 0x7F = 0x00 := by
  obtain h | h := h.status_eq <;> rw [h] <;> decide

/-- Settles O47: the read masks bit 7 off, and the second read finds the masked byte. -/
theorem statusRead : Obligations.StatusRead := by
  intro a s lo hi h
  have read (s : State) : memRead a s = .ok s.ppu.status (s.setPpu s.ppu.afterStatusRead) :=
    (memRead_ppu lo hi s).trans (ppuRead_status s h)
  refine ⟨_, read s, rfl, getLsbD_and_0x7F s.ppu.status, Inv.status_eq, fun hs => ?second⟩
  case second =>
    have hzero : (s.setPpu s.ppu.afterStatusRead).ppu.status = 0x00 := hs.status_and_0x7F
    rw [read, hzero]
    exact ⟨_, rfl⟩

/-- Settles O48: both accesses move the address on, and the write is one write of sprite memory. -/
theorem oamPort : Obligations.OamPort := by
  intro a v s lo hi h next
  have hnext : s.ppu.oamaddr + 1 = next := add_one_eq_ofNat s.ppu.oamaddr
  rw [memRead_ppu lo hi, memWrite_ppu lo hi, ppuRead_oam s h, ppuWrite_oam v s h, ← hnext]
  exact ⟨rfl, _, rfl, rfl, Memory.read_write s.ppu.oam _ v⟩

/-- The pointer after an access of the data port (48_bus_devices.md R320). -/
theorem Ppu.vaddr_add_increment (u : Ppu) :
    u.vaddr + u.increment = BitVec.ofNat 16 (u.vaddr.toNat + if u.ctrl.getLsbD 2 then 32 else 1) := by
  unfold Ppu.increment
  split <;> bv_omega

theorem paletteIndex_val (g : GfxAddr) :
    (paletteIndex g).val =
      if g.toNat % 32 = 4 ∨ g.toNat % 32 = 8 ∨ g.toNat % 32 = 12 then 0 else g.toNat % 32 := by
  have key : ∀ i : Fin 32, (palSlot i).val = if i.val = 4 ∨ i.val = 8 ∨ i.val = 12 then 0 else i.val := by decide
  exact key (Fin.ofNat 32 g.toNat)

/-- A palette write changes the entry its slot names, to the low six bits of the byte (20_memory.md R87). -/
theorem gfxWrite_palette_get {g : GfxAddr} (h : 0x3F00 ≤ g.toNat) (s : State) (v : Byte) :
    (gfxWrite s g v).gfx = s.ppu.gfx ∧
      ∀ (i : Nat) (hi : i < 32), (gfxWrite s g v).pal[i] =
        if i = (paletteIndex g).val then BitVec.ofNat 6 v.toNat else s.ppu.pal[i] := by
  rw [gfxWrite_palette h]
  refine ⟨rfl, fun i hi => ?_⟩
  simp only [Vector.getElem_set, eq_comm (a := i)]
  rfl

/-- A write below the palette changes the byte its window shows (20_memory.md R87). -/
theorem gfxWrite_store_read {g : GfxAddr} (h : ¬0x3F00 ≤ g.toNat) (s : State) (v : Byte) :
    (gfxWrite s g v).pal = s.ppu.pal ∧
      ∀ k, (gfxWrite s g v).gfx.read k = if k = gfxKey s.params.gfxBank g then v else s.ppu.gfx.read k := by
  rw [gfxWrite_store h]
  exact ⟨rfl, Memory.read_write s.ppu.gfx _ v⟩

/-- A graphics write leaves every field but the palette and the stores. -/
theorem gfxWrite_frame (s : State) (g : GfxAddr) (v : Byte) :
    gfxWrite s g v = { s.ppu with gfx := (gfxWrite s g v).gfx, pal := (gfxWrite s g v).pal } := by
  by_cases h : 0x3F00 ≤ g.toNat
  · rw [gfxWrite_palette h]
  · rw [gfxWrite_store h]

/-- Settles O49: the write is one graphics write at the pointer, by whether that lies in the palette or in a store; the
read leaves the byte there in the buffer, where a second read finds it. -/
theorem dataPort : Obligations.DataPort := by
  intro a v s lo hi h g next slot key
  have hnext : s.ppu.vaddr + s.ppu.increment = next := s.ppu.vaddr_add_increment
  have haddr : s.ppu.dataAddr = g := rfl
  have hslot : (paletteIndex g).val = slot := paletteIndex_val g
  have read (s : State) : memRead a s = .ok s.ppu.readbuf (s.setPpu (afterDataRead s)) :=
    (memRead_ppu lo hi s).trans (ppuRead_data s h)
  refine ⟨⟨s.setPpu (writeData s v), (memWrite_ppu lo hi v s).trans (ppuWrite_data v s h), ?frame,
    fun hg => ?palette, fun hg => ?store⟩, _, read s, ?refill, _, read _⟩
  case frame =>
    rw [State.setPpu_ppu, writeData, haddr, hnext, gfxWrite_frame]
    rfl
  case palette =>
    rw [← hslot]
    exact gfxWrite_palette_get hg s v
  case store => exact gfxWrite_store_read (not_le.2 hg) s v
  case refill =>
    rw [afterDataRead, haddr, hnext]
    rfl

end Sys2Proof.Machine
end

section
/-! PROOFS. The I/O region (statements O51, O52 and O53). -/

namespace Sys2Proof.Machine

/-- Settles O51: the strobe write by its bit 0, the reads by the strobe. -/
theorem controllerPort : Obligations.ControllerPort := by
  intro v s
  refine ⟨fun h => ?zero, fun h => ?one, fun h => ?strobing, fun h => ?shifting⟩
  case zero => rw [memWrite_strobe, Ctl.writeStrobe_zero s.ctl h]; rfl
  case one => rw [memWrite_strobe, Ctl.writeStrobe_one s.ctl h]; rfl
  case strobing =>
    rw [memRead_pad0, memRead_pad1, h]
    exact ⟨rfl, rfl⟩
  case shifting =>
    rw [memRead_pad0, memRead_pad1, h]
    exact ⟨rfl, rfl⟩

/-- While the strobe is 0, a read of `a` gives the indexed line of the one controller and moves on its index alone; the
other controller stays (48_bus_devices.md R342). -/
def ShiftsOut (a : Word) (pad other : Ctl → Pad) : Prop :=
  ∀ s : State, s.ctl.strobe = false → ∃ t,
    memRead a s = .ok (if (pad s.ctl).line.get (pad s.ctl).index then 1 else 0) t ∧ t.ctl.strobe = false ∧
      pad t.ctl = { pad s.ctl with index := (pad s.ctl).index + 1 } ∧ other t.ctl = other s.ctl

theorem shiftsOut_pad0 : ShiftsOut 0x4016 Ctl.pad0 Ctl.pad1 := by
  intro s h
  obtain ⟨-, -, -, shifting⟩ := controllerPort 0 s
  exact ⟨_, (shifting h).1, h, rfl, rfl⟩

theorem shiftsOut_pad1 : ShiftsOut 0x4017 Ctl.pad1 Ctl.pad0 := by
  intro s h
  obtain ⟨-, -, -, shifting⟩ := controllerPort 0 s
  exact ⟨_, (shifting h).2, h, rfl, rfl⟩

theorem ofNat_eight_add_one (i : Nat) : Fin.ofNat 8 i + 1 = Fin.ofNat 8 (i + 1) := by
  apply Fin.ext
  simp only [Fin.val_add, Fin.val_ofNat]
  omega

/-- From the index `i` on, `n` reads give the lines `i` to `i + n - 1`, numbered modulo 8 (48_bus_devices.md R344). -/
theorem ShiftsOut.repeatRead {a : Word} {pad other : Ctl → Pad} (ha : ShiftsOut a pad other) (line : Vector Bool 8)
    (n i : Nat) (s : State) (hs : s.ctl.strobe = false) (hpad : pad s.ctl = ⟨Fin.ofNat 8 i, line⟩) :
    ∃ t, repeatRead a n s =
        .ok ((List.range' i n).map fun k => if line.get (Fin.ofNat 8 k) then 1 else 0) t ∧
      other t.ctl = other s.ctl := by
  induction n generalizing i s with
  | zero => exact ⟨s, rfl, rfl⟩
  | succ n ih =>
    obtain ⟨u, hread, hu, hpadu, hotheru⟩ := ha s hs
    rw [hpad] at hread hpadu
    obtain ⟨t, hrest, hothert⟩ := ih (i + 1) u hu (hpadu.trans (by rw [ofNat_eight_add_one]))
    refine ⟨t, ?_, hothert.trans hotheru⟩
    simp only [Machine.repeatRead, hread, hrest, Res.bind_ok, List.range'_succ, List.map_cons]

/-- Settles O52: the two writes leave the strobe 0 and both indices 0, and the reads shift the lines out from there. -/
theorem controllerSequence : Obligations.ControllerSequence := by
  intro one zero n s h1 h0
  obtain ⟨-, strobe, -⟩ := controllerPort one s
  rw [strobe h1, Res.bind_ok, List.range_eq_range']
  obtain ⟨release, -⟩ := controllerPort zero _
  exact ⟨_, release h0, shiftsOut_pad0.repeatRead s.ctl.pad0.line n 0 _ rfl rfl,
    shiftsOut_pad1.repeatRead s.ctl.pad1.line n 0 _ rfl rfl⟩

/-- Settles O53: outside the controller port the I/O region ignores writes and reads the parameter. -/
theorem miscIoRegisters : Obligations.MiscIoRegisters := by
  intro a v s lo hi
  rw [memRead_io lo hi, memWrite_io lo hi]
  exact ⟨fun h => ioWrite_misc v s (by omega), fun h0 h1 => ioRead_misc s (by omega) (by omega)⟩

end Sys2Proof.Machine
end

section
/-! SUPPORT. The step by the turn at the head of the agenda, and each operation of the frame sequencer by the state it
finds (60_exceptions.md R380, R401 to R404). -/

namespace Sys2Proof.Machine

section Turns

variable {s : State} {rest : List Turn}

theorem step_of_agenda_nil (h : s.agenda = []) : step s = cpuStep s := by
  simp only [step, takeTurn, h]

theorem step_of_agenda_cpu (h : s.agenda = .cpu :: rest) : step s = cpuStep (s.setAgenda rest) := by
  simp only [step, takeTurn, h]

theorem step_of_agenda_host {op : HostOp} (h : s.agenda = .host op :: rest) :
    step s = runHost op (s.setAgenda rest) := by
  simp only [step, takeTurn, h]

end Turns

section Halted

variable {s : State} {c : Cause} (h : s.halted = .halted c)
include h

theorem cpuStep_halted : cpuStep s = .fault (.halted c) := by
  simp only [cpuStep, h]

theorem frameEvent_halted : frameEvent s = .refused (.whileHalted c) := by
  simp only [frameEvent, h]

theorem refreshSnapshot_halted : refreshSnapshot s = .refused (.whileHalted c) := by
  simp only [refreshSnapshot, h]

/-- Of the operations of the frame sequencer, reset alone leads a halted machine back to running (60_exceptions.md
R404). -/
theorem runHost_halted_of_ne_reset {op : HostOp} {t : State} (hop : op ≠ .reset) (e : runHost op s = .next t) :
    t.halted = .halted c := by
  cases op with
  | frameEvent => cases (frameEvent_halted h).symm.trans e
  | refreshSnapshot => cases (refreshSnapshot_halted h).symm.trans e
  | setLine i l b =>
    obtain ⟨l0, l1, rfl⟩ := setControllerLine_eq e
    exact h
  | reset => exact absurd rfl hop

end Halted

section Running

variable {s : State} (h : s.halted = .running)
include h

/-- With the enable bit 0 the frame event sets the flag alone (60_exceptions.md R401). -/
theorem frameEvent_disabled (hctrl : s.ppu.ctrl.getLsbD 7 = false) :
    frameEvent s = .next (s.setPpu s.ppu.raiseBlank) := by
  unfold frameEvent
  rw [h]
  exact if_neg (Bool.eq_false_iff.1 hctrl)

/-- With the enable bit 1 it sets the flag and takes the hook (60_exceptions.md R389, R401). -/
theorem frameEvent_enabled (hctrl : s.ppu.ctrl.getLsbD 7 = true) :
    frameEvent s = (nmiHook (s.setPpu s.ppu.raiseBlank)).finish := by
  unfold frameEvent
  rw [h]
  exact if_pos hctrl

theorem refreshSnapshot_running : refreshSnapshot s = .next (s.setPpu { s.ppu with snap := snapshotOf s }) := by
  simp only [refreshSnapshot, h]

end Running

/-- A word of memory is read with no side effect (20_memory.md R81). -/
theorem memRead16_of_peek {a : Word} {s : State} {lo hi : Byte} (hlo : s.peek a = some lo)
    (hhi : s.peek (a + 1) = some hi) : memRead16 a s = .ok (hiLo hi lo) s := by
  simp only [memRead16, memRead_of_peek hlo, memRead_of_peek hhi, Res.bind_ok]

/-- Reset goes to the word at 0xFFFC (70_reset_and_hazards.md R420). -/
theorem resetMachine_of_peek {s : State} {lo hi : Byte} (hlo : s.peek 0xFFFC = some lo)
    (hhi : s.peek 0xFFFD = some hi) : resetMachine s = .next (s.resetRegisters.setPc (hiLo hi lo)) :=
  Res.finish_update_of_ok (memRead16_of_peek (s := s.resetRegisters) hlo hhi) _

/-- The slot of entry `i` of the snapshot: 4, 8 and 12 show entry 0 (10_state.md R49). -/
theorem palSlot_castLE (i : Fin 16) :
    palSlot (Fin.castLE (by decide) i) =
      Fin.ofNat 32 (if i.val = 4 ∨ i.val = 8 ∨ i.val = 12 then 0 else i.val) := by
  revert i; decide

/-- Entry `i` of the snapshot is the master palette's colour of its slot (10_state.md R49). -/
theorem snapshotOf_getElem (s : State) (i : Nat) (h : i < 16) :
    (snapshotOf s)[i] = s.params.masterPalette.get (Fin.ofNat 64
      (s.ppu.pal.get (Fin.ofNat 32 (if i = 4 ∨ i = 8 ∨ i = 12 then 0 else i))).toNat) := by
  rw [snapshotOf, Vector.getElem_ofFn, palSlot_castLE]

/-- The lines of a controller after one is set (60_exceptions.md R403). -/
theorem Pad.setLine_getElem (d : Pad) (l : Fin 8) (b : Bool) (j : Nat) (hj : j < 8) :
    (d.setLine l b).line[j] = if j = l.val then b else d.line[j] := by
  simp only [Pad.setLine, Vector.getElem_set, eq_comm]

section Lines

variable {l : Nat} (h : l < 8) (b : Bool) (s : State)

theorem setControllerLine_pad0 :
    setControllerLine 0 l b s = .next (s.setCtl { s.ctl with pad0 := s.ctl.pad0.setLine ⟨l, h⟩ b }) := dif_pos h

theorem setControllerLine_pad1 :
    setControllerLine 1 l b s = .next (s.setCtl { s.ctl with pad1 := s.ctl.pad1.setLine ⟨l, h⟩ b }) := dif_pos h

end Lines

/-- Any other controller or line number is refused (60_exceptions.md R403). -/
theorem setControllerLine_refused {c l : Nat} (h : ¬(c < 2 ∧ l < 8)) (b : Bool) (s : State) :
    setControllerLine c l b s = .refused (.noSuchLine c l) := by
  unfold setControllerLine
  split
  · split
    · omega
    · omega
    · rfl
  · rfl

end Sys2Proof.Machine
end

section
/-! PROOFS. The halted state, reset, the snapshot refresh and the controller lines (statements O8, O54, O55 and O56). -/

namespace Sys2Proof.Machine

/-- Settles O8: a halted machine has no CPU step and no frame event, and of the other turns only a reset sets it
running. -/
theorem haltIsLeftOnlyByReset : Obligations.HaltIsLeftOnlyByReset := by
  intro s c hc
  have hag (rest : List Turn) : (s.setAgenda rest).halted = .halted c := hc
  refine ⟨fun ha => ?empty, fun rest ha => ?cpu, fun rest ha => ?frameEvent, fun t e hrun => ?left⟩
  case empty => rw [step_of_agenda_nil ha, cpuStep_halted hc]
  case cpu => rw [step_of_agenda_cpu ha, cpuStep_halted (hag rest)]
  case frameEvent => exact (step_of_agenda_host ha).trans (frameEvent_halted (hag rest))
  case left =>
    obtain ⟨-, e⟩ | ⟨op, rest, ha, e⟩ := step_cases e
    · cases (cpuStep_halted (hag _)).symm.trans e
    · by_cases hop : op = .reset
      · exact ⟨rest, hop ▸ ha⟩
      · cases (runHost_halted_of_ne_reset (hag rest) hop e).symm.trans hrun

/-- Settles O54: the registers are written, then PC is read from the vector, which no write of theirs moves. -/
theorem resetResult : Obligations.ResetResult := by
  refine ⟨fun s rest lo hi ha hlo hhi => ?_, rfl, rfl, rfl, rfl, rfl⟩
  have hreset : resetMachine (s.setAgenda rest) = .next ((s.setAgenda rest).resetRegisters.setPc (hiLo hi lo)) :=
    resetMachine_of_peek hlo hhi
  rw [← hiLo_eq_ofNat]
  exact (step_of_agenda_host ha).trans hreset

/-- Settles O55: the refresh writes the snapshot alone, entry by entry. -/
theorem snapshotRefreshResult : Obligations.SnapshotRefreshResult := by
  intro s rest hrun ha
  have hentry := snapshotOf_getElem (s.setAgenda rest)
  have h0 := hentry 0 (by decide)
  exact ⟨_, (step_of_agenda_host ha).trans (refreshSnapshot_running hrun), rfl, hentry,
    (hentry 4 (by decide)).trans h0.symm, (hentry 8 (by decide)).trans h0.symm, (hentry 12 (by decide)).trans h0.symm⟩

/-- Settles O56: by the controller's number; whether the machine is halted is not read. -/
theorem setControllerLineResult : Obligations.SetControllerLineResult := by
  intro s rest c l b ha
  rw [step_of_agenda_host ha]
  refine ⟨fun hc hl => ?set, fun h => setControllerLine_refused h b _⟩
  case set =>
    obtain rfl | rfl : c = 0 ∨ c = 1 := by omega
    · refine ⟨_, setControllerLine_pad0 hl b _, rfl, fun j hj => ?_, fun j hj => ?_⟩
      · exact (Pad.setLine_getElem _ _ b j hj).trans (by simp)
      · simp
    · refine ⟨_, setControllerLine_pad1 hl b _, rfl, fun j hj => ?_, fun j hj => ?_⟩
      · simp
      · exact (Pad.setLine_getElem _ _ b j hj).trans (by simp)

end Sys2Proof.Machine
end

section
/-! PROOFS. The frame event, and the return from an interrupt entry (statements O30 and O31). -/

namespace Sys2Proof.Machine

/-- Settles O30: the flag alone, or the flag and an interrupt entry through the vector at 0xFFFA, returning to PC. -/
theorem frameEventResult : Obligations.FrameEventResult := by
  intro s rest lo hi hrun ha hlo hhi flagged
  rw [step_of_agenda_host ha]
  refine ⟨frameEvent_disabled (s := s.setAgenda rest) hrun, fun hctrl => ?_⟩
  obtain ⟨t, he, hhigh, hlow, hp, hmem, hsp, hpc, hI, hflags, hregs, hppu, hctl⟩ :=
    enterInterrupt_spec ((s.setAgenda rest).setPpu s.ppu.raiseBlank) s.pc (pushedByHook s.p) Config.vecNmi lo hi
      (by decide) (by decide) hlo hhi
  have hevent : frameEvent (s.setAgenda rest) = .next t :=
    (frameEvent_enabled (s := s.setAgenda rest) hrun hctrl).trans (congrArg Res.finish he)
  exact ⟨t, hevent, hhigh, hlow, hp, hmem, hsp, hpc, hI, hflags, hregs, hppu, hctl⟩

/-- After an interrupt entry, RTI finds the three bytes pushed: it goes to the return address with SP back, and P is
the pushed status as a pull leaves it (60_exceptions.md R394). -/
theorem exec_rti_after_entry (ret : Word) (status : Byte) {vector : Word} (s : State)
    (h : region vector = .program) (h' : region (vector + 1) = .program) :
    ∃ t m, (enterInterrupt ret status vector s).finish = .next t ∧
      exec .rti t = .next (((s.setMem m).setP (pulledStatus status)).setPc ret) := by
  obtain ⟨m, hm, he⟩ := enterInterrupt_eq ret status vector s h h'
  obtain ⟨hhi, hlo, hst⟩ := read_three s.mem (stackSlots_ne s.sp) (hiByte ret) (loByte ret) status
  rw [← hm] at hhi hlo hst
  refine ⟨_, m, congrArg Res.finish he, (congrArg Res.finish (returnFromInterrupt_eq _)).trans ?_⟩
  simp only [State.setPc_sp, State.setP_sp, State.setSp_sp, State.setPc_mem, State.setP_mem, State.setSp_mem,
    State.setMem_mem, BitVec.sub_add_cancel, hhi, hlo, hst, hiLo_hiByte_loByte]
  rfl

/-- Whether Break was pushed as 1 or as it stood, the pull clears it (60_exceptions.md R394). -/
theorem pulledStatus_pushed (p : Byte) :
    pulledStatus (pushedByInstruction p) = (p ||| 0x20) &&& 0xEF ∧
      pulledStatus (pushedByHook p) = (p ||| 0x20) &&& 0xEF := by
  revert p; decide

/-- Settles O31: BRK and the hook are two interrupt entries, with their own return address and pushed status. -/
theorem interruptThenRti : Obligations.InterruptThenRti := by
  intro s
  obtain ⟨hbrk, hhook⟩ := pulledStatus_pushed s.p
  constructor
  case left =>
    obtain ⟨t, m, he, hrti⟩ := exec_rti_after_entry (s.pc + 1) (pushedByInstruction s.p) (vector := Config.vecBrk) s
      (by decide) (by decide)
    exact ⟨t, _, he, hrti, rfl, rfl, hbrk, .setPc (.setP (.refl _ s) (by decide) _) (by decide) _⟩
  case right =>
    obtain ⟨t, m, he, hrti⟩ := exec_rti_after_entry s.pc (pushedByHook s.p) (vector := Config.vecNmi) s
      (by decide) (by decide)
    exact ⟨t, _, he, hrti, rfl, rfl, hhook, .setP (.refl _ s) (by decide) _⟩

end Sys2Proof.Machine
end

section
/-! PROOFS. Direction faults of the picture-unit port (statement O45). -/

namespace Sys2Proof.Machine

section Directions

variable {a : Word} (s : State) (lo : 0x2000 ≤ a.toNat) (hi : a.toNat < 0x4000)
include lo hi

theorem memRead_ppu_fatal (h : ¬(a.toNat % 8 = 2 ∨ a.toNat % 8 = 4 ∨ a.toNat % 8 = 7)) :
    memRead a s = .fatal (.ppuPortDirection .read a) s := by
  rw [memRead_ppu lo hi]
  unfold ppuRead
  rw [mask_ppu]
  split
  · omega
  · omega
  · omega
  · rfl

theorem memRead_ppu_completes (h : a.toNat % 8 = 2 ∨ a.toNat % 8 = 4 ∨ a.toNat % 8 = 7) :
    ∃ w t, memRead a s = .ok w t := by
  rw [memRead_ppu lo hi]
  obtain h | h | h := h
  · exact ⟨_, _, ppuRead_status s h⟩
  · exact ⟨_, _, ppuRead_oam s h⟩
  · exact ⟨_, _, ppuRead_data s h⟩

theorem memRead_ppu_status (h : a.toNat % 8 = 2) :
    memRead a s = .ok s.ppu.status (s.setPpu s.ppu.afterStatusRead) :=
  (memRead_ppu lo hi s).trans (ppuRead_status s h)

theorem memWrite_ppu_fatal (v : Byte) (h : a.toNat % 8 = 2) :
    memWrite a v s = .fatal (.ppuPortDirection .write a) s := by
  simp only [memWrite_ppu lo hi, ppuWrite, mask_ppu, h]

theorem memWrite_ppu_completes (v : Byte) (h : a.toNat % 8 ≠ 2) : ∃ t, memWrite a v s = .ok () t := by
  rw [memWrite_ppu lo hi]
  obtain h | h | h | h | h | h | h : a.toNat % 8 = 0 ∨ a.toNat % 8 = 1 ∨ a.toNat % 8 = 3 ∨ a.toNat % 8 = 4 ∨
      a.toNat % 8 = 5 ∨ a.toNat % 8 = 6 ∨ a.toNat % 8 = 7 := by omega
  · exact ⟨_, ppuWrite_ctrl v s h⟩
  · exact ⟨_, ppuWrite_mask v s h⟩
  · exact ⟨_, ppuWrite_oamaddr v s h⟩
  · exact ⟨_, ppuWrite_oam v s h⟩
  · exact ⟨_, ppuWrite_scroll v s h⟩
  · exact ⟨_, ppuWrite_addr v s h⟩
  · exact ⟨_, ppuWrite_data v s h⟩

end Directions

/-- A read of register 2 leaves the flag and the toggle 0 (48_bus_devices.md R314). -/
theorem Ppu.afterStatusRead_cleared (u : Ppu) :
    u.afterStatusRead.status.getLsbD 7 = false ∧ u.afterStatusRead.toggle = false :=
  ⟨(getLsbD_and_0x7F u.status 7).trans (Bool.and_false _), rfl⟩

/-- A read-modify-write of register 2 reads it, and halts at its write (60_exceptions.md R384). -/
theorem modifiers_halt_at_status {m : MemMode} {s : State} {ea : Word} (he : effectiveAddress m s = .ok ea s)
    (lo : 0x2000 ≤ ea.toNat) (hi : ea.toNat < 0x4000) (h : ea.toNat % 8 = 2) {i : Instr} (hmod : i ∈ modifiersAt m) :
    HaltsWith (.ppuPortDirection .write ea) (s.setPpu s.ppu.afterStatusRead) (exec i s) := by
  obtain ⟨new, after, e⟩ := exec_of_mem_modifiersAt hmod s
  rw [e]
  exact .finish (modifyMem_fatal_write he after (memRead_ppu_status s lo hi h) (memWrite_ppu_fatal _ lo hi _ h))

/-- The second pointer read of an indirect jump stays in the port, one register on (40_dispatch_addressing.md R154). -/
theorem indirectHigh_ppu {p : Word} (lo : 0x2000 ≤ p.toNat) (hi : p.toNat < 0x4000) :
    0x2000 ≤ (indirectHigh p).toNat ∧ (indirectHigh p).toNat < 0x4000 ∧
      (indirectHigh p).toNat % 8 = (p.toNat + 1) % 8 := by
  rw [indirectHigh_eq_ofNat, BitVec.toNat_ofNat, Nat.mod_eq_of_lt (by omega)]
  omega

/-- Through register 2, 4 or 7 the jump's second read is one of register 3, 5 or 0, which is fatal. -/
theorem jmp_halts_at_second_ppu_read {p : Word} {s : State} (lo : 0x2000 ≤ p.toNat) (hi : p.toNat < 0x4000)
    (h : p.toNat % 8 = 2 ∨ p.toNat % 8 = 4 ∨ p.toNat % 8 = 7) :
    ∃ v u, memRead p s = .ok v u ∧
      HaltsWith (.ppuPortDirection .read (indirectHigh p)) u (exec (.jmp (.ind p)) s) := by
  obtain ⟨v, u, hfirst⟩ := memRead_ppu_completes s lo hi h
  obtain ⟨lo', hi', hreg⟩ := indirectHigh_ppu lo hi
  exact ⟨v, u, hfirst, halts_of_second_pointer_fatal hfirst (memRead_ppu_fatal u lo' hi' (by omega))⟩

/-- Settles O45: the accesses by register number, then the fetch, the operands and the pointers that make one. -/
theorem ppuDirectionFaults : Obligations.PpuDirectionFaults := by
  refine ⟨fun a v s lo hi => ⟨?read, ?write⟩, ?operand, ?pointer⟩
  case read =>
    split
    · next h => exact memRead_ppu_completes s lo hi h
    · next h =>
      have hr := memRead_ppu_fatal s lo hi h
      exact ⟨hr, fun hrun hag hpc => halts_of_fetch_fatal hrun hag (hpc ▸ hr)⟩
  case write =>
    split
    · next h => exact memWrite_ppu_fatal s lo hi v h
    · next h => exact memWrite_ppu_completes s lo hi v h
  case operand =>
    intro m s ea he lo hi halts
    refine ⟨fun h i => halts_of_memRead_fatal he (memRead_ppu_fatal s lo hi h), fun h =>
      ⟨fun i => halts_of_memWrite_fatal he fun v => memWrite_ppu_fatal s lo hi v h, ?modify⟩⟩
    case modify =>
      obtain ⟨hflag, htoggle⟩ := s.ppu.afterStatusRead_cleared
      exact ⟨_, memRead_ppu_status s lo hi h, hflag, htoggle, fun i => modifiers_halt_at_status he lo hi h⟩
  case pointer =>
    intro p s lo hi second
    refine ⟨fun h => halts_of_pointer_fatal (memRead_ppu_fatal s lo hi h), fun h => ?second⟩
    case second =>
      obtain ⟨v, u, hfirst, t, hexec, hhalt, hmem, hdev⟩ := jmp_halts_at_second_ppu_read lo hi h
      obtain ⟨-, hkept⟩ := memRead_busOnly hfirst
      rw [indirectHigh_eq_ofNat] at hhalt
      exact ⟨v, u, t, hfirst, hexec, hhalt, hmem.trans hkept, hdev⟩

end Sys2Proof.Machine
end

section
/-! PROOFS. The picture decoder (statements O57 and O58). -/

namespace Sys2Proof.Machine

theorem toNat_getLsbD (b : Byte) (i : Nat) : (b.getLsbD i).toNat = b.toNat / 2 ^ i % 2 :=
  Nat.toNat_testBit b.toNat i

/-- Bases given as numbers are in range when both regions end below the palette (49_picture_decoder.md R361). -/
theorem basesInRange_iff (nt pt : GfxAddr) :
    basesInRange nt pt = true ↔ nt.toNat + 0x3FF < 0x3F00 ∧ pt.toNat + 0xFFF < 0x3F00 := by
  simp only [basesInRange, Bool.and_eq_true, decide_eq_true_eq]
  rfl

section InRange

variable {x y : Nat} {nt pt : GfxAddr} (s : State)

theorem pixelColor_some (hx : x < 256) (hy : y < 240) (hnt : nt.toNat + 0x3FF < 0x3F00)
    (hpt : pt.toNat + 0xFFF < 0x3F00) : pixelColor x y nt pt s = some (decodePixel x y nt pt s) :=
  if_pos ⟨hx, hy, (basesInRange_iff nt pt).2 ⟨hnt, hpt⟩⟩

theorem pixelColor_none (h : ¬(x < 256 ∧ y < 240 ∧ nt.toNat + 0x3FF < 0x3F00 ∧ pt.toNat + 0xFFF < 0x3F00)) :
    pixelColor x y nt pt s = none :=
  if_neg fun ⟨hx, hy, hb⟩ => h ⟨hx, hy, (basesInRange_iff nt pt).1 hb⟩

end InRange

/-- The shift that brings a quadrant's two bits down, by the pixel's quadrant (49_picture_decoder.md R364). -/
theorem attributeShift_eq (x y : Nat) :
    ((x &&& 16) >>> 3) ||| ((y &&& 16) >>> 2) = 2 * (x / 16 % 2) + 4 * (y / 16 % 2) := by
  have mask (n : Nat) : n &&& 16 = n / 16 % 2 * 16 := by
    rw [show 16 = 2 ^ 4 from rfl, Nat.and_two_pow, Nat.toNat_testBit]
  rw [mask x, mask y]
  obtain hx | hx := Nat.mod_two_eq_zero_or_one (x / 16) <;>
    obtain hy | hy := Nat.mod_two_eq_zero_or_one (y / 16) <;> rw [hx, hy] <;> rfl

/-- The byte of graphics memory at an address given as a number. -/
def gfxByte (s : State) (k : Nat) : Nat := (gfxRead s (BitVec.ofNat 14 k)).toNat

section Numbers

variable (s : State) (x y nt pt : Nat)

theorem tileAt_toNat : (tileAt x y (BitVec.ofNat 14 nt) s).toNat = gfxByte s (nt + x / 8 + y / 8 * 32) := by
  rw [tileAt, ← BitVec.ofNat_add, ← Nat.add_assoc]
  rfl

theorem planeAddr_eq_ofNat :
    planeAddr x y (BitVec.ofNat 14 nt) (BitVec.ofNat 14 pt) s =
      BitVec.ofNat 14 (pt + gfxByte s (nt + x / 8 + y / 8 * 32) * 16 + y % 8) := by
  rw [planeAddr, tileAt_toNat, ← BitVec.ofNat_add, ← Nat.add_assoc]

/-- The low two bits of the colour index, from the two plane bytes (49_picture_decoder.md R363). -/
theorem patternBits_eq :
    patternBits x y (BitVec.ofNat 14 nt) (BitVec.ofNat 14 pt) s =
      let p := pt + gfxByte s (nt + x / 8 + y / 8 * 32) * 16 + y % 8
      gfxByte s p / 2 ^ (7 - x % 8) % 2 + 2 * (gfxByte s (p + 8) / 2 ^ (7 - x % 8) % 2) := by
  have hsecond (k : Nat) : BitVec.ofNat 14 k + 8 = BitVec.ofNat 14 (k + 8) := (BitVec.ofNat_add k 8).symm
  simp only [patternBits, planeAddr_eq_ofNat, toNat_getLsbD, hsecond, gfxByte]

/-- The high two bits, from the byte that covers 32 by 32 pixels (49_picture_decoder.md R364). -/
theorem attributeBits_eq :
    attributeBits x y (BitVec.ofNat 14 nt) s =
      gfxByte s (nt + 0x3C0 + x / 32 + y / 32 * 8) / 2 ^ (2 * (x / 16 % 2) + 4 * (y / 16 % 2)) % 4 := by
  have haddr : nt + (0x3C0 + x / 32 + y / 32 * 8) = nt + 0x3C0 + x / 32 + y / 32 * 8 := by omega
  simp only [attributeBits]
  rw [attributeShift_eq, Nat.shiftRight_eq_div_pow, ← BitVec.ofNat_add, haddr, gfxByte]

end Numbers

/-- Settles O57: sums of graphics addresses are sums of numbers, and the two fields of the index are read off their
bytes. -/
theorem pixelColorResult : Obligations.PixelColorResult := by
  intro s x y nt pt hnt hpt byte p low high
  have hnt : (BitVec.ofNat 14 nt).toNat = nt := (BitVec.toNat_ofNat nt 14).trans (Nat.mod_eq_of_lt hnt)
  have hpt : (BitVec.ofNat 14 pt).toNat = pt := (BitVec.toNat_ofNat pt 14).trans (Nat.mod_eq_of_lt hpt)
  constructor
  case left =>
    intro hx hy hn hp
    have hlow : patternBits x y (BitVec.ofNat 14 nt) (BitVec.ofNat 14 pt) s = low := patternBits_eq s x y nt pt
    have hhigh : attributeBits x y (BitVec.ofNat 14 nt) s = high := attributeBits_eq s x y nt
    rw [pixelColor_some s hx hy (by omega) (by omega), decodePixel, hlow, hhigh, Nat.mul_comm]
  case right =>
    intro h
    exact pixelColor_none s (by rwa [hnt, hpt])

/-- Below the palette, a graphics byte is given by the stores and their windows (20_memory.md R87). -/
theorem gfxRead_congr {s t : State} (hgfx : t.ppu.gfx = s.ppu.gfx) (hbank : t.params.gfxBank = s.params.gfxBank)
    {g : GfxAddr} (h : g.toNat < 0x3F00) : gfxRead t g = gfxRead s g := by
  rw [gfxRead_store (not_le.2 h), gfxRead_store (not_le.2 h), hgfx, hbank]

/-- A sum of a base and an offset that stays below the palette does not wrap. -/
theorem toNat_add_ofNat_lt {g : GfxAddr} {k n : Nat} (hk : k ≤ n) (h : g.toNat + n < 0x3F00) :
    (g + BitVec.ofNat 14 k).toNat < 0x3F00 := by
  rw [BitVec.toNat_add, BitVec.toNat_ofNat]
  omega

section Pure

variable {s t : State} (hgfx : t.ppu.gfx = s.ppu.gfx) (hbank : t.params.gfxBank = s.params.gfxBank) {x y : Nat}
  {nt pt : GfxAddr} (hx : x < 256) (hy : y < 240) (hnt : nt.toNat + 0x3FF < 0x3F00)

include hgfx hbank hx hy hnt

theorem tileAt_congr : tileAt x y nt t = tileAt x y nt s :=
  gfxRead_congr hgfx hbank (toNat_add_ofNat_lt (by omega) hnt)

theorem attributeBits_congr : attributeBits x y nt t = attributeBits x y nt s := by
  have hattr := gfxRead_congr hgfx hbank
    (toNat_add_ofNat_lt (k := 0x3C0 + x / 32 + y / 32 * 8) (by omega) hnt)
  simp only [attributeBits, hattr]

theorem patternBits_congr (hpt : pt.toNat + 0xFFF < 0x3F00) : patternBits x y nt pt t = patternBits x y nt pt s := by
  have htile := (tileAt x y nt s).isLt
  have hplane : planeAddr x y nt pt t = planeAddr x y nt pt s := by
    simp only [planeAddr, tileAt_congr hgfx hbank hx hy hnt]
  have hfirst : (planeAddr x y nt pt s).toNat < 0x3F00 := toNat_add_ofNat_lt (by omega) hpt
  have hsecond : (planeAddr x y nt pt s + 8).toNat < 0x3F00 := by
    rw [planeAddr, BitVec.add_assoc, show (8 : GfxAddr) = BitVec.ofNat 14 8 from rfl, ← BitVec.ofNat_add]
    exact toNat_add_ofNat_lt (by omega) hpt
  simp only [patternBits, hplane, gfxRead_congr hgfx hbank hfirst, gfxRead_congr hgfx hbank hsecond]

end Pure

/-- Settles O58: in range, every byte the decoder reads lies below the palette. -/
theorem pixelColorIsPure : Obligations.PixelColorIsPure := by
  intro s t x y nt pt hgfx hbank hsnap
  by_cases h : x < 256 ∧ y < 240 ∧ nt.toNat + 0x3FF < 0x3F00 ∧ pt.toNat + 0xFFF < 0x3F00
  · obtain ⟨hx, hy, hnt, hpt⟩ := h
    rw [pixelColor_some t hx hy hnt hpt, pixelColor_some s hx hy hnt hpt]
    simp only [decodePixel, hsnap, attributeBits_congr hgfx hbank hx hy hnt,
      patternBits_congr hgfx hbank hx hy hnt hpt]
  · rw [pixelColor_none t h, pixelColor_none s h]

end Sys2Proof.Machine
end

section
/-! PROOFS. A frame (statement O59): its burst as a chain of CPU steps, its end, and its buffer. -/

namespace Sys2Proof.Machine

/-- The chain of states `f` with `s` put before it. -/
def chainFrom (s : State) (f : Nat → State) : Nat → State
  | 0 => s
  | j + 1 => f j

/-- The chain of `k` CPU steps `f`, each from a running state. -/
def CpuChain (k : Nat) (f : Nat → State) : Prop :=
  ∀ j, j < k → (f j).halted = .running ∧ cpuStep (f j) = .next (f (j + 1))

theorem CpuChain.cons {s : State} {k : Nat} {f : Nat → State} (hrun : s.halted = .running)
    (hstep : cpuStep s = .next (f 0)) (h : CpuChain k f) : CpuChain (k + 1) (chainFrom s f) := by
  intro j hj
  cases j with
  | zero => exact ⟨hrun, hstep⟩
  | succ j => exact h j (by omega)

/-- A burst from a running state is a chain of CPU steps, as many as asked for unless the last one halts
(60_exceptions.md R405). -/
theorem runBurst_chain (n : Nat) {s : State} (hrun : s.halted = .running) :
    ∃ k f, k ≤ n ∧ f 0 = s ∧ CpuChain k f ∧ ((f k).halted = .running → k = n) ∧ runBurst n s = .next (f k) := by
  induction n generalizing s with
  | zero => exact ⟨0, fun _ => s, le_refl 0, rfl, fun j hj => absurd hj (Nat.not_lt_zero j), fun _ => rfl, rfl⟩
  | succ n ih =>
    obtain ⟨t, hstep⟩ := cpuStep_next hrun
    by_cases ht : t.halted = .running
    · obtain ⟨k, f, hk, rfl, hchain, hend, hburst⟩ := ih ht
      refine ⟨k + 1, chainFrom s f, by omega, rfl, hchain.cons hrun hstep, fun h => congrArg (· + 1) (hend h), ?_⟩
      simp only [runBurst, hstep, if_pos ht, hburst]
      rfl
    · refine ⟨1, chainFrom s fun _ => t, by omega, rfl, ?_, fun h => absurd h ht, ?_⟩
      · exact CpuChain.cons (k := 0) hrun hstep fun j hj => absurd hj (Nat.not_lt_zero j)
      · simp only [runBurst, hstep, if_neg ht]
        rfl

/-- The hook always completes, and the machine runs on (60_exceptions.md R390). -/
theorem nmiHook_next (s : State) : ∃ t, (nmiHook s).finish = .next t ∧ t.halted = s.halted := by
  obtain ⟨m, -, e⟩ := enterInterrupt_eq s.pc (pushedByHook s.p) Config.vecNmi s (by decide) (by decide)
  exact ⟨_, congrArg Res.finish e, rfl⟩

/-- While the machine runs, the frame event completes and leaves it running (60_exceptions.md R401). -/
theorem frameEvent_next {s : State} (h : s.halted = .running) :
    ∃ t, frameEvent s = .next t ∧ t.halted = .running := by
  cases hctrl : s.ppu.ctrl.getLsbD 7 with
  | false => exact ⟨_, frameEvent_disabled h hctrl, h⟩
  | true =>
    obtain ⟨t, e, ht⟩ := nmiHook_next (s.setPpu s.ppu.raiseBlank)
    exact ⟨t, (frameEvent_enabled h hctrl).trans e, ht.trans h⟩

/-- The end of a frame from a running state: frame event, refresh, pixel pass (60_exceptions.md R402, R405). -/
theorem finishFrame_eq (nt pt : GfxAddr) {s : State} (h : s.halted = .running) :
    ∃ u t, frameEvent s = .next u ∧ refreshSnapshot u = .next t ∧
      finishFrame nt pt s = .next { state := t, buffer := some (pixelPass nt pt t) } := by
  obtain ⟨u, hu, hrun⟩ := frameEvent_next h
  have ht := refreshSnapshot_running hrun
  exact ⟨u, _, hu, ht, by simp only [finishFrame, hu, ht]⟩

section Rows

variable {α : Type} (w : Nat) (f : Nat → Nat → α)

theorem length_rows (h : Nat) :
    ((List.range h).flatMap fun y => (List.range w).map fun x => f x y).length = h * w := by
  simp only [List.length_flatMap, List.length_map, List.length_range, List.map_const', List.sum_replicate, smul_eq_mul]

/-- Rows of one width, one after the other: entry `x` of row `y` is at `y * w + x`. -/
theorem getElem?_rows {x y h : Nat} (hx : x < w) (hy : y < h) :
    ((List.range h).flatMap fun y => (List.range w).map fun x => f x y)[y * w + x]? = some (f x y) := by
  induction h with
  | zero => exact absurd hy (Nat.not_lt_zero y)
  | succ h ih =>
    rw [List.range_succ, List.flatMap_append]
    obtain hlt | rfl := Nat.lt_succ_iff_lt_or_eq.1 hy
    · have hrow : y * w + x < h * w := calc
        y * w + x < y * w + w := Nat.add_lt_add_left hx _
        _ = (y + 1) * w := (Nat.succ_mul y w).symm
        _ ≤ h * w := Nat.mul_le_mul_right w hlt
      rw [List.getElem?_append_left (by rwa [length_rows]), ih hlt]
    · rw [List.getElem?_append_right (by rw [length_rows]; omega), length_rows, Nat.add_sub_cancel_left,
        List.flatMap_singleton, List.getElem?_map, List.getElem?_range hx]
      rfl

end Rows

/-- The frame buffer holds every pixel of the screen (49_picture_decoder.md R368). -/
theorem pixelPass_length (nt pt : GfxAddr) (s : State) : (pixelPass nt pt s).length = 61440 :=
  length_rows 256 (fun x y => decodePixel x y nt pt s) 240

/-- Pixel `(x, y)` is at index `y * 256 + x` (49_picture_decoder.md R368). -/
theorem pixelPass_getElem? (nt pt : GfxAddr) (s : State) {x y : Nat} (hx : x < 256) (hy : y < 240) :
    (pixelPass nt pt s)[y * 256 + x]? = some (decodePixel x y nt pt s) :=
  getElem?_rows 256 (fun x y => decodePixel x y nt pt s) hx hy

section Frame

variable {n : Nat} {nt pt : GfxAddr} {s t : State}

theorem renderFrame_halted {c : Cause} (h : s.halted = .halted c) :
    renderFrame n nt pt s = .refused (.whileHalted c) := by
  simp only [renderFrame, h]

variable (hrun : s.halted = .running)
include hrun

theorem renderFrame_refused (h : ¬basesInRange nt pt = true) : renderFrame n nt pt s = .refused .tablesOutOfRange := by
  simp only [renderFrame, hrun, if_neg h]

theorem renderFrame_of_running (h : basesInRange nt pt = true) (hburst : runBurst n s = .next t)
    (ht : t.halted = .running) : renderFrame n nt pt s = finishFrame nt pt t := by
  simp only [renderFrame, hrun, if_pos h, hburst, if_pos ht]

theorem renderFrame_of_halted (h : basesInRange nt pt = true) (hburst : runBurst n s = .next t)
    (ht : t.halted ≠ .running) : renderFrame n nt pt s = .next { state := t, buffer := none } := by
  simp only [renderFrame, hrun, if_pos h, hburst, if_neg ht]

end Frame

/-- Settles O59: the refusals, then the burst as a chain of CPU steps and the end of the frame by how the burst ends. -/
theorem renderFrameResult : Obligations.RenderFrameResult := by
  intro n nt pt s
  refine ⟨fun c hc => renderFrame_halted hc, fun hrun h => renderFrame_refused hrun ?bases, fun hrun hnt hpt => ?frame⟩
  case bases => rwa [basesInRange_iff]
  case frame =>
    have hb : basesInRange nt pt = true := (basesInRange_iff nt pt).2 ⟨hnt, hpt⟩
    obtain ⟨k, f, hk, hzero, hchain, hend, hburst⟩ := runBurst_chain n hrun
    refine ⟨k, f, hk, hzero, hchain, fun hlast => ⟨hend hlast, ?completed⟩, renderFrame_of_halted hrun hb hburst⟩
    case completed =>
      obtain ⟨u, t, hevent, hrefresh, hfinish⟩ := finishFrame_eq nt pt hlast
      refine ⟨u, t, _, hevent, hrefresh, (renderFrame_of_running hrun hb hburst hlast).trans hfinish,
        pixelPass_length nt pt t, fun x y hx hy => ?_⟩
      rw [pixelPass_getElem? nt pt t hx hy, pixelColor_some t hx hy hnt hpt]

end Sys2Proof.Machine
end

section
/-! PROOFS. Binding a cartridge (statement O60). -/

namespace Sys2Proof.Machine

/-- The graphics stores after construction: the cartridge's data bound, or with none the launch contents
(70_reset_and_hazards.md R422). -/
def boundGraphics (h : Header) (graphics : List Byte) (m : Memory) : Memory :=
  if h.graphicsBanks = 1 then bindGraphics graphics m else m

/-- The launch state with a cartridge bound (60_exceptions.md R385). -/
def boundState (h : Header) (program graphics : List Byte) (launch : State) : State :=
  { launch with
    mem := bindProgram (windowBytes h program) launch.mem
    ppu := { launch.ppu with gfx := boundGraphics h graphics launch.ppu.gfx }
    params := { launch.params with gfxBank := windowsOf h } }

section Construct

variable {h : Header} {program : List Byte} (graphics : List Byte) (launch : State)

theorem construct_refuses_mapper (hm : mapperOf h ≠ 0) :
    construct h program graphics launch = .refused (.unsupportedCartridge .mapper (mapperOf h).toNat) := if_pos hm

variable (hm : mapperOf h = 0)
include hm

theorem construct_refuses_programBanks (hp1 : h.programBanks ≠ 1) (hp2 : h.programBanks ≠ 2) :
    construct h program graphics launch =
      .refused (.unsupportedCartridge .programBanks h.programBanks.toNat) := by
  rw [construct, if_neg (not_not.2 hm), if_pos ⟨hp1, hp2⟩]

variable (hp : h.programBanks = 1 ∨ h.programBanks = 2)
include hp

theorem construct_refuses_graphicsBanks (hg : 1 < h.graphicsBanks.toNat) :
    construct h program graphics launch =
      .refused (.unsupportedCartridge .graphicsBanks h.graphicsBanks.toNat) := by
  rw [construct, if_neg (not_not.2 hm), if_neg (fun k => hp.elim k.1 k.2), if_pos hg]

variable (hg : h.graphicsBanks.toNat ≤ 1)
include hg

theorem construct_refuses_short_program (hl : program.length < 16384 * h.programBanks.toNat) :
    construct h program graphics launch = .refused .unboundWindow := by
  rw [construct, if_neg (not_not.2 hm), if_neg (fun k => hp.elim k.1 k.2), if_neg (not_lt.2 hg), if_pos hl]

theorem construct_eq_boundState (hl : 16384 * h.programBanks.toNat ≤ program.length) :
    construct h program graphics launch = .next (boundState h program graphics launch) := by
  rw [construct, if_neg (not_not.2 hm), if_neg (fun k => hp.elim k.1 k.2), if_neg (not_lt.2 hg),
    if_neg (not_lt.2 hl), boundState, boundGraphics]
  split <;> rfl

end Construct

/-- The windows' bytes: the program data, 16 KiB of it twice (10_state.md R37). -/
theorem windowBytes_getElem? {h : Header} {program : List Byte} (hp : h.programBanks = 1 ∨ h.programBanks = 2)
    (hl : 16384 * h.programBanks.toNat ≤ program.length) {i : Nat} (hi : i < 32768) :
    (windowBytes h program)[i]? = program[i % (16384 * h.programBanks.toNat)]? := by
  obtain hp | hp := hp
  · rw [hp] at hl ⊢
    have hl : 16384 ≤ program.length := hl
    show _ = program[i % 16384]?
    have hbank : (program.take 16384).length = 16384 := List.length_take_of_le hl
    rw [windowBytes, if_pos hp]
    by_cases hi1 : i < 16384
    · rw [List.getElem?_append_left (by omega), List.getElem?_take_of_lt hi1, Nat.mod_eq_of_lt hi1]
    · have hmod : i % 16384 = i - 16384 := by omega
      rw [List.getElem?_append_right (by omega), hbank, List.getElem?_take_of_lt (by omega), hmod]
  · have hne : h.programBanks ≠ 1 := by rw [hp]; decide
    rw [windowBytes, if_neg hne, List.getElem?_take_of_lt hi, hp]
    exact congrArg (program[·]?) (Nat.mod_eq_of_lt hi).symm

/-- Every kept byte has its address or a lower one as its key (20_memory.md R72). -/
theorem memKey_le {a : Word} {k : Nat} (h : memKey a = some k) : k ≤ a.toNat := by
  unfold memKey at h
  split at h <;> cases h
  · rw [mask_ram]
    exact Nat.mod_le _ _
  · exact le_refl _
  · exact le_refl _

/-- The program windows show the program data. -/
theorem boundState_peek_program {h : Header} {program : List Byte} (hp : h.programBanks = 1 ∨ h.programBanks = 2)
    (hl : 16384 * h.programBanks.toNat ≤ program.length) (graphics : List Byte) (launch : State) {a : Word}
    (ha : 0x8000 ≤ a.toNat) :
    (boundState h program graphics launch).peek a =
      program[(a.toNat - 0x8000) % (16384 * h.programBanks.toNat)]? := by
  have hlt := a.isLt
  have hpos : 0 < 16384 * h.programBanks.toNat := by obtain hp | hp := hp <;> rw [hp] <;> decide
  have hin := (Nat.mod_lt (a.toNat - 0x8000) hpos).trans_le hl
  rw [State.peek, memKey_upper (by omega), Option.map_some, boundState, bindProgram_read, if_pos ha,
    windowBytes_getElem? hp hl (by omega), List.getElem?_eq_getElem hin, Option.getD_some]

section Bound

variable (h : Header) (program graphics : List Byte) (launch : State)

/-- Below the program windows every address reads as before. -/
theorem boundState_peek_lower {a : Word} (ha : a.toNat < 0x8000) :
    (boundState h program graphics launch).peek a = launch.peek a := by
  unfold State.peek
  cases hk : memKey a with
  | none => rfl
  | some k =>
    have hle := memKey_le hk
    exact congrArg some ((bindProgram_read _ _ k).trans (if_neg (by omega)))

theorem boundGraphics_read (m : Memory) (j : Nat) :
    (boundGraphics h graphics m).read j =
      if j < 8192 ∧ h.graphicsBanks = 1 then (graphics[j]?).getD Config.unlistedByte else m.read j := by
  unfold boundGraphics
  by_cases hg : h.graphicsBanks = 1
  · simp only [hg, if_true, and_true, bindGraphics_read]
  · simp only [hg, if_false, and_false]

theorem boundGraphics_wf {m : Memory} (hm : m.wf) : (boundGraphics h graphics m).wf := by
  unfold boundGraphics
  split
  · exact bindGraphics_wf graphics hm
  · exact hm

/-- The graphics windows: 0 to 7 are the cartridge's stores in order, the others the two name-table stores
(10_state.md R47). -/
theorem gfxKey_windowsOf (g : GfxAddr) :
    gfxKey (windowsOf h) g =
      if g.toNat < 0x2000 then g.toNat
      else 0x2000 + 0x400 * (if h.flag1.getLsbD 0 then g.toNat / 0x400 % 2 else g.toNat / 0x800 % 2) +
        g.toNat % 0x400 := by
  have hw : (Fin.ofNat 16 (g.toNat / 1024)).val = g.toNat / 1024 := Nat.mod_eq_of_lt (by omega)
  rw [gfxKey, windowsOf_get, hw]
  split_ifs <;> omega

/-- A graphics address below the palette, once the cartridge is bound. -/
theorem gfxRead_boundState {g : GfxAddr} (hg : g.toNat < 0x3F00) :
    gfxRead (boundState h program graphics launch) g =
      (boundGraphics h graphics launch.ppu.gfx).read (gfxKey (windowsOf h) g) := gfxRead_store (not_le.2 hg) _

theorem gfxRead_boundState_pattern {g : GfxAddr} (hg : g.toNat < 0x2000) :
    gfxRead (boundState h program graphics launch) g =
      if h.graphicsBanks = 1 then (graphics[g.toNat]?).getD Config.unlistedByte
      else launch.ppu.gfx.read g.toNat := by
  rw [gfxRead_boundState h program graphics launch (by omega), gfxKey_windowsOf, if_pos hg, boundGraphics_read]
  simp only [hg, true_and]

theorem gfxRead_boundState_nameTable {g : GfxAddr} (hlo : 0x2000 ≤ g.toNat) (hhi : g.toNat < 0x3F00) :
    gfxRead (boundState h program graphics launch) g =
      launch.ppu.gfx.read (0x2000 +
        0x400 * (if h.flag1.getLsbD 0 then g.toNat / 0x400 % 2 else g.toNat / 0x800 % 2) + g.toNat % 0x400) := by
  rw [gfxRead_boundState h program graphics launch hhi, gfxKey_windowsOf, if_neg (by omega), boundGraphics_read,
    if_neg (by omega)]

theorem windowBytes_length_le : (windowBytes h program).length ≤ 32768 := by
  have hbank (n : Nat) : (program.take n).length ≤ n := List.length_take_le n program
  have h1 := hbank 16384
  unfold windowBytes
  split
  · rw [List.length_append]
    omega
  · exact hbank 32768

/-- The bound program lies at addresses that are kept (20_memory.md R71). -/
theorem boundState_memoryInRange (hr : launch.memoryInRange) :
    (boundState h program graphics launch).memoryInRange := by
  intro c hc
  obtain hc | hc := List.mem_append.1 hc
  · exact hr c (List.mem_filter.1 hc).1
  · obtain ⟨hlo, hhi, -⟩ := Memory.mem_ofBytes hc
    have hlen := windowBytes_length_le h program
    omega

theorem Inv.boundState {launch : State} (hi : Inv launch) : Inv (boundState h program graphics launch) :=
  { hi with
    mem := bindProgram_wf _ hi.mem
    range := boundState_memoryInRange h program graphics launch hi.range
    gfx := boundGraphics_wf h graphics hi.gfx }

end Bound

/-- Settles O60: the refusals in their order, then what the bound state shows, window by window. -/
theorem constructResult : Obligations.ConstructResult := by
  intro h program graphics launch mapper refuses
  exact ⟨construct_refuses_mapper graphics launch, construct_refuses_programBanks graphics launch,
    construct_refuses_graphicsBanks graphics launch, construct_refuses_short_program graphics launch,
    fun hm hp hg hl => ⟨boundState h program graphics launch, construct_eq_boundState graphics launch hm hp hg hl,
      fun a => boundState_peek_program hp hl graphics launch, fun a => boundState_peek_lower h program graphics launch,
      fun g => gfxRead_boundState_pattern h program graphics launch,
      fun g => gfxRead_boundState_nameTable h program graphics launch, windowsOf_get h, rfl,
      Inv.boundState h program graphics⟩⟩

end Sys2Proof.Machine
end
